-- ==== Sys2Proof/Word.lean ====
section
/-! DEFINITION. The word types of the block (00_scope.md R10): registers and memory indices are 32 bits, a data
byte is 8 bits. -/

namespace Sys2Proof

/-- One data byte (R10). -/
abbrev Byte := BitVec 8

/-- One host-visible register, or one memory index (R10). -/
abbrev Word := BitVec 32

end Sys2Proof
end

