-- ==== Sys2Proof/Syntax.lean ====
section
/-! DEFINITION. The instructions: the two tokens and the commands (00_scope.md R14), one constructor for each row
of spec/opcode_table.json. -/

namespace Sys2Proof

/-- The block's instructions. -/
inductive Instr where
  /-- LIT (30_encoding.md R92): a literal run with its bytes d_0 .. d_(n-1); the field L is their number less 1. -/
  | lit (bytes : List Byte)
  /-- BREF (30_encoding.md R93): the fields H, O and N. -/
  | bref (high : BitVec 7) (low : Byte) (len : Byte)
  /-- DECOMPRESS, command word 1 (30_encoding.md R103). -/
  | decompress
  /-- RECONSTRUCT, command word 2 (R103). -/
  | reconstruct
  /-- PALETTE_READ, command word 3 (R103). -/
  | paletteRead
  /-- ILLEGAL_COMMAND (R103): any other command word. -/
  | illegalCommand (word : Word)
deriving DecidableEq, Repr

end Sys2Proof
end

