-- ==== Sys2Proof/WellFormed.lean ====
section
/-! DEFINITION. Which terms of Instr stand for an encoding. -/

namespace Sys2Proof

/-- A LIT carries 1 to 128 bytes (30_encoding.md R94: "No LIT has length 0"); an illegal command is a word that is
no command code (R103); every value of the other fields is valid (R99). -/
def Instr.wellFormed : Instr → Bool
  | .lit bytes => decide (1 ≤ bytes.length) && decide (bytes.length ≤ 128)
  | .bref _ _ _ => true
  | .decompress => true
  | .reconstruct => true
  | .paletteRead => true
  | .illegalCommand word => decide (word ≠ 1#32) && decide (word ≠ 2#32) && decide (word ≠ 3#32)

/-- The check as a proposition. -/
abbrev WellFormed (i : Instr) : Prop := i.wellFormed = true

end Sys2Proof
end

