-- ==== Sys2Proof/Decode.lean ====
section
/-! DEFINITION. Decoding and encoding of the two encoding spaces (30_encoding.md): tokens, which are bytes of IN, and
command words, which are 32-bit values written to CMD; the host's numbering of both; the assembler notation. -/

namespace Sys2Proof

/-- The match flag of a control byte: bit 7; false selects LIT, true selects BREF (30_encoding.md R91). -/
def matchFlag (c : Byte) : Bool := c.getLsbD 7

/-- LIT run length: c[6:0] + 1 (R94). -/
def runLength (c : Byte) : Nat := (c.extractLsb' 0 7).toNat + 1

/-- A token's total length in bytes, from its first byte alone (R98). -/
def tokenLength (c : Byte) : Nat := if matchFlag c then 3 else 1 + runLength c

/-- What decoding a list of token bytes gives. -/
inductive DecodeResult where
  /-- A whole token, and the bytes after it. -/
  | token (i : Instr) (rest : List Byte)
  /-- Rejected: the control byte claims more bytes than follow it (R90, 40_lzss.md R116, R119). -/
  | truncated (expected available : Nat)
  /-- Rejected: there is no control byte. -/
  | empty
deriving DecidableEq, Repr

/-- Decode the token at the head of a list of bytes (R91 to R93). No byte value is reserved (R99), so a token is
rejected only where bytes are missing. -/
def decodeToken : List Byte → DecodeResult
  | [] => .empty
  | c :: rest =>
    if matchFlag c then
      match rest with
      | b1 :: b2 :: rest' => .token (.bref (c.extractLsb' 0 7) b1 b2) rest'
      | _ => .truncated 2 rest.length
    else if rest.length < runLength c then
      .truncated (runLength c) rest.length
    else
      .token (.lit (rest.take (runLength c))) (rest.drop (runLength c))

/-- Decode a command word: all 32 bits are compared (R103). -/
def decodeCommand (w : Word) : Instr :=
  if w = 1#32 then .decompress
  else if w = 2#32 then .reconstruct
  else if w = 3#32 then .paletteRead
  else .illegalCommand w

/-- The words of an instruction in its own encoding space: token bytes, or one command word. -/
inductive Code where
  | token (bytes : List Byte)
  | command (word : Word)
deriving DecidableEq, Repr

/-- Control byte of a LIT of n bytes: 0LLLLLLL with L = n - 1 (R92). -/
def litControl (n : Nat) : Byte := 0#1 ++ BitVec.ofNat 7 (n - 1)

/-- Control byte of a BREF: 1HHHHHHH (R93). -/
def brefControl (high : BitVec 7) : Byte := 1#1 ++ high

/-- The encoder (R92, R93, R103). -/
def encode : Instr → Code
  | .lit bytes => .token (litControl bytes.length :: bytes)
  | .bref high low len => .token [brefControl high, low, len]
  | .decompress => .command 1#32
  | .reconstruct => .command 2#32
  | .paletteRead => .command 3#32
  | .illegalCommand word => .command word

/-- The bytes of a token; none for a command. -/
def tokenBytes (i : Instr) : List Byte :=
  match encode i with
  | .token bytes => bytes
  | .command _ => []

/-- Decode either kind of code. -/
def decode : Code → DecodeResult
  | .token bytes => decodeToken bytes
  | .command word => .token (decodeCommand word) []

/-- The longest token, in bytes (R92: 1 + 128). -/
def longestToken : Nat := 129

/-- The first n bytes of a number, the least significant first. -/
def leBytes : Nat → Nat → List Byte
  | 0, _ => []
  | n + 1, w => BitVec.ofNat 8 w :: leBytes n (w / 256)

/-- An instruction of the opcode table's numbering as token bytes: the low nbits bits of w, then zeros up to the end of
the token its first byte announces. -/
def tableBytes (nbits w : Nat) : List Byte :=
  leBytes (max (nbits / 8) (tokenLength (BitVec.ofNat 8 (w % 2 ^ nbits)))) (w % 2 ^ nbits)

/-- What the decoder reads from the opcode table's numbering. A row of 32 bits is a command word, and so is the row to
which the table gives no bits (ILLEGAL_COMMAND); any other row is a token (30_encoding.md R107; log 15). -/
def decodeTableWord (nbits w : Nat) : Option Instr :=
  if nbits = 32 ∨ nbits = 0 then some (decodeCommand (BitVec.ofNat 32 (w % 2 ^ nbits)))
  else
    match decodeToken (tableBytes nbits w) with
    | .token i _ => some i
    | .truncated _ _ => none
    | .empty => none

/-- `LIT b_0, ..., b_(n-1)` of the assembler notation (R104). -/
def asmLit (bytes : List Byte) : List Byte := litControl bytes.length :: bytes

/-- `REF -d, n` of the assembler notation (R104), with v = 0x10000 - d. -/
def asmRef (d n : Nat) : List Byte :=
  [BitVec.ofNat 8 ((0x10000 - d) / 256), BitVec.ofNat 8 (0x10000 - d), BitVec.ofNat 8 (n - 1)]

/-- `HDR tag, width, height` of the assembler notation (R104). -/
def asmHdr (tag width height : BitVec 16) : List Byte :=
  leBytes 2 tag.toNat ++ leBytes 2 width.toNat ++ leBytes 2 height.toNat

/-- `FILL b, n` (R105). -/
def asmFill (b : Byte) (n : Nat) : List Byte := asmLit [b] ++ asmRef 1 (n - 1)

/-- The LIT tokens of `LITS` (R105), at most fuel of them: full runs of 128 bytes, then the remainder. -/
def asmLitsFuel : Nat → List Byte → List Byte
  | 0, _ => []
  | fuel + 1, bytes =>
    if bytes.length ≤ 128 then asmLit bytes
    else asmLit (bytes.take 128) ++ asmLitsFuel fuel (bytes.drop 128)

/-- `LITS b_0 .. b_(m-1)` (R105). -/
def asmLits (bytes : List Byte) : List Byte := asmLitsFuel bytes.length bytes

/-- The REF tokens of `COPY` (R105), at most fuel of them. -/
def asmCopyFuel : Nat → Nat → Nat → List Byte
  | 0, _, _ => []
  | fuel + 1, d, m =>
    if m ≤ 256 then asmRef d m else asmRef d 256 ++ asmCopyFuel fuel d (m - 256)

/-- `COPY -d, m` (R105). -/
def asmCopy (d m : Nat) : List Byte := asmCopyFuel m d m

end Sys2Proof
end

