-- ==== Sys2Proof/Config.lean ====
section
/-! DEFINITION. What an implementation fixes (00_scope.md R9) and the values the spec leaves open. Every one is an
opaque constant: no proof can learn its value, so a theorem holds for every choice of it. -/

namespace Sys2Proof

/-- One palette entry: three 8-bit channels (42_palette.md R180, R186). -/
structure Rgb where
  r : Byte
  g : Byte
  b : Byte
deriving DecidableEq, Repr, Inhabited

/-- A palette: exactly 16 entries (42_palette.md R180). -/
abbrev Palette := Vector Rgb 16

/-- The three byte memories (20_memory.md R60): IN, OUT and RASTER. -/
inductive Space where
  | input
  | output
  | raster
deriving DecidableEq, Repr

/-- Free choices behind the three capacities (log 4). -/
opaque Config.inCapacityChoice : Nat
opaque Config.outCapacityChoice : Nat
opaque Config.rasterCapacityChoice : Nat

/-- IN_CAPACITY: some value with 6 <= IN_CAPACITY <= 2^32 - 1 (R9); every such value is a choice (log 4). -/
def Config.inCapacity : Nat := 6 + Config.inCapacityChoice % (2 ^ 32 - 6)

/-- OUT_CAPACITY: some value with 1 <= OUT_CAPACITY <= 2^32 - 1 (R9; log 4). -/
def Config.outCapacity : Nat := 1 + Config.outCapacityChoice % (2 ^ 32 - 1)

/-- RASTER_CAPACITY: some value with 8 <= RASTER_CAPACITY <= 2^32 - 1 (R9; log 4). -/
def Config.rasterCapacity : Nat := 8 + Config.rasterCapacityChoice % (2 ^ 32 - 8)

/-- PALETTE0, the palette "for a specific asset file" (R9, 42_palette.md R182; log 5). -/
opaque Config.palette0 : Palette

/-- PALETTE1, the palette "for general game assets" (R9, 42_palette.md R182; log 5). -/
opaque Config.palette1 : Palette

/-- FREE VALUE: what a memory holds at an index nothing has written since the reset number epoch
(20_memory.md R86; log 2). -/
opaque Config.unwritten (epoch : Nat) (space : Space) (index : Nat) : Byte

/-- FREE VALUE: the byte the host gets from its n-th read of an unspecified byte (20_memory.md R74; log 3). -/
opaque Config.draw (n : Nat) : Byte

/-- Bases the platform gives the four host-visible spaces (20_memory.md R76; log 19). -/
opaque Config.regBase : Nat
opaque Config.inBase : Nat
opaque Config.outBase : Nat
opaque Config.rasterBase : Nat

/-- HOST_BUS_ORDER (20_memory.md R70; log 19): whether the host bus lays a register out with its least significant
byte first. -/
opaque Config.hostBusLittleEndian : Bool

end Sys2Proof
end

