-- ==== Sys2Proof/Machine/State.lean ====
section
/-! DEFINITION. The state of the block (10_state.md R20), as plain data, and the state right after reset (R49). -/

namespace Sys2Proof.Machine

/-- STATUS.STATE (10_state.md R23). -/
inductive Status where
  | idle
  | busy
  | done
  | error
deriving DecidableEq, Repr

/-- w.PHASE (10_state.md R45). -/
inductive Phase where
  | halt
  | hdr
  | fetch
  | litcopy
  | refcopy
  | recon
  | palrd
deriving DecidableEq, Repr

/-- The errors a command can end with (60_exceptions.md R230). -/
inductive ErrorKind where
  | truncatedStream
  | invalidBackreference
  | malformedPlanarImage
  | unknownPalette
  | outputOverflow
  | illegalCommand
deriving DecidableEq, Repr

/-- One raise: the error and its context (60_exceptions.md R234). -/
structure ErrorReport where
  kind : ErrorKind
  pos : Nat
  expected : Nat
  available : Nat
deriving DecidableEq, Repr

/-- One byte memory: its written bytes, addresses strictly rising. An index it does not list has not been written
since reset (20_memory.md R86); what the machine reads there is `State.readByte`'s free value. -/
abbrev Memory := List Host.Cell

/-- One move of either agent (43_commands.md R210, R213). -/
inductive Move where
  /-- The sequencer takes the one step that w.PHASE enables (R208). -/
  | tick
  /-- The host writes a value to REG at a byte offset, by an access of the given number of bytes. -/
  | regWrite (offset : Word) (bytes : Nat) (value : Word)
  /-- The host reads REG. -/
  | regRead (offset : Word) (bytes : Nat)
  /-- The host writes one byte of a memory. -/
  | memWrite (space : Space) (index : Word) (value : Byte)
  /-- The host reads one byte of a memory. -/
  | memRead (space : Space) (index : Word)
  /-- The host asserts reset (70_reset_and_hazards.md R270). -/
  | reset
deriving DecidableEq, Repr

/-- The state of the block, and four fields of the model's own. -/
structure State where
  /-- STATUS.STATE (R23). -/
  status : Status
  /-- ERR_CODE (R27). -/
  errCode : BitVec 4
  /-- ERR_POS (R28). -/
  errPos : Word
  /-- ERR_EXPECTED (R29). -/
  errExpected : Word
  /-- ERR_AVAILABLE (R30). -/
  errAvailable : Word
  /-- IN_LEN (R31). -/
  inLen : Word
  /-- HDR_TAG (R32). -/
  hdrTag : BitVec 16
  /-- WIDTH (R33). -/
  width : BitVec 16
  /-- HEIGHT (R34). -/
  height : BitVec 16
  /-- OUT_LEN (R25). -/
  outLen : Word
  /-- IP (R24). -/
  ip : Word
  /-- PAL_SEL (R36). -/
  palSel : Byte
  /-- TRANSP (R37): EN in bit 8, IDX in bits 7 to 0. -/
  transp : BitVec 9
  /-- PAL_IDX (R38). -/
  palIdx : BitVec 4
  /-- PAL_RGB (R39). -/
  palRgb : BitVec 24
  /-- IN_CAP (R42). -/
  inCap : Word
  /-- OUT_CAP (R42). -/
  outCap : Word
  /-- RASTER_CAP (R42). -/
  rasterCap : Word
  /-- w.PHASE (R43). -/
  phase : Phase
  /-- w.C (R43). -/
  wC : Byte
  /-- w.CNT (R43). -/
  wCnt : BitVec 9
  /-- w.SRC (R43). -/
  wSrc : Word
  /-- IN (20_memory.md R61). -/
  inMem : Memory
  /-- OUT (R62). -/
  outMem : Memory
  /-- RASTER (R63). -/
  rasterMem : Memory
  /-- Palette 0 of the ROM (42_palette.md R180). -/
  rom0 : Palette
  /-- Palette 1 of the ROM (42_palette.md R180). -/
  rom1 : Palette
  /-- MODEL'S OWN: the moves that come next (43_commands.md R213; log 1). -/
  sched : List Move
  /-- MODEL'S OWN: the value the host's last read returned (log 6). -/
  busData : Word
  /-- MODEL'S OWN: the number of resets asserted, which selects the free contents of unwritten memory (log 7). -/
  epoch : Nat
  /-- MODEL'S OWN: the number of unspecified bytes the host has read (log 7). -/
  draws : Nat
deriving DecidableEq, Repr

/-- Why the machine stops. No instruction and no host access raises one: every host action has a defined effect
(43_commands.md R210). -/
inductive Fault where
  /-- Raised by a sequencer step in a state that no run reaches and for which 40_lzss.md R126 to R128 give no step:
  FETCH with IP past IN_LEN, LITCOPY or REFCOPY with w.CNT = 0. Safe: `State.Inv` of Safety.lean, which holds at
  reset and which every step is to keep, rules these states out (log 10). -/
  | noEnabledStep
deriving DecidableEq, Repr

/-- Why an instruction has no meaning. Nothing raises it: every instruction of the table has its meaning. -/
inductive Refusal where
  /-- An instruction whose meaning is not written; safe. No arm of exec answers it. -/
  | notModelled (mnemonic : String)
deriving DecidableEq, Repr

/-- The state right after reset (10_state.md R49; power-up is the same state, 70_reset_and_hazards.md R271). -/
def State.reset : State where
  status := .idle
  errCode := 0
  errPos := 0
  errExpected := 0
  errAvailable := 0
  inLen := 0
  hdrTag := 0
  width := 0
  height := 0
  outLen := 0
  ip := 0
  palSel := 0
  transp := 0
  palIdx := 0
  palRgb := 0
  inCap := BitVec.ofNat 32 Config.inCapacity
  outCap := BitVec.ofNat 32 Config.outCapacity
  rasterCap := BitVec.ofNat 32 Config.rasterCapacity
  phase := .halt
  wC := 0
  wCnt := 0
  wSrc := 0
  inMem := []
  outMem := []
  rasterMem := []
  rom0 := Config.palette0
  rom1 := Config.palette1
  sched := []
  busData := 0
  epoch := 0
  draws := 0

end Sys2Proof.Machine
end

