-- ==== Sys2Proof/Machine/Ops.lean ====
section
/-! DEFINITION. The shared operations: reading and writing the memories, error entry and the ways out of it, the end
of a command, reset. -/

namespace Sys2Proof.Machine

/-! ## One memory -/

/-- The byte written at an index, if one was. -/
def Memory.read? : Memory → Nat → Option Byte
  | [], _ => none
  | (b, v) :: m, a => if b = a then some v else Memory.read? m a

/-- Write one byte, keeping the addresses strictly rising. -/
def Memory.write : Memory → Nat → Byte → Memory
  | [], a, v => [(a, v)]
  | (b, w) :: m, a, v =>
    if a < b then (a, v) :: (b, w) :: m
    else if a = b then (a, v) :: m
    else (b, w) :: Memory.write m a v

/-- Write a list of bytes at rising indices. -/
def Memory.writeAll : Memory → Nat → List Byte → Memory
  | m, _, [] => m
  | m, a, v :: vs => Memory.writeAll (Memory.write m a v) (a + 1) vs

/-- The canonical form: addresses strictly rising. (What an unlisted index reads as is not a byte but "unwritten", so
no entry can equal it.) -/
abbrev Memory.wf (m : Memory) : Prop := m.Pairwise (fun c d => c.1 < d.1)

/-! ## The three memories -/

/-- The memory of a space. -/
def State.mem (s : State) : Space → Memory
  | .input => s.inMem
  | .output => s.outMem
  | .raster => s.rasterMem

/-- The capacity of a space (00_scope.md R9). -/
def State.capacity (s : State) : Space → Nat
  | .input => s.inCap.toNat
  | .output => s.outCap.toNat
  | .raster => s.rasterCap.toNat

/-- Replace the memory of a space. -/
def State.setMem (s : State) : Space → Memory → State
  | .input, m => { s with inMem := m }
  | .output, m => { s with outMem := m }
  | .raster, m => { s with rasterMem := m }

/-- MemRead(S, a, 1) (00_scope.md R13): the byte a memory holds. An index not written since reset holds an
unspecified byte, the same at every read (20_memory.md R73, R86; log 2). -/
def State.readByte (s : State) (space : Space) (a : Nat) : Byte :=
  ((s.mem space).read? a).getD (Config.unwritten s.epoch space a)

/-- The n bytes from index a on. -/
def State.readBytes (s : State) (space : Space) : Nat → Nat → List Byte
  | _, 0 => []
  | a, n + 1 => s.readByte space a :: s.readBytes space (a + 1) n

/-- Append one byte to the DecodedBuffer: MemWrite(OUT, OUT_LEN, 1, v), then OUT_LEN + 1 (20_memory.md R62). -/
def State.appendOut (s : State) (v : Byte) : State :=
  { s with outMem := s.outMem.write s.outLen.toNat v, outLen := s.outLen + 1#32 }

/-! ## Errors, completion, acceptance, reset -/

/-- STATE = BUSY (10_state.md R23). -/
def State.busy (s : State) : Bool := decide (s.status = .busy)

/-- Saturation to 32 bits (60_exceptions.md R238). -/
def sat32 (v : Nat) : Word := BitVec.ofNat 32 (min v 0xFFFFFFFF)

/-- The code of an error (60_exceptions.md R230). -/
def ErrorKind.code : ErrorKind → BitVec 4
  | .truncatedStream => 1
  | .invalidBackreference => 2
  | .malformedPlanarImage => 3
  | .unknownPalette => 4
  | .outputOverflow => 5
  | .illegalCommand => 6

/-- ERROR ENTRY, shared by every error of the block (60_exceptions.md R234): ERR_* are written, STATE becomes ERROR,
w.PHASE becomes HALT, and nothing else changes. Nothing is saved elsewhere and control goes nowhere. -/
def State.raise (s : State) (e : ErrorReport) : State :=
  { s with
    errCode := e.kind.code
    errPos := sat32 e.pos
    errExpected := sat32 e.expected
    errAvailable := sat32 e.available
    status := .error
    phase := .halt }

/-- `finish` (43_commands.md R198). -/
def State.finish (s : State) : State := { s with status := .done, phase := .halt }

/-- Acceptance of a command (43_commands.md R195), with the phase it starts in. This is also the way out of ERROR
(60_exceptions.md R244): ERR_* are cleared and nothing is restored. -/
def State.accept (s : State) (start : Phase) : State :=
  { s with
    errCode := 0
    errPos := 0
    errExpected := 0
    errAvailable := 0
    status := .busy
    phase := start }

/-- Reset, asserted in any state (70_reset_and_hazards.md R270): every register and working register takes its reset
value, the parameters stay (10_state.md R42, 42_palette.md R181), and the contents of the memories become unspecified
(20_memory.md R86), which a new epoch says (log 9). The host's own side of the model (its moves to come, what it last
read, its count of draws) is not the block's and stays. -/
def State.assertReset (s : State) : State :=
  { State.reset with
    inCap := s.inCap
    outCap := s.outCap
    rasterCap := s.rasterCap
    rom0 := s.rom0
    rom1 := s.rom1
    sched := s.sched
    busData := s.busData
    epoch := s.epoch + 1
    draws := s.draws }

/-- The state with another list of moves to come. -/
def State.withSched (s : State) (moves : List Move) : State := { s with sched := moves }

/-- PAL(s, i) (42_palette.md R184), for a selector 0 or 1 (R182). -/
def State.pal (s : State) (selector : Byte) (i : BitVec 4) : Rgb :=
  if selector = 0#8 then s.rom0[i.toNat]'(i.isLt) else s.rom1[i.toNat]'(i.isLt)

end Sys2Proof.Machine
end

