-- ==== Sys2Proof/Machine/Operands.lean ====
section
/-! DEFINITION. Operand forms: the header's fields, the fields of a BREF, the geometry of an image, the pixel's
colour index. -/

namespace Sys2Proof.Machine

/-- A little-endian 16-bit header field from its two bytes (20_memory.md R67). -/
def le16 (low high : Byte) : BitVec 16 := high ++ low

/-- The little-endian field at index a of IN. -/
def State.headerField (s : State) (a : Nat) : BitVec 16 := le16 (s.readByte .input a) (s.readByte .input (a + 1))

/-- The 16-bit value of a BREF's offset field, control byte first (30_encoding.md R95, 20_memory.md R68). -/
def offsetField (c b1 : Byte) : BitVec 16 := c ++ b1

/-- BREF offset: v - 0x10000 (30_encoding.md R95). -/
def brefOffset (c b1 : Byte) : Int := (offsetField c b1).toNat - 0x10000

/-- BREF distance d = -off (R96). -/
def brefDistance (c b1 : Byte) : Nat := (-brefOffset c b1).toNat

/-- BREF copy length: b2 + 1 (R97). -/
def copyLength (b2 : Byte) : Nat := b2.toNat + 1

/-- BREF source index: OUT_LEN + off, which can be negative (R95). -/
def brefSource (s : State) (c b1 : Byte) : Int := s.outLen.toNat + brefOffset c b1

/-- The bytes of IN from IP to IN_LEN, at most a longest token of them. The sequencer reads no index at or past
IN_LEN (20_memory.md R61). -/
def State.tokenWindow (s : State) : List Byte :=
  s.readBytes .input s.ip.toNat (min longestToken (s.inLen.toNat - s.ip.toNat))

/-- wb = ceil(WIDTH / 8) (41_reconstruct.md R152). -/
def State.widthBytes (s : State) : Nat := (s.width.toNat + 7) / 8

/-- P = wb * HEIGHT, the length of a plane (R152). -/
def State.planeLength (s : State) : Nat := s.widthBytes * s.height.toNat

/-- EXPECTED_LEN = 4 * P (10_state.md R35). -/
def State.expectedLen (s : State) : Nat := 4 * s.planeLength

/-- RASTER_W = 8 * wb (10_state.md R40). -/
def State.rasterW (s : State) : Nat := 8 * s.widthBytes

/-- RASTER_H = 2 * HEIGHT (10_state.md R41). -/
def State.rasterH (s : State) : Nat := 2 * s.height.toNat

/-- The length of the valid image in RASTER (20_memory.md R63). -/
def State.imageLength (s : State) : Nat := 4 * s.rasterW * s.rasterH

/-- The bit of plane k for source pixel (x, y): byte_index, bit_mask 0x80 >> (x mod 8) (41_reconstruct.md R158,
R159). -/
def State.planeBit (s : State) (k x y : Nat) : Bool :=
  let i := x / 8 + y * s.widthBytes
  let m : Byte := 0x80#8 >>> (x % 8)
  decide (s.readByte .output (k * s.planeLength + i) &&& m ≠ 0#8)

/-- The colour index of source pixel (x, y): plane 0 is the least significant bit (R159). -/
def State.colourIndex (s : State) (x y : Nat) : BitVec 4 :=
  BitVec.ofBool (s.planeBit 3 x y) ++ BitVec.ofBool (s.planeBit 2 x y)
    ++ BitVec.ofBool (s.planeBit 1 x y) ++ BitVec.ofBool (s.planeBit 0 x y)

end Sys2Proof.Machine
end

