-- ==== Sys2Proof/Machine/Flags.lean ====
section
/-! DEFINITION. The match flag, the block's only flag (10_state.md R44), the enable bit of TRANSP (R37) and the code
of STATUS (R23). -/

namespace Sys2Proof.Machine

/-- The match flag held in the latched control byte: w.C[7] (10_state.md R44). -/
def State.latchedFlag (s : State) : Bool := matchFlag s.wC

/-- Latch the control byte of the current token (40_lzss.md R126: w.C <- c). This is the only write of the match
flag. -/
def State.latch (s : State) (c : Byte) : State := { s with wC := c }

/-- TRANSP.EN (10_state.md R37). -/
def State.transpEnabled (s : State) : Bool := s.transp.getLsbD 8

/-- TRANSP.IDX (10_state.md R37). -/
def State.transpIndex (s : State) : Byte := s.transp.extractLsb' 0 8

/-- The code of STATUS.STATE (10_state.md R23). -/
def Status.code : Status → BitVec 2
  | .idle => 0
  | .busy => 1
  | .done => 2
  | .error => 3

end Sys2Proof.Machine
end

