-- ==== Sys2Proof/Machine/Command.lean ====
section
/-! DEFINITION. The illegal command (43_commands.md R197). -/

namespace Sys2Proof.Machine

/-- A CMD write of a word that is no command (R197): no effect while BUSY (R196), else the error ILLEGAL_COMMAND at
once, with no sequencer step. -/
def illegalCommand (word : Word) (s : State) : State :=
  if s.busy then s else s.raise ⟨.illegalCommand, 0, 3, word.toNat⟩

/-- ILLEGAL_COMMAND (R197). -/
def execIllegalCommand (word : Word) (s : State) : Host.Outcome State Fault Refusal := .next (illegalCommand word s)

end Sys2Proof.Machine
end

