-- ==== Sys2Proof/Machine/Lzss.lean ====
section
/-! DEFINITION. The LZSS decompressor: the tokens LIT and BREF and the command DECOMPRESS at the granularity of
tokens (40_lzss.md sections 1 and 2), and the atomic steps of the sequencer's state machine (section 3). The errors
of a token are decided by one definition, which both use (R124). -/

namespace Sys2Proof.Machine

/-! ## The checks of a token -/

/-- The bytes that remain after the control byte: IN_LEN - (IP + 1) (R116, R119). -/
def State.availableAfterControl (s : State) : Nat := s.inLen.toNat - (s.ip.toNat + 1)

/-- OUTPUT_OVERFLOW of a token of n output bytes (R117, R121). -/
def overflowError (n : Nat) (s : State) : Option ErrorReport :=
  if s.outLen.toNat + n > s.outCap.toNat then
    some ⟨.outputOverflow, s.ip.toNat, n, s.outCap.toNat - s.outLen.toNat⟩
  else none

/-- The checks of LIT: R116, then R117. -/
def litError (n : Nat) (s : State) : Option ErrorReport :=
  if s.availableAfterControl < n then
    some ⟨.truncatedStream, s.ip.toNat, n, s.availableAfterControl⟩
  else overflowError n s

/-- The checks of BREF: R119, then R120, then R121. -/
def brefError (c b1 b2 : Byte) (s : State) : Option ErrorReport :=
  if s.availableAfterControl < 2 then
    some ⟨.truncatedStream, s.ip.toNat, 2, s.availableAfterControl⟩
  else if brefSource s c b1 < 0 ∨ brefSource s c b1 ≥ s.outLen.toNat then
    some ⟨.invalidBackreference, s.ip.toNat, brefDistance c b1, s.outLen.toNat⟩
  else overflowError (copyLength b2) s

/-- A token whose control byte claims more bytes than remain: the control byte is latched and TRUNCATED_STREAM is
raised with the claim and what remains (R116, R119, R126). -/
def truncatedToken (expected available : Nat) (s : State) : State :=
  (s.latch (s.readByte .input s.ip.toNat)).raise ⟨.truncatedStream, s.ip.toNat, expected, available⟩

/-! ## Updates of the cursors and the working registers -/

/-- IP advances by n (10_state.md R24). -/
def State.advance (s : State) (n : Nat) : State := { s with ip := s.ip + BitVec.ofNat 32 n }

/-- w.SRC <- src. -/
def State.setSrc (s : State) (src : Nat) : State := { s with wSrc := BitVec.ofNat 32 src }

/-- w.CNT <- n, and the copy phase is entered (40_lzss.md R126). -/
def State.beginCopy (s : State) (n : Nat) (p : Phase) : State := { s with wCnt := BitVec.ofNat 9 n, phase := p }

/-- The end of a token: nothing is left to copy, and the sequencer is at a token boundary (10_state.md R45). -/
def State.endToken (s : State) : State := { s with wCnt := 0#9, phase := .fetch }

/-- The end of a copy step: w.CNT - 1, and back to FETCH when it reaches 0 (40_lzss.md R127, R128). -/
def State.countDown (s : State) : State :=
  { s with wCnt := s.wCnt - 1#9, phase := if s.wCnt - 1#9 = 0#9 then .fetch else s.phase }

/-- w.SRC + 1 (R128). -/
def State.nextSrc (s : State) : State := { s with wSrc := s.wSrc + 1#32 }

/-- A run of bytes appended to the DecodedBuffer at once (40_lzss.md R115). -/
def State.appendRun (s : State) (bytes : List Byte) : State :=
  { s with
    outMem := s.outMem.writeAll s.outLen.toNat bytes
    outLen := s.outLen + BitVec.ofNat 32 bytes.length }

/-! ## Tokens -/

/-- LIT (R115): the run is copied to OUT and both cursors advance. The working registers end as the steps of R126
and R127 leave them (log 13). -/
def litToken (bytes : List Byte) (s : State) : State :=
  let s := s.latch (litControl bytes.length)
  match litError bytes.length s with
  | some e => s.raise e
  | none => ((s.appendRun bytes).advance (1 + bytes.length)).endToken

/-- The copy of BREF (R118, R122): n times, one byte of OUT is read at src and appended, and src advances. Each byte
is in OUT before the next is read (20_memory.md R79). -/
def copyLoop : Nat → Nat → State → State
  | 0, _, s => s
  | n + 1, src, s => copyLoop n (src + 1) (s.appendOut (s.readByte .output src))

/-- BREF (R118). -/
def brefToken (high : BitVec 7) (b1 b2 : Byte) (s : State) : State :=
  let c := brefControl high
  let s := s.latch c
  match brefError c b1 b2 s with
  | some e => s.raise e
  | none =>
    let src := (brefSource s c b1).toNat
    (((copyLoop (copyLength b2) src s).advance 3).setSrc (src + copyLength b2)).endToken

/-- What a decoded token does. `decodeToken` answers no command, so the last four arms are never taken. -/
def tokenEffect (i : Instr) (s : State) : State :=
  match i with
  | .lit bytes => litToken bytes s
  | .bref high low len => brefToken high low len s
  | .decompress => s
  | .reconstruct => s
  | .paletteRead => s
  | .illegalCommand _ => s

/-- The token at IP, run whole (the body of R110's loop). -/
def runToken (s : State) : State :=
  match decodeToken s.tokenWindow with
  | .token i _ => tokenEffect i s
  | .truncated expected available => truncatedToken expected available s
  | .empty => s

/-! ## DECOMPRESS -/

/-- The HDR step (R125): OUT_LEN and IP are cleared, then the header is parsed, or TRUNCATED_STREAM is raised with
the header registers unchanged (R111 to R113). -/
def headerStep (s : State) : State :=
  let s := { s with outLen := 0#32, ip := 0#32 }
  if s.inLen.toNat < 6 then s.raise ⟨.truncatedStream, 0, 6, s.inLen.toNat⟩
  else
    { s with
      hdrTag := s.headerField 0
      width := s.headerField 2
      height := s.headerField 4
      ip := 6#32
      phase := .fetch }

/-- The token loop of R110: tokens run while IP < IN_LEN, then the command finishes (R114, R131). An error leaves it
(w.PHASE is HALT). Every token consumes input (R130), so IN_LEN turns are enough. -/
def tokenLoop : Nat → State → State
  | 0, s => s
  | fuel + 1, s =>
    if s.phase ≠ .fetch then s
    else if s.inLen.toNat ≤ s.ip.toNat then s.finish
    else tokenLoop fuel (runToken s)

/-- DECOMPRESS from its first step to its end (R110). -/
def decompress (s : State) : State := tokenLoop s.inLen.toNat (headerStep s)

/-! ## Atomic steps -/

/-- The LIT branch of the FETCH step (R126). -/
def litBegin (bytes : List Byte) (s : State) : State :=
  let s := s.latch (litControl bytes.length)
  match litError bytes.length s with
  | some e => s.raise e
  | none => (s.advance 1).beginCopy bytes.length .litcopy

/-- The BREF branch of the FETCH step (R126). -/
def brefBegin (high : BitVec 7) (b1 b2 : Byte) (s : State) : State :=
  let c := brefControl high
  let s := s.latch c
  match brefError c b1 b2 s with
  | some e => s.raise e
  | none => ((s.advance 3).setSrc (brefSource s c b1).toNat).beginCopy (copyLength b2) .refcopy

/-- The FETCH step of a decoded token. As in `tokenEffect`, no command is ever decoded from IN. -/
def beginToken (i : Instr) (s : State) : State :=
  match i with
  | .lit bytes => litBegin bytes s
  | .bref high low len => brefBegin high low len s
  | .decompress => s
  | .reconstruct => s
  | .paletteRead => s
  | .illegalCommand _ => s

/-- The LITCOPY step (R127). -/
def litCopyStep (s : State) : State :=
  ((s.appendOut (s.readByte .input s.ip.toNat)).advance 1).countDown

/-- The REFCOPY step, the copy engine (R128). -/
def refCopyStep (s : State) : State :=
  (s.appendOut (s.readByte .output s.wSrc.toNat)).nextSrc.countDown

/-! ## Meanings -/

/-- LIT (R115). -/
def execLit (bytes : List Byte) (s : State) : Host.Outcome State Fault Refusal := .next (litToken bytes s)

/-- BREF (R118). -/
def execBref (high : BitVec 7) (low len : Byte) (s : State) : Host.Outcome State Fault Refusal :=
  .next (brefToken high low len s)

/-- DECOMPRESS (R110). -/
def execDecompress (s : State) : Host.Outcome State Fault Refusal := .next (decompress s)

end Sys2Proof.Machine
end

