-- ==== Sys2Proof/Machine/Palette.lean ====
section
/-! DEFINITION. The palette unit: the check of the selector and PALETTE_READ (42_palette.md). -/

namespace Sys2Proof.Machine

/-- UNKNOWN_PALETTE (42_palette.md R183). -/
def paletteError (s : State) : Option ErrorReport :=
  if 2 ≤ s.palSel.toNat then some ⟨.unknownPalette, 0, 2, s.palSel.toNat⟩ else none

/-- An entry as PAL_RGB holds it: R in bits 23 to 16, G in 15 to 8, B in 7 to 0 (10_state.md R39). -/
def packRgb (p : Rgb) : BitVec 24 := p.r ++ p.g ++ p.b

/-- PALETTE_READ, one sequencer step (42_palette.md R185). -/
def paletteRead (s : State) : State :=
  match paletteError s with
  | some e => s.raise e
  | none => State.finish { s with palRgb := packRgb (s.pal s.palSel s.palIdx) }

/-- PALETTE_READ (R185). -/
def execPaletteRead (s : State) : Host.Outcome State Fault Refusal := .next (paletteRead s)

end Sys2Proof.Machine
end

