-- ==== Sys2Proof/Machine/Reconstruct.lean ====
section
/-! DEFINITION. The planar bitmap reconstructor: RECONSTRUCT (41_reconstruct.md). -/

namespace Sys2Proof.Machine

/-- The four bytes of source pixel (x, y) in raster order R, G, B, A: transparent (R160) or opaque (R161). -/
def State.pixel (s : State) (x y : Nat) : List Byte :=
  let idx := s.colourIndex x y
  if s.transpEnabled ∧ idx.setWidth 8 = s.transpIndex then [0#8, 0#8, 0#8, 0#8]
  else
    let p := s.pal s.palSel idx
    [p.r, p.g, p.b, 255#8]

/-- The RASTER index of raster pixel (X, Y) (R163). -/
def State.pixelAddress (s : State) (x y : Nat) : Nat := 4 * (y * s.rasterW + x)

/-- Source pixel (x, y) written to its two raster rows (R162). -/
def State.writePixel (s : State) (y : Nat) (m : Memory) (x : Nat) : Memory :=
  (m.writeAll (s.pixelAddress x (2 * y)) (s.pixel x y)).writeAll (s.pixelAddress x (2 * y + 1)) (s.pixel x y)

/-- Source row y. -/
def State.writeRow (s : State) (m : Memory) (y : Nat) : Memory :=
  (List.range s.rasterW).foldl (s.writePixel y) m

/-- The whole image, row by row, pixel by pixel (R164). -/
def State.writeImage (s : State) : Memory := (List.range s.height.toNat).foldl s.writeRow s.rasterMem

/-- The checks of RECONSTRUCT, in the order of R156: R154, R153, R155. -/
def reconstructError (s : State) : Option ErrorReport :=
  match paletteError s with
  | some e => some e
  | none =>
    if s.outLen.toNat ≠ s.expectedLen then some ⟨.malformedPlanarImage, 0, s.expectedLen, s.outLen.toNat⟩
    else if s.imageLength > s.rasterCap.toNat then some ⟨.outputOverflow, 0, s.imageLength, s.rasterCap.toNat⟩
    else none

/-- RECONSTRUCT, one sequencer step (R164, R166). -/
def reconstruct (s : State) : State :=
  match reconstructError s with
  | some e => s.raise e
  | none => State.finish { s with rasterMem := s.writeImage }

/-- RECONSTRUCT (R164). -/
def execReconstruct (s : State) : Host.Outcome State Fault Refusal := .next (reconstruct s)

end Sys2Proof.Machine
end

