-- ==== Sys2Proof/Machine/Dispatch.lean ====
section
/-! DEFINITION. One arm for each instruction. -/

namespace Sys2Proof.Machine

def exec (i : Instr) (s : State) : Host.Outcome State Fault Refusal :=
  match i with
  | .lit bytes => Sys2Proof.Machine.execLit bytes s
  | .bref high low len => Sys2Proof.Machine.execBref high low len s
  | .decompress => Sys2Proof.Machine.execDecompress s
  | .reconstruct => Sys2Proof.Machine.execReconstruct s
  | .paletteRead => Sys2Proof.Machine.execPaletteRead s
  | .illegalCommand word => Sys2Proof.Machine.execIllegalCommand word s

end Sys2Proof.Machine
end

