-- ==== Sys2Proof/Machine/Registers.lean ====
section
/-! DEFINITION. The host-visible registers (10_state.md R21) and the host's reads and writes of them (R22,
43_commands.md R195 to R204). -/

namespace Sys2Proof.Machine

/-- The 22 registers of R21. -/
inductive Reg where
  | cmd
  | status
  | errCode
  | errPos
  | errExpected
  | errAvailable
  | inLen
  | hdrTag
  | width
  | height
  | expectedLen
  | outLen
  | ip
  | palSel
  | transp
  | palIdx
  | palRgb
  | rasterW
  | rasterH
  | inCap
  | outCap
  | rasterCap
deriving DecidableEq, Repr

/-- The access codes of R21. -/
inductive Access where
  | rw
  | r
  | w
  | d
deriving DecidableEq, Repr

/-- The registers in the order of their offsets. -/
def Reg.all : List Reg :=
  [.cmd, .status, .errCode, .errPos, .errExpected, .errAvailable, .inLen, .hdrTag, .width, .height, .expectedLen,
   .outLen, .ip, .palSel, .transp, .palIdx, .palRgb, .rasterW, .rasterH, .inCap, .outCap, .rasterCap]

/-- Byte offset in the REG space (R21). -/
def Reg.offset : Reg → Word
  | .cmd => 0x00
  | .status => 0x04
  | .errCode => 0x08
  | .errPos => 0x0C
  | .errExpected => 0x10
  | .errAvailable => 0x14
  | .inLen => 0x18
  | .hdrTag => 0x1C
  | .width => 0x20
  | .height => 0x24
  | .expectedLen => 0x28
  | .outLen => 0x2C
  | .ip => 0x30
  | .palSel => 0x34
  | .transp => 0x38
  | .palIdx => 0x3C
  | .palRgb => 0x40
  | .rasterW => 0x44
  | .rasterH => 0x48
  | .inCap => 0x4C
  | .outCap => 0x50
  | .rasterCap => 0x54

/-- The number of low bits used (R21); the bits above them read as 0 (R22). -/
def Reg.usedWidth : Reg → Nat
  | .cmd => 32
  | .status => 2
  | .errCode => 4
  | .errPos => 32
  | .errExpected => 32
  | .errAvailable => 32
  | .inLen => 32
  | .hdrTag => 16
  | .width => 16
  | .height => 16
  | .expectedLen => 32
  | .outLen => 32
  | .ip => 32
  | .palSel => 8
  | .transp => 9
  | .palIdx => 4
  | .palRgb => 24
  | .rasterW => 17
  | .rasterH => 17
  | .inCap => 32
  | .outCap => 32
  | .rasterCap => 32

/-- Access code (R21). -/
def Reg.access : Reg → Access
  | .cmd => .w
  | .status => .r
  | .errCode => .r
  | .errPos => .r
  | .errExpected => .r
  | .errAvailable => .r
  | .inLen => .rw
  | .hdrTag => .r
  | .width => .rw
  | .height => .rw
  | .expectedLen => .d
  | .outLen => .rw
  | .ip => .r
  | .palSel => .rw
  | .transp => .rw
  | .palIdx => .rw
  | .palRgb => .r
  | .rasterW => .d
  | .rasterH => .d
  | .inCap => .r
  | .outCap => .r
  | .rasterCap => .r

/-- The register at an offset, if the table of R21 has one there. -/
def Reg.atOffset (offset : Word) : Option Reg := Reg.all.find? (fun r => r.offset = offset)

/-- The value of a register, its unused high bits 0 (R22). CMD reads 0 (R26). -/
def State.readReg (s : State) : Reg → Word
  | .cmd => 0
  | .status => s.status.code.setWidth 32
  | .errCode => s.errCode.setWidth 32
  | .errPos => s.errPos
  | .errExpected => s.errExpected
  | .errAvailable => s.errAvailable
  | .inLen => s.inLen
  | .hdrTag => s.hdrTag.setWidth 32
  | .width => s.width.setWidth 32
  | .height => s.height.setWidth 32
  | .expectedLen => BitVec.ofNat 32 s.expectedLen
  | .outLen => s.outLen
  | .ip => s.ip
  | .palSel => s.palSel.setWidth 32
  | .transp => s.transp.setWidth 32
  | .palIdx => s.palIdx.setWidth 32
  | .palRgb => s.palRgb.setWidth 32
  | .rasterW => BitVec.ofNat 32 s.rasterW
  | .rasterH => BitVec.ofNat 32 s.rasterH
  | .inCap => s.inCap
  | .outCap => s.outCap
  | .rasterCap => s.rasterCap

/-- What a host read of REG returns: 0 for an access that is not 32 bits wide or whose offset is no register's (R22,
20_memory.md R71). -/
def State.hostRegValue (s : State) (offset : Word) (bytes : Nat) : Word :=
  if bytes = 4 then
    match Reg.atOffset offset with
    | some r => s.readReg r
    | none => 0
  else 0

/-- A write of an RW register while not BUSY: the used low bits are stored (R201), and a length above its capacity is
ignored (R202, R203). A write of any other register stores nothing (R22). -/
def State.storeReg (s : State) (r : Reg) (v : Word) : State :=
  match r with
  | .inLen => if v.toNat > s.inCap.toNat then s else { s with inLen := v }
  | .width => { s with width := v.setWidth 16 }
  | .height => { s with height := v.setWidth 16 }
  | .outLen => if v.toNat > s.outCap.toNat then s else { s with outLen := v }
  | .palSel => { s with palSel := v.setWidth 8 }
  | .transp => { s with transp := v.setWidth 9 }
  | .palIdx => { s with palIdx := v.setWidth 4 }
  | .cmd => s
  | .status => s
  | .errCode => s
  | .errPos => s
  | .errExpected => s
  | .errAvailable => s
  | .hdrTag => s
  | .expectedLen => s
  | .ip => s
  | .palRgb => s
  | .rasterW => s
  | .rasterH => s
  | .inCap => s
  | .outCap => s
  | .rasterCap => s

/-- The phase an accepted command starts in (43_commands.md R195). -/
def startPhase : Instr → Phase
  | .decompress => .hdr
  | .reconstruct => .recon
  | .paletteRead => .palrd
  | .lit _ => .halt
  | .bref _ _ _ => .halt
  | .illegalCommand _ => .halt

/-- A CMD write while not BUSY: the three commands are accepted (R195), any other word is the illegal command
(R197). The words of CMD decode to no token. -/
def commandWrite (w : Word) (s : State) : Host.Outcome State Fault Refusal :=
  match decodeCommand w with
  | .decompress => .next (s.accept (startPhase .decompress))
  | .reconstruct => .next (s.accept (startPhase .reconstruct))
  | .paletteRead => .next (s.accept (startPhase .paletteRead))
  | .illegalCommand word => exec (.illegalCommand word) s
  | .lit _ => .next s
  | .bref _ _ _ => .next s

/-- A host write to REG: no effect while BUSY (R196, R200), and none unless it is 32 bits wide at a register's
offset (R22). -/
def hostRegWrite (offset : Word) (bytes : Nat) (v : Word) (s : State) : Host.Outcome State Fault Refusal :=
  if s.busy then .next s
  else if bytes = 4 then
    match Reg.atOffset offset with
    | some .cmd => commandWrite v s
    | some r => .next (s.storeReg r v)
    | none => .next s
  else .next s

end Sys2Proof.Machine
end

