-- ==== Sys2Proof/Machine/Sequencer.lean ====
section
/-! DEFINITION. The sequencer: its atomic steps (40_lzss.md R125 to R128, 41_reconstruct.md R166, 42_palette.md
R185), and the run of one instruction to its end when no host access stands between its steps (log 12). -/

namespace Sys2Proof.Machine

/-- The FETCH step (40_lzss.md R126): at the end of the input the command finishes (R131), else the token at IP is
begun, or found truncated. -/
def fetchStep (s : State) : Host.Outcome State Fault Refusal :=
  if s.ip.toNat = s.inLen.toNat then .next s.finish
  else
    match decodeToken s.tokenWindow with
    | .token i _ => .next (beginToken i s)
    | .truncated expected available => .next (truncatedToken expected available s)
    | .empty => .fault .noEnabledStep

/-- One atomic step of the sequencer: the one that w.PHASE enables (43_commands.md R208). In HALT none is enabled and
the state stays (R207; log 21). -/
def tick (s : State) : Host.Outcome State Fault Refusal :=
  match s.phase with
  | .halt => .next s
  | .hdr => .next (headerStep s)
  | .fetch => fetchStep s
  | .litcopy => if s.wCnt = 0#9 then .fault .noEnabledStep else .next (litCopyStep s)
  | .refcopy => if s.wCnt = 0#9 then .fault .noEnabledStep else .next (refCopyStep s)
  | .recon => exec .reconstruct s
  | .palrd => exec .paletteRead s

/-- The token at IP as an instruction: decoded, then executed whole (40_lzss.md R110's loop body). -/
def fetchAndExec (s : State) : Host.Outcome State Fault Refusal :=
  if s.ip.toNat = s.inLen.toNat then .next s.finish
  else
    match decodeToken s.tokenWindow with
    | .token i _ => exec i s
    | .truncated expected available => .next (truncatedToken expected available s)
    | .empty => .fault .noEnabledStep

/-- The sequencer when no host access comes between its steps: it runs the instruction it is at to the instruction's
end (40_lzss.md R129 says that the atomic steps give the same). In the middle of a token's copy it takes the next copy
step. -/
def runInstr (s : State) : Host.Outcome State Fault Refusal :=
  match s.phase with
  | .hdr => exec .decompress s
  | .fetch => fetchAndExec s
  | .halt => tick s
  | .litcopy => tick s
  | .refcopy => tick s
  | .recon => tick s
  | .palrd => tick s

/-- A list of tokens executed one after the other, then the end of the command; an error ends it early (the loop of
40_lzss.md R110 over tokens already decoded). -/
def execTokens : List Instr → State → Host.Outcome State Fault Refusal
  | [], s => .next s.finish
  | i :: rest, s =>
    match exec i s with
    | .next t => if t.phase = .halt then .next t else execTokens rest t
    | .fault r => .fault r
    | .refused r => .refused r

/-- n atomic steps of the sequencer, with no host access between them. -/
def ticks : Nat → State → Host.Outcome State Fault Refusal
  | 0, s => .next s
  | n + 1, s =>
    match tick s with
    | .next t => ticks n t
    | .fault r => .fault r
    | .refused r => .refused r

end Sys2Proof.Machine
end

