-- ==== Sys2Proof/Machine/HostAccess.lean ====
section
/-! DEFINITION. The host's accesses to the memories (43_commands.md R205, 20_memory.md R74, R75), the moves of either
agent (R213), and the host's sequences of 70_reset_and_hazards.md section 2. -/

namespace Sys2Proof.Machine

/-- The byte a host read is sure to return; none where R74 and R205 make it an unspecified byte. -/
def State.hostByte? (s : State) (space : Space) (a : Nat) : Option Byte :=
  match space with
  | .input => if a < s.inLen.toNat ∧ a < s.inCap.toNat then s.inMem.read? a else none
  | .output =>
    if s.busy = false ∧ a < s.outLen.toNat ∧ a < s.outCap.toNat then s.outMem.read? a else none
  | .raster =>
    if s.busy = false ∧ a < s.imageLength ∧ a < s.rasterCap.toNat then s.rasterMem.read? a else none

/-- A host read of one memory byte: the byte stored, or a fresh free value (R74; log 3). -/
def hostMemRead (space : Space) (a : Nat) (s : State) : State :=
  match s.hostByte? space a with
  | some v => { s with busData := v.setWidth 32 }
  | none => { s with busData := (Config.draw s.draws).setWidth 32, draws := s.draws + 1 }

/-- A host write of one memory byte: dropped while BUSY (20_memory.md R75), at or beyond the capacity, and always for
RASTER (R63). -/
def hostMemWrite (space : Space) (a : Nat) (v : Byte) (s : State) : State :=
  if s.busy then s
  else
    match space with
    | .input => if a < s.inCap.toNat then { s with inMem := s.inMem.write a v } else s
    | .output => if a < s.outCap.toNat then { s with outMem := s.outMem.write a v } else s
    | .raster => s

/-- Whether a move is a host write, of REG or of a memory (43_commands.md R210). -/
def Move.isHostWrite : Move → Bool
  | .tick => false
  | .regWrite _ _ _ => true
  | .regRead _ _ => false
  | .memWrite _ _ _ => true
  | .memRead _ _ => false
  | .reset => false

/-- One move of either agent (43_commands.md R210, R213). -/
def doMove (m : Move) (s : State) : Host.Outcome State Fault Refusal :=
  match m with
  | .tick => tick s
  | .regWrite offset bytes v => hostRegWrite offset bytes v s
  | .regRead offset bytes => .next { s with busData := s.hostRegValue offset bytes }
  | .memWrite space a v => .next (hostMemWrite space a.toNat v s)
  | .memRead space a => .next (hostMemRead space a.toNat s)
  | .reset => .next s.assertReset

/-- A 32-bit write of a register. -/
def Move.writeReg (r : Reg) (v : Word) : Move := .regWrite r.offset 4 v

/-- A 32-bit read of a register. -/
def Move.readReg (r : Reg) : Move := .regRead r.offset 4

/-- Write bytes into a memory at rising indices. -/
def Move.writeBytes (space : Space) : Nat → List Byte → List Move
  | _, [] => []
  | a, v :: vs => .memWrite space (BitVec.ofNat 32 a) v :: Move.writeBytes space (a + 1) vs

/-- Load a file (70_reset_and_hazards.md R274, steps 2 and 3). -/
def Move.loadFile (file : List Byte) : List Move :=
  Move.writeBytes .input 0 file ++ [Move.writeReg .inLen (BitVec.ofNat 32 file.length)]

/-- Start DECOMPRESS (R274, step 4). -/
def Move.startDecompress : Move := Move.writeReg .cmd 1#32

/-- Set PAL_SEL and TRANSP and start RECONSTRUCT (R274, steps 7 and 8). -/
def Move.startReconstruct (palSel transp : Word) : List Move :=
  [Move.writeReg .palSel palSel, Move.writeReg .transp transp, Move.writeReg .cmd 2#32]

/-- Supply a buffer and its size (R275). -/
def Move.supplyBuffer (buffer : List Byte) (width height : Word) : List Move :=
  Move.writeBytes .output 0 buffer
    ++ [Move.writeReg .outLen (BitVec.ofNat 32 buffer.length), Move.writeReg .width width, Move.writeReg .height height]

/-- Read a palette entry (R276), up to the start of the command. -/
def Move.startPaletteRead (palSel palIdx : Word) : List Move :=
  [Move.writeReg .palSel palSel, Move.writeReg .palIdx palIdx, Move.writeReg .cmd 3#32]

end Sys2Proof.Machine
end

