-- ==== Sys2Proof/Machine/Step.lean ====
section
/-! DEFINITION. One step of the machine, and how the opcode table's words are placed for it to run. -/

namespace Sys2Proof.Machine

/-- One step. While State.sched lists a move it is taken off the list and made: one atomic move of either agent
(43_commands.md R213). With no move listed the sequencer runs the instruction it is at (log 1, 12). -/
def step (s : State) : Host.Outcome State Fault Refusal :=
  match s.sched with
  | [] => runInstr s
  | m :: rest => doMove m (s.withSched rest)

/-- A token of the opcode table placed where the sequencer fetches: at IN[6..], the first payload byte (40_lzss.md
R113), with the block in DECOMPRESS at a token boundary and no host access to come (log 14). -/
def State.withToken (s : State) (nbits w : Nat) : State :=
  { s with
    inMem := s.inMem.writeAll 6 (tableBytes nbits w)
    inLen := BitVec.ofNat 32 (6 + (tableBytes nbits w).length)
    ip := 6#32
    status := .busy
    phase := .fetch
    sched := [] }

/-- A command word of the opcode table placed where it runs next: a command is already accepted (43_commands.md R195),
an illegal word is the host's next CMD write (log 14). -/
def State.withCommand (s : State) (w : Word) : State :=
  match decodeCommand w with
  | .decompress => (s.accept .hdr).withSched []
  | .reconstruct => (s.accept .recon).withSched []
  | .paletteRead => (s.accept .palrd).withSched []
  | .illegalCommand word => (if s.busy then s.finish else s).withSched [Move.writeReg .cmd word]
  | .lit _ => s
  | .bref _ _ _ => s

/-- The state in which the very next step runs the opcode table's instruction w of nbits bits. -/
def State.withFetchWord (s : State) (nbits w : Nat) : State :=
  if nbits = 32 ∨ nbits = 0 then s.withCommand (BitVec.ofNat 32 (w % 2 ^ nbits)) else s.withToken nbits w

end Sys2Proof.Machine
end

