-- ==== Sys2Proof/Machine/Platform.lean ====
section
/-! DEFINITION. What the platform adds around the block: the bases of the four host-visible spaces (20_memory.md R76)
and the order of a register's bytes on the host bus (R70). No rule of the block depends on either (log 19). -/

namespace Sys2Proof.Machine

/-- The host address of a byte of a memory (20_memory.md R76). -/
def memAddress (space : Space) (index : Word) : Nat :=
  match space with
  | .input => Config.inBase + index.toNat
  | .output => Config.outBase + index.toNat
  | .raster => Config.rasterBase + index.toNat

/-- The host address of a register (20_memory.md R76). -/
def regAddress (r : Reg) : Nat := Config.regBase + r.offset.toNat

/-- A register's value as the host bus lays its four bytes out in host memory (20_memory.md R70). -/
def busBytes (v : Word) : List Byte :=
  if Config.hostBusLittleEndian then leBytes 4 v.toNat else (leBytes 4 v.toNat).reverse

end Sys2Proof.Machine
end

