-- ==== Sys2Proof/Machine/Ring.lean ====
section
/-! DEFINITION. The copy engine with its history in a ring buffer, which 20_memory.md R66 allows as an invisible
implementation. It is no part of the machine's step (R65): what is stated of it is that a ring of at least 32768 bytes
changes nothing, and that a smaller ring does (log 23). -/

namespace Sys2Proof.Machine

/-- What slot r of a ring of size bytes holds after the first n bytes of OUT have each been written to slot
(index mod size), or nothing if none went there (R66). -/
def State.ringSlot (s : State) (size r : Nat) : Nat → Option Byte
  | 0 => none
  | n + 1 => if n % size = r then some (s.readByte .output n) else s.ringSlot size r n

/-- The byte the copy engine reads from the ring in place of OUT[a] (R66). A slot nothing went to holds an unspecified
byte. -/
def State.ringByte (s : State) (size a : Nat) : Byte :=
  (s.ringSlot size (a % size) s.outLen.toNat).getD (Config.unwritten s.epoch .output a)

/-- The REFCOPY step (40_lzss.md R128) with its read taken from the ring. -/
def ringCopyStep (size : Nat) (s : State) : State :=
  (s.appendOut (s.ringByte size s.wSrc.toNat)).nextSrc.countDown

end Sys2Proof.Machine
end

