-- ==== Sys2Proof/Safety.lean ====
section
/-! DEFINITION. The invariant of the machine, the launch predicates of 70_reset_and_hazards.md R271, and what a safe
run is. -/

namespace Sys2Proof.Machine

/-- DECOMPRESS is among its tokens: FETCH, LITCOPY or REFCOPY (10_state.md R45). -/
def State.inTokens (s : State) : Prop := s.phase = .fetch ∨ s.phase = .litcopy ∨ s.phase = .refcopy

/-- Every index a memory lists is below a bound. -/
def Memory.below (m : Memory) (bound : Nat) : Prop := ∀ cell ∈ m, cell.1 < bound

/-- What every state of a run meets. -/
structure State.Inv (s : State) : Prop where
  /-- STATE = BUSY exactly when w.PHASE is not HALT (10_state.md R45). -/
  busy_iff : s.status = .busy ↔ s.phase ≠ .halt
  /-- The parameters keep their ranges (00_scope.md R9). -/
  inCap_ge : 6 ≤ s.inCap.toNat
  outCap_ge : 1 ≤ s.outCap.toNat
  rasterCap_ge : 8 ≤ s.rasterCap.toNat
  /-- IN_LEN never exceeds IN_CAPACITY (10_state.md R31, 43_commands.md R202). -/
  inLen_le : s.inLen.toNat ≤ s.inCap.toNat
  /-- "OUT_LEN <= OUT_CAPACITY at all times" (10_state.md R25). -/
  outLen_le : s.outLen.toNat ≤ s.outCap.toNat
  /-- The memories keep their canonical form and lie below their capacities (20_memory.md R60). -/
  inMem_wf : s.inMem.wf
  outMem_wf : s.outMem.wf
  rasterMem_wf : s.rasterMem.wf
  inMem_below : s.inMem.below s.inCap.toNat
  outMem_below : s.outMem.below s.outCap.toNat
  rasterMem_below : s.rasterMem.below s.rasterCap.toNat
  /-- ERR_* are 0 unless STATE is ERROR (10_state.md R27 to R30). -/
  noError : s.status ≠ .error → s.errCode = 0 ∧ s.errPos = 0 ∧ s.errExpected = 0 ∧ s.errAvailable = 0
  /-- In ERROR the code is one of 1 to 6 (60_exceptions.md R230: codes 7 to 15 are never written). -/
  errorCode : s.status = .error → 1 ≤ s.errCode.toNat ∧ s.errCode.toNat ≤ 6
  /-- IP is a payload index, never past IN_LEN, while tokens run (10_state.md R24, 40_lzss.md R114). -/
  cursor : s.inTokens → 6 ≤ s.ip.toNat ∧ s.ip.toNat ≤ s.inLen.toNat
  /-- Every byte of OUT[0..OUT_LEN) has been written while tokens run (40_lzss.md R123). -/
  produced : s.inTokens → ∀ a, a < s.outLen.toNat → (s.outMem.read? a).isSome = true
  /-- In LITCOPY the match flag is 0, the bytes still to copy are there, and OUT has room for them (R116, R117,
  R127). -/
  litcopy : s.phase = .litcopy →
    s.latchedFlag = false ∧ 1 ≤ s.wCnt.toNat ∧ s.wCnt.toNat ≤ 128 ∧
      s.ip.toNat + s.wCnt.toNat ≤ s.inLen.toNat ∧ s.outLen.toNat + s.wCnt.toNat ≤ s.outCap.toNat
  /-- In REFCOPY the match flag is 1, w.SRC is below OUT_LEN by at most 32768 (20_memory.md R65, 40_lzss.md R128), and
  OUT has room. -/
  refcopy : s.phase = .refcopy →
    s.latchedFlag = true ∧ 1 ≤ s.wCnt.toNat ∧ s.wCnt.toNat ≤ 256 ∧
      s.wSrc.toNat < s.outLen.toNat ∧ s.outLen.toNat ≤ s.wSrc.toNat + 32768 ∧
      s.outLen.toNat + s.wCnt.toNat ≤ s.outCap.toNat

/-- CleanIdle (70_reset_and_hazards.md R271): no command runs and no host write is pending. A pending write is one that
State.sched lists (log 27); a read, a tick or a reset to come is none. -/
def CleanIdle (s : State) : Prop :=
  s.status ≠ .busy ∧ s.phase = .halt ∧ ∀ m ∈ s.sched, m.isHostWrite = false

/-- Loaded(F) (R271): CleanIdle, IN_LEN = |F| and IN[0..|F|) = F. IN[k] is the byte the sequencer reads there
(00_scope.md R13), whether or not it has been written since reset (log 28). -/
def Loaded (file : List Byte) (s : State) : Prop :=
  CleanIdle s ∧ s.inLen.toNat = file.length ∧ ∀ k (h : k < file.length), s.readByte .input k = file[k]

/-- A safe step: it is no fault and no refusal. -/
def StepSafe (s : State) : Prop := ∃ t, step s = .next t

end Sys2Proof.Machine
end

