-- ==== Sys2Proof/Certificates/Slice0/Obligations.lean ====
section
/-! DEFINITION. The statements for the provers. -/

open Sys2Proof Sys2Proof.Machine

/-! ## Encoding -/

/-- Whatever bytes follow it, the encoding of a well-formed token decodes to that token and leaves the bytes after it,
and the word of a command decodes to that command (30_encoding.md R92, R93, R103). -/
def Obligations.EveryEncodingDecodesToItsInstruction : Prop :=
  ∀ (i : Instr) (rest : List Byte), WellFormed i →
    match encode i with
    | .token bytes => decodeToken (bytes ++ rest) = .token i rest
    | .command word => decodeCommand word = i

/-- What decodes to a token is that token's encoding and the bytes left over: no two encodings share a token, and only
well-formed tokens are decoded (R92, R93). -/
def Obligations.DecodedTokenIsItsEncoding : Prop :=
  ∀ (bs rest : List Byte) (i : Instr), decodeToken bs = .token i rest →
    WellFormed i ∧ ∃ bytes, encode i = .token bytes ∧ bs = bytes ++ rest

/-- R98: the length of a token from its first byte alone. -/
def Obligations.TokenLengthFromFirstByte : Prop :=
  ∀ (c : Byte) (bs rest : List Byte) (i : Instr), decodeToken (c :: bs) = .token i rest →
    (c.getLsbD 7 = false → (c :: bs).length = (1 + (c.extractLsb' 0 7).toNat + 1) + rest.length) ∧
    (c.getLsbD 7 = true → (c :: bs).length = 3 + rest.length)

/-- R99, R91: no control byte and no operand byte is reserved; whatever the bytes, a token of enough bytes decodes, to
a LIT where bit 7 is 0 and to a BREF where it is 1. -/
def Obligations.NoTokenEncodingIsReserved : Prop :=
  ∀ (c : Byte) (bs : List Byte), tokenLength c ≤ (c :: bs).length →
    (c.getLsbD 7 = false → ∃ bytes rest, decodeToken (c :: bs) = .token (.lit bytes) rest) ∧
    (c.getLsbD 7 = true → ∃ high low len rest, decodeToken (c :: bs) = .token (.bref high low len) rest)

/-- Control bytes of 95_test_vectors.md section 2.1, and the command words of R103. -/
def Obligations.ListedWordsDecode : Prop :=
  decodeToken [0x00, 0x41] = .token (.lit [0x41]) [] ∧
  decodeToken [0x01, 0x42, 0x43] = .token (.lit [0x42, 0x43]) [] ∧
  decodeToken [0x80, 0x00, 0x00] = .token (.bref 0 0 0) [] ∧
  decodeToken [0xFF, 0xFE, 0x05] = .token (.bref 0x7F 0xFE 5) [] ∧
  decodeToken [0xC0, 0x00, 0x10] = .token (.bref 0x40 0 0x10) [] ∧
  decodeCommand 0x00000001 = .decompress ∧ decodeCommand 0x00000002 = .reconstruct ∧
  decodeCommand 0x00000003 = .paletteRead ∧ decodeCommand 0x00000101 = .illegalCommand 0x101

/-- R103: each command has one word, all 32 bits are compared, and every other word is the illegal command. -/
def Obligations.CommandWordsAreComparedWhole : Prop :=
  ∀ w : Word,
    (decodeCommand w = .decompress ↔ w = 0x00000001) ∧ (decodeCommand w = .reconstruct ↔ w = 0x00000002) ∧
    (decodeCommand w = .paletteRead ↔ w = 0x00000003) ∧
    (w ≠ 0x00000001 → w ≠ 0x00000002 → w ≠ 0x00000003 → decodeCommand w = .illegalCommand w)

/-- R96: off is the 16-bit field read as two's complement, it lies in -32768..-1, its negation lies in 1..32768, and
the source index is at most OUT_LEN - 1. -/
def Obligations.BrefOffsetIsNegative : Prop :=
  (∀ (c b1 : Byte), c.getLsbD 7 = true →
    brefOffset c b1 = (offsetField c b1).toInt ∧ -32768 ≤ brefOffset c b1 ∧ brefOffset c b1 ≤ -1 ∧
    brefOffset c b1 = -(brefDistance c b1 : Int) ∧ 1 ≤ brefDistance c b1 ∧ brefDistance c b1 ≤ 32768 ∧
    ∀ s : State, brefSource s c b1 ≤ (s.outLen.toNat : Int) - 1) ∧
  brefOffset 0xFF 0xFF = -1 ∧ brefOffset 0x80 0x00 = -32768

/-! ## LIT -/

/-- LIT (R115): where its n bytes are present and OUT has room, it completes: IP advances by 1 + n, OUT_LEN by n, and
the bytes stand in OUT in order. -/
def Obligations.LitAppendsItsBytes : Prop :=
  ∀ (bytes : List Byte) (s : State), WellFormed (.lit bytes) →
    bytes.length ≤ s.inLen.toNat - (s.ip.toNat + 1) → s.outLen.toNat + bytes.length ≤ s.outCap.toNat →
    ∃ t, exec (.lit bytes) s = .next t ∧ t.ip.toNat = s.ip.toNat + 1 + bytes.length ∧
      t.outLen.toNat = s.outLen.toNat + bytes.length ∧ t.phase = .fetch ∧ t.status = s.status ∧
      ∀ k (h : k < bytes.length), t.readByte .output (s.outLen.toNat + k) = bytes[k]

/-- R116: a LIT at IP that claims more bytes than remain ends the command in TRUNCATED_STREAM with its context, both
as a step and as the atomic FETCH step; so does the instruction executed where its bytes do not remain. -/
def Obligations.LitTruncationIsReported : Prop :=
  (∀ s : State, s.sched = [] → s.phase = .fetch → s.ip.toNat < s.inLen.toNat →
    ∀ c, c = s.readByte .input s.ip.toNat → c.getLsbD 7 = false →
    s.inLen.toNat - (s.ip.toNat + 1) < c.toNat + 1 →
    ∃ t, step s = .next t ∧ tick s = .next t ∧ t.status = .error ∧ t.phase = .halt ∧ t.errCode = 1 ∧
      t.errPos = s.ip ∧ t.errExpected.toNat = c.toNat + 1 ∧
      t.errAvailable.toNat = s.inLen.toNat - (s.ip.toNat + 1)) ∧
  (∀ (s : State) (bytes : List Byte), WellFormed (.lit bytes) →
    s.inLen.toNat - (s.ip.toNat + 1) < bytes.length →
    ∃ t, exec (.lit bytes) s = .next t ∧ t.status = .error ∧ t.phase = .halt ∧ t.errCode = 1 ∧ t.errPos = s.ip ∧
      t.errExpected.toNat = bytes.length ∧ t.errAvailable.toNat = s.inLen.toNat - (s.ip.toNat + 1))

/-- The frame of LIT. Where it copies: only OUT, OUT_LEN, IP, w.C, w.CNT and w.PHASE may change, and no byte of OUT
outside the n bytes from OUT_LEN on. Where it fails: only w.C, w.PHASE, STATUS and ERR_*. -/
def Obligations.LitFrame : Prop :=
  ∀ (bytes : List Byte) (s t : State), exec (.lit bytes) s = .next t →
    (t.phase ≠ .halt →
      t = { s with outMem := t.outMem, outLen := t.outLen, ip := t.ip, wC := t.wC, wCnt := t.wCnt, phase := t.phase } ∧
      ∀ a, (a < s.outLen.toNat ∨ s.outLen.toNat + bytes.length ≤ a) →
        t.readByte .output a = s.readByte .output a) ∧
    (t.phase = .halt →
      t = { s with
        wC := t.wC, phase := t.phase, status := t.status, errCode := t.errCode, errPos := t.errPos
        errExpected := t.errExpected, errAvailable := t.errAvailable })

/-! ## BREF -/

/-- BREF (R118, R122): where its operands are present, its distance is at most OUT_LEN and OUT has room, it completes:
IP advances by 3, OUT_LEN by n, byte k is the byte that stands at src + k afterwards, and it repeats the last d bytes
there were before the token. -/
def Obligations.BrefRepeatsEarlierOutput : Prop :=
  ∀ (high : BitVec 7) (b1 b2 : Byte) (s : State),
    2 ≤ s.inLen.toNat - (s.ip.toNat + 1) → brefDistance (brefControl high) b1 ≤ s.outLen.toNat →
    s.outLen.toNat + copyLength b2 ≤ s.outCap.toNat →
    ∃ t, exec (.bref high b1 b2) s = .next t ∧ t.ip.toNat = s.ip.toNat + 3 ∧
      t.outLen.toNat = s.outLen.toNat + copyLength b2 ∧ t.phase = .fetch ∧ t.status = s.status ∧
      ∀ k, k < copyLength b2 →
        t.readByte .output (s.outLen.toNat + k) =
          t.readByte .output (s.outLen.toNat - brefDistance (brefControl high) b1 + k) ∧
        t.readByte .output (s.outLen.toNat + k) =
          s.readByte .output (s.outLen.toNat - brefDistance (brefControl high) b1 +
            k % brefDistance (brefControl high) b1)

/-- R119: a BREF at IP whose two operand bytes are not both present, as a step, as the atomic FETCH step, and as the
instruction executed where they do not remain. (That these are the claimed bytes is R119's own reading: "This spec
reads the source's "reference bytes" ... as these operand bytes.") -/
def Obligations.BrefTruncationIsReported : Prop :=
  (∀ s : State, s.sched = [] → s.phase = .fetch → s.ip.toNat < s.inLen.toNat →
    (s.readByte .input s.ip.toNat).getLsbD 7 = true → s.inLen.toNat - (s.ip.toNat + 1) < 2 →
    ∃ t, step s = .next t ∧ tick s = .next t ∧ t.status = .error ∧ t.phase = .halt ∧ t.errCode = 1 ∧
      t.errPos = s.ip ∧ t.errExpected = 2 ∧ t.errAvailable.toNat = s.inLen.toNat - (s.ip.toNat + 1)) ∧
  (∀ (s : State) (high : BitVec 7) (b1 b2 : Byte), s.inLen.toNat - (s.ip.toNat + 1) < 2 →
    ∃ t, exec (.bref high b1 b2) s = .next t ∧ t.status = .error ∧ t.phase = .halt ∧ t.errCode = 1 ∧
      t.errPos = s.ip ∧ t.errExpected = 2 ∧ t.errAvailable.toNat = s.inLen.toNat - (s.ip.toNat + 1))

/-- R120: a source index is negative exactly where the distance exceeds OUT_LEN, and a BREF with its operands present
and a negative source index ends the command in INVALID_BACKREFERENCE. -/
def Obligations.BrefWithoutHistoryIsReported : Prop :=
  ∀ (high : BitVec 7) (b1 b2 : Byte) (s : State),
    (brefSource s (brefControl high) b1 < 0 ↔ s.outLen.toNat < brefDistance (brefControl high) b1) ∧
    (2 ≤ s.inLen.toNat - (s.ip.toNat + 1) → brefSource s (brefControl high) b1 < 0 →
    ∃ t, exec (.bref high b1 b2) s = .next t ∧ t.status = .error ∧ t.phase = .halt ∧ t.errCode = 2 ∧ t.errPos = s.ip ∧
      (t.errExpected.toNat : Int) = -brefOffset (brefControl high) b1 ∧ t.errAvailable = s.outLen)

/-- R117, R121: a token whose bytes are present, and whose history is where it is a BREF, but whose n output bytes do
not fit in OUT. -/
def Obligations.TokenOverflowIsReported : Prop :=
  ∀ (i : Instr) (s : State) (n : Nat), s.outLen.toNat + n > s.outCap.toNat →
    (∃ bytes, i = .lit bytes ∧ WellFormed i ∧ n = bytes.length ∧
        n ≤ s.inLen.toNat - (s.ip.toNat + 1)) ∨
      (∃ high b1 b2, i = .bref high b1 b2 ∧ n = copyLength b2 ∧ 2 ≤ s.inLen.toNat - (s.ip.toNat + 1) ∧
        0 ≤ brefSource s (brefControl high) b1) →
    ∃ t, exec i s = .next t ∧ t.status = .error ∧ t.phase = .halt ∧ t.errCode = 5 ∧ t.errPos = s.ip ∧
      t.errExpected.toNat = n ∧ t.errAvailable.toNat = s.outCap.toNat - s.outLen.toNat

/-- The frame of BREF. Where it copies: only OUT, OUT_LEN, IP, w.C, w.CNT, w.SRC and w.PHASE may change, and no byte
of OUT outside the n bytes from OUT_LEN on. Where it fails: only w.C, w.PHASE, STATUS and ERR_*. -/
def Obligations.BrefFrame : Prop :=
  ∀ (high : BitVec 7) (b1 b2 : Byte) (s t : State), exec (.bref high b1 b2) s = .next t →
    (t.phase ≠ .halt →
      t = { s with
        outMem := t.outMem, outLen := t.outLen, ip := t.ip, wC := t.wC, wCnt := t.wCnt, wSrc := t.wSrc
        phase := t.phase } ∧
      ∀ a, (a < s.outLen.toNat ∨ s.outLen.toNat + copyLength b2 ≤ a) →
        t.readByte .output a = s.readByte .output a) ∧
    (t.phase = .halt →
      t = { s with
        wC := t.wC, phase := t.phase, status := t.status, errCode := t.errCode, errPos := t.errPos
        errExpected := t.errExpected, errAvailable := t.errAvailable })

/-- R124: a token that fails, found by the step or by the atomic FETCH step, leaves OUT, OUT_LEN and IP as they
were. -/
def Obligations.FailingTokenWritesNothing : Prop :=
  ∀ s t : State, s.sched = [] → s.phase = .fetch → s.status ≠ .error → (step s = .next t ∨ tick s = .next t) →
    t.status = .error → t.outMem = s.outMem ∧ t.outLen = s.outLen ∧ t.ip = s.ip

/-! ## DECOMPRESS -/

/-- R67, R113: the HDR step with a whole header loads the three little-endian fields, empties the buffer without
clearing its bytes, and puts IP at the first payload byte. -/
def Obligations.HeaderFieldsAreLittleEndian : Prop :=
  ∀ s : State, s.phase = .hdr → 6 ≤ s.inLen.toNat →
    ∃ t, tick s = .next t ∧
      t.hdrTag.toNat = (s.readByte .input 0).toNat + 256 * (s.readByte .input 1).toNat ∧
      t.width.toNat = (s.readByte .input 2).toNat + 256 * (s.readByte .input 3).toNat ∧
      t.height.toNat = (s.readByte .input 4).toNat + 256 * (s.readByte .input 5).toNat ∧
      t.ip = 6 ∧ t.outLen = 0 ∧ t.outMem = s.outMem ∧ t.phase = .fetch ∧ t.status = s.status

/-- R112: a header of less than 6 bytes. -/
def Obligations.ShortHeaderIsTruncated : Prop :=
  ∀ s : State, s.inLen.toNat < 6 →
    ∃ t, exec .decompress s = .next t ∧ t.status = .error ∧ t.phase = .halt ∧ t.errCode = 1 ∧ t.errPos = 0 ∧
      t.errExpected = 6 ∧ t.errAvailable = s.inLen ∧ t.hdrTag = s.hdrTag ∧ t.width = s.width ∧
      t.height = s.height ∧ t.outLen = 0 ∧ t.ip = 0

/-- R136: an empty payload decodes to an empty buffer, and the header is still loaded. -/
def Obligations.EmptyPayloadDecodesToNothing : Prop :=
  ∀ s : State, s.inLen = 6 →
    ∃ t, exec .decompress s = .next t ∧ t.status = .done ∧ t.phase = .halt ∧ t.outLen = 0 ∧ t.ip = 6 ∧
      t.hdrTag = s.headerField 0 ∧ t.width = s.headerField 2 ∧ t.height = s.headerField 4

/-- R114, R131: from every state DECOMPRESS ends, in DONE with IP = IN_LEN or in one of its three errors with IP at
most IN_LEN. -/
def Obligations.DecompressAlwaysEnds : Prop :=
  ∀ s : State, ∃ t, exec .decompress s = .next t ∧ t.phase = .halt ∧ t.inLen = s.inLen ∧
    ((t.status = .done ∧ t.ip = s.inLen) ∨
     (t.status = .error ∧ t.ip.toNat ≤ s.inLen.toNat ∧ (t.errCode = 1 ∨ t.errCode = 2 ∨ t.errCode = 5)))

/-- R110: where the payload is the encodings of a list of well-formed tokens, DECOMPRESS is the header step and then
those tokens in order, up to the first that fails, and then the end of the command. -/
def Obligations.DecompressRunsItsTokensInOrder : Prop :=
  ∀ (s : State) (tokens : List Instr),
    (∀ i ∈ tokens, WellFormed i ∧ ∃ bytes, encode i = .token bytes) →
    s.inLen.toNat = 6 + (tokens.flatMap tokenBytes).length →
    (∀ k (h : k < (tokens.flatMap tokenBytes).length),
      s.readByte .input (6 + k) = (tokens.flatMap tokenBytes)[k]) →
    exec .decompress s = execTokens tokens (headerStep s)

/-- R135: a payload of LIT tokens that fit in OUT decodes to the concatenation of their bytes. -/
def Obligations.LiteralOnlyLaw : Prop :=
  ∀ (s : State) (runs : List (List Byte)),
    (∀ run ∈ runs, 1 ≤ run.length ∧ run.length ≤ 128) →
    s.inLen.toNat = 6 + (runs.flatMap asmLit).length →
    (∀ k (h : k < (runs.flatMap asmLit).length), s.readByte .input (6 + k) = (runs.flatMap asmLit)[k]) →
    runs.flatten.length ≤ s.outCap.toNat →
    ∃ t, exec .decompress s = .next t ∧ t.status = .done ∧ t.phase = .halt ∧ t.ip = s.inLen ∧
      t.outLen.toNat = runs.flatten.length ∧
      ∀ k (h : k < runs.flatten.length), t.readByte .output k = runs.flatten[k]

/-- R19, R83, R134: what DECOMPRESS delivers depends on IN[0..IN_LEN), IN_LEN and OUT_CAPACITY alone (and, for what a
command without an error leaves as it was, on ERR_*): not on what OUT, RASTER or any other register held. -/
def Obligations.DecompressDependsOnItsInputOnly : Prop :=
  ∀ s₁ s₂ t₁ t₂ : State,
    s₁.inLen = s₂.inLen → s₁.outCap = s₂.outCap →
    (∀ a, a < s₁.inLen.toNat → s₁.readByte .input a = s₂.readByte .input a) →
    s₁.errCode = s₂.errCode → s₁.errPos = s₂.errPos → s₁.errExpected = s₂.errExpected →
    s₁.errAvailable = s₂.errAvailable →
    exec .decompress s₁ = .next t₁ → exec .decompress s₂ = .next t₂ →
    t₁.status = t₂.status ∧ t₁.errCode = t₂.errCode ∧ t₁.errPos = t₂.errPos ∧ t₁.errExpected = t₂.errExpected ∧
    t₁.errAvailable = t₂.errAvailable ∧ t₁.ip = t₂.ip ∧ t₁.outLen = t₂.outLen ∧
    (6 ≤ s₁.inLen.toNat → t₁.hdrTag = t₂.hdrTag ∧ t₁.width = t₂.width ∧ t₁.height = t₂.height) ∧
    ∀ a, a < t₁.outLen.toNat → t₁.readByte .output a = t₂.readByte .output a

/-- The frame of DECOMPRESS (43_commands.md R199): what it may change is HDR_TAG, WIDTH, HEIGHT, IP, OUT, OUT_LEN, the
working registers, STATUS and ERR_*, and no byte of OUT at or past the final OUT_LEN changes. -/
def Obligations.DecompressFrame : Prop :=
  ∀ s t : State, exec .decompress s = .next t →
    t = { s with
      hdrTag := t.hdrTag, width := t.width, height := t.height, ip := t.ip, outMem := t.outMem, outLen := t.outLen
      phase := t.phase, wC := t.wC, wCnt := t.wCnt, wSrc := t.wSrc, status := t.status, errCode := t.errCode
      errPos := t.errPos, errExpected := t.errExpected, errAvailable := t.errAvailable } ∧
    ∀ a, t.outLen.toNat ≤ a → t.readByte .output a = s.readByte .output a

/-! ## The sequencer's atomic steps -/

/-- R129 at one token: where the bytes at IP decode to a token, executing it is taking between 1 and 257 atomic steps
from FETCH. -/
def Obligations.TokenEqualsItsAtomicSteps : Prop :=
  ∀ (s : State) (i : Instr) (rest : List Byte), s.phase = .fetch → decodeToken s.tokenWindow = .token i rest →
    ∃ n, 1 ≤ n ∧ n ≤ 257 ∧ ticks n s = exec i s

/-- R129: the run of atomic steps from HDR to HALT leaves exactly what the token-level DECOMPRESS leaves, and it takes
at most 2 + floor((IN_LEN - 6) / 2) * 257 steps (R130). -/
def Obligations.DecompressEqualsItsAtomicSteps : Prop :=
  ∀ s : State, s.phase = .hdr →
    ∃ n t, n ≤ 2 + (s.inLen.toNat - 6) / 2 * 257 ∧ ticks n s = .next t ∧ exec .decompress s = .next t ∧
      t.phase = .halt ∧ ∀ m, m < n → ∃ u, ticks m s = .next u ∧ u.phase ≠ .halt

/-- R62, R24, R25: an atomic step among the tokens appends at most one byte to OUT, at index OUT_LEN, and IP never
decreases. -/
def Obligations.AtomicStepAppendsAtMostOneByte : Prop :=
  ∀ s t : State, s.Inv → s.inTokens → tick s = .next t →
    s.ip.toNat ≤ t.ip.toNat ∧
    (t.outLen = s.outLen ∧ t.outMem = s.outMem ∨
     t.outLen.toNat = s.outLen.toNat + 1 ∧ ∀ a, a ≠ s.outLen.toNat → t.readByte .output a = s.readByte .output a)

/-! ## The step -/

/-- A step runs the decoded instruction. With no move to come: at FETCH, where the bytes at IP are the encoding of a
well-formed token that ends at or before IN_LEN, step is exec of that token; at FETCH with IP = IN_LEN the command
finishes (R131); and the accepted commands run as themselves. -/
def Obligations.StepRunsTheDecodedInstruction : Prop :=
  ∀ s : State, s.sched = [] →
    (∀ (i : Instr) (bytes : List Byte), s.phase = .fetch → WellFormed i → encode i = .token bytes →
      s.ip.toNat + bytes.length ≤ s.inLen.toNat →
      (∀ k (h : k < bytes.length), s.readByte .input (s.ip.toNat + k) = bytes[k]) → step s = exec i s) ∧
    (s.phase = .fetch → s.ip = s.inLen → step s = .next s.finish) ∧
    (s.phase = .hdr → step s = exec .decompress s) ∧
    (s.phase = .recon → step s = exec .reconstruct s) ∧
    (s.phase = .palrd → step s = exec .paletteRead s)

/-- R213: with moves to come, a step takes the first off the list and makes it; the list is any list, so either agent
may be next at every point. -/
def Obligations.StepMakesTheNextMove : Prop :=
  ∀ (s : State) (m : Move) (rest : List Move),
    step (s.withSched (m :: rest)) = doMove m (s.withSched rest)

/-- A CMD write of a command's word while not BUSY accepts the command (R195), and the next step is exec of it (R164,
R185). That for DECOMPRESS this one step is the whole command is the model's choice (log 12): R125 makes the sequencer's
step at HDR the header alone, which is the model's tick. -/
def Obligations.CommandWriteThenStepRunsTheCommand : Prop :=
  ∀ (s : State) (w : Word), s.status ≠ .busy → (w = 1 ∨ w = 2 ∨ w = 3) →
    ∃ t, step (s.withSched [Move.writeReg .cmd w]) = .next t ∧
      t = (s.accept (startPhase (decodeCommand w))).withSched [] ∧ step t = exec (decodeCommand w) t

/-! ## RECONSTRUCT -/

/-- R159, R158: bit k of the colour index is bit 7 - x mod 8 of the byte of plane k that holds pixel (x, y). -/
def Obligations.ColourIndexSlicesThePlanes : Prop :=
  ∀ (s : State) (x y k : Nat), k < 4 →
    (s.colourIndex x y).getLsbD k =
      (s.readByte .output (k * (((s.width.toNat + 7) / 8) * s.height.toNat) +
        (x / 8 + y * ((s.width.toNat + 7) / 8)))).getLsbD (7 - x % 8)

/-- RECONSTRUCT (R160 to R163): where its three checks pass it completes in DONE, and raster pixel (X, Y) holds at
bytes 4 * (Y * RW + X) + 0..3 the pixel of source row Y / 2: zeros where its index is the transparent one (that the
colour channels are zero is R160's "This spec decides zero."; log 17), else the palette's entry and 255. -/
def Obligations.ReconstructWritesEveryPixel : Prop :=
  ∀ s : State, s.palSel.toNat < 2 → s.outLen.toNat = s.expectedLen → s.imageLength ≤ s.rasterCap.toNat →
    ∃ t, exec .reconstruct s = .next t ∧ t.status = .done ∧ t.phase = .halt ∧
      ∀ X Y, X < 8 * ((s.width.toNat + 7) / 8) → Y < 2 * s.height.toNat →
        let base := 4 * (Y * (8 * ((s.width.toNat + 7) / 8)) + X)
        let idx := s.colourIndex X (Y / 2)
        let p := s.pal s.palSel idx
        if s.transp.getLsbD 8 = true ∧ idx.toNat = (s.transp.extractLsb' 0 8).toNat then
          t.rasterMem.read? base = some 0 ∧ t.rasterMem.read? (base + 1) = some 0 ∧
          t.rasterMem.read? (base + 2) = some 0 ∧ t.rasterMem.read? (base + 3) = some 0
        else
          t.rasterMem.read? base = some p.r ∧ t.rasterMem.read? (base + 1) = some p.g ∧
          t.rasterMem.read? (base + 2) = some p.b ∧ t.rasterMem.read? (base + 3) = some 255

/-- R156, R154, R153, R155: the checks of RECONSTRUCT, in their order, each with its context, RASTER unchanged. -/
def Obligations.ReconstructChecksInOrder : Prop :=
  ∀ s : State,
    (2 ≤ s.palSel.toNat →
      ∃ t, exec .reconstruct s = .next t ∧ t.status = .error ∧ t.errCode = 4 ∧ t.errPos = 0 ∧ t.errExpected = 2 ∧
        t.errAvailable.toNat = s.palSel.toNat ∧ t.rasterMem = s.rasterMem) ∧
    (s.palSel.toNat < 2 → s.outLen.toNat ≠ s.expectedLen →
      ∃ t, exec .reconstruct s = .next t ∧ t.status = .error ∧ t.errCode = 3 ∧ t.errPos = 0 ∧
        t.errExpected.toNat = s.expectedLen ∧ t.errAvailable = s.outLen ∧ t.rasterMem = s.rasterMem) ∧
    (s.palSel.toNat < 2 → s.outLen.toNat = s.expectedLen → s.rasterCap.toNat < s.imageLength →
      ∃ t, exec .reconstruct s = .next t ∧ t.status = .error ∧ t.errCode = 5 ∧ t.errPos = 0 ∧
        t.errExpected.toNat = min s.imageLength 0xFFFFFFFF ∧ t.errAvailable = s.rasterCap ∧
        t.rasterMem = s.rasterMem)

/-- The frame of RECONSTRUCT, and R167: only RASTER, STATUS, w.PHASE and ERR_* may change, ERR_* only on an error, no
RASTER byte past the image, and none at all on an error; and every byte of RASTER is the same after running it again.
-/
def Obligations.ReconstructFrame : Prop :=
  ∀ s t : State, exec .reconstruct s = .next t →
    t = { s with
      rasterMem := t.rasterMem, status := t.status, phase := t.phase, errCode := t.errCode, errPos := t.errPos
      errExpected := t.errExpected, errAvailable := t.errAvailable } ∧
    (t.status = .done → t.errCode = s.errCode ∧ t.errPos = s.errPos ∧ t.errExpected = s.errExpected ∧
      t.errAvailable = s.errAvailable) ∧
    (t.status = .error → t.rasterMem = s.rasterMem) ∧
    (∀ a, s.imageLength ≤ a → t.rasterMem.read? a = s.rasterMem.read? a) ∧
    ∃ u, exec .reconstruct t = .next u ∧ ∀ a, u.rasterMem.read? a = t.rasterMem.read? a

/-- R169: an image of width 0 or height 0 needs an empty buffer, and then RASTER is not written; the palette is
checked all the same. -/
def Obligations.ZeroSizeImageWritesNothing : Prop :=
  ∀ s : State, (s.width = 0 ∨ s.height = 0) →
    (s.width = 0 → s.rasterW = 0) ∧ (s.height = 0 → s.rasterH = 0) ∧
    (s.palSel.toNat < 2 → s.outLen = 0 →
      ∃ t, exec .reconstruct s = .next t ∧ t.status = .done ∧ t.rasterMem = s.rasterMem) ∧
    (s.palSel.toNat < 2 → s.outLen ≠ 0 → ∃ t, exec .reconstruct s = .next t ∧ t.status = .error ∧ t.errCode = 3) ∧
    (2 ≤ s.palSel.toNat → ∃ t, exec .reconstruct s = .next t ∧ t.status = .error ∧ t.errCode = 4)

/-! ## PALETTE_READ -/

/-- PALETTE_READ (R185), command word 3 and one sequencer step from PALRD: with a selector 0 or 1 it completes in DONE
with PAL_RGB the packed entry, with any other it ends in UNKNOWN_PALETTE with PAL_RGB unchanged. -/
def Obligations.PaletteReadPacksTheEntry : Prop :=
  decodeCommand 0x00000003 = .paletteRead ∧ (∀ s : State, s.phase = .palrd → tick s = exec .paletteRead s) ∧
  ∀ s : State,
    (s.palSel = 0 →
      exec .paletteRead s = .next { s with
        status := .done, phase := .halt
        palRgb := BitVec.ofNat 24 (s.rom0[s.palIdx.toNat].r.toNat * 65536 + s.rom0[s.palIdx.toNat].g.toNat * 256 +
          s.rom0[s.palIdx.toNat].b.toNat) }) ∧
    (s.palSel = 1 →
      exec .paletteRead s = .next { s with
        status := .done, phase := .halt
        palRgb := BitVec.ofNat 24 (s.rom1[s.palIdx.toNat].r.toNat * 65536 + s.rom1[s.palIdx.toNat].g.toNat * 256 +
          s.rom1[s.palIdx.toNat].b.toNat) }) ∧
    (2 ≤ s.palSel.toNat →
      ∃ t, exec .paletteRead s = .next t ∧ t.status = .error ∧ t.errCode = 4 ∧ t.errPos = 0 ∧ t.errExpected = 2 ∧
        t.errAvailable.toNat = s.palSel.toNat ∧ t.palRgb = s.palRgb)

/-- The frame of PALETTE_READ: only PAL_RGB, STATUS, w.PHASE and ERR_* may change; no byte of any memory. -/
def Obligations.PaletteReadFrame : Prop :=
  ∀ s t : State, exec .paletteRead s = .next t →
    t = { s with
      palRgb := t.palRgb, status := t.status, phase := t.phase, errCode := t.errCode, errPos := t.errPos
      errExpected := t.errExpected, errAvailable := t.errAvailable } ∧
    ∀ sp a, t.readByte sp a = s.readByte sp a

/-! ## Commands and registers -/

/-- R195: acceptance clears ERR_*, sets BUSY and the phase of the command, and changes nothing else. -/
def Obligations.AcceptanceStartsTheCommand : Prop :=
  ∀ (s : State) (rest : List Move) (w : Word) (p : Phase), s.status ≠ .busy →
    (w = 1 ∧ p = .hdr ∨ w = 2 ∧ p = .recon ∨ w = 3 ∧ p = .palrd) →
    step (s.withSched (Move.writeReg .cmd w :: rest)) =
      .next { s with
        errCode := 0, errPos := 0, errExpected := 0, errAvailable := 0, status := .busy, phase := p, sched := rest }

/-- R197: any other word is the error ILLEGAL_COMMAND at once, with its context, and nothing else changes; the same as
an instruction. -/
def Obligations.IllegalCommandIsReportedAtOnce : Prop :=
  ∀ (s : State) (rest : List Move) (w : Word), s.status ≠ .busy → w ≠ 1 → w ≠ 2 → w ≠ 3 →
    exec (.illegalCommand w) s =
      .next { s with
        status := .error, phase := .halt, errCode := 6, errPos := 0, errExpected := 3, errAvailable := w } ∧
    step (s.withSched (Move.writeReg .cmd w :: rest)) =
      .next { s with
        status := .error, phase := .halt, errCode := 6, errPos := 0, errExpected := 3, errAvailable := w
        sched := rest }

/-- R196, R200, R75: a host write to any register or memory while BUSY has no effect, CMD's among them, an illegal
command word has none, and a write to RASTER never has. -/
def Obligations.HostWritesWhileBusyAreDropped : Prop :=
  ∀ (s : State) (rest : List Move),
    (∀ (offset v : Word) (bytes : Nat), s.status = .busy →
      step (s.withSched (.regWrite offset bytes v :: rest)) = .next (s.withSched rest) ∧
      exec (.illegalCommand v) s = .next s) ∧
    (∀ (space : Space) (a : Word) (v : Byte), (s.status = .busy ∨ space = .raster) →
      step (s.withSched (.memWrite space a v :: rest)) = .next (s.withSched rest))

/-- R201: a write of an RW register while not BUSY stores the used low bits and nothing else, and the derived
registers follow WIDTH and HEIGHT. -/
def Obligations.RegisterWriteStoresItsUsedBits : Prop :=
  ∀ (s : State) (rest : List Move) (v : Word), s.status ≠ .busy →
    (∃ t, step (s.withSched (Move.writeReg .width v :: rest)) = .next t ∧
      t = { s with width := v.setWidth 16, sched := rest } ∧
      (t.readReg .expectedLen).toNat = 4 * (((v.toNat % 65536 + 7) / 8) * s.height.toNat) ∧
      (t.readReg .rasterW).toNat = 8 * ((v.toNat % 65536 + 7) / 8)) ∧
    (∃ t, step (s.withSched (Move.writeReg .height v :: rest)) = .next t ∧
      t = { s with height := v.setWidth 16, sched := rest } ∧
      (t.readReg .expectedLen).toNat = 4 * (((s.width.toNat + 7) / 8) * (v.toNat % 65536)) ∧
      (t.readReg .rasterH).toNat = 2 * (v.toNat % 65536)) ∧
    step (s.withSched (Move.writeReg .palSel v :: rest)) = .next { s with palSel := v.setWidth 8, sched := rest } ∧
    step (s.withSched (Move.writeReg .transp v :: rest)) = .next { s with transp := v.setWidth 9, sched := rest } ∧
    step (s.withSched (Move.writeReg .palIdx v :: rest)) = .next { s with palIdx := v.setWidth 4, sched := rest } ∧
    (v.toNat ≤ s.inCap.toNat →
      step (s.withSched (Move.writeReg .inLen v :: rest)) = .next { s with inLen := v, sched := rest }) ∧
    (v.toNat ≤ s.outCap.toNat →
      step (s.withSched (Move.writeReg .outLen v :: rest)) = .next { s with outLen := v, sched := rest })

/-- R202, R203: a length above its capacity is ignored. -/
def Obligations.LengthAboveCapacityIsIgnored : Prop :=
  ∀ (s : State) (rest : List Move) (v : Word),
    (v.toNat > s.inCap.toNat → step (s.withSched (Move.writeReg .inLen v :: rest)) = .next (s.withSched rest)) ∧
    (v.toNat > s.outCap.toNat → step (s.withSched (Move.writeReg .outLen v :: rest)) = .next (s.withSched rest))

/-- R22: an access that is not 32 bits wide, or whose offset is no multiple of 4 or lies at 0x58 or above, reads 0 and
writes nothing; a write of a register that is not writable writes nothing. -/
def Obligations.OddRegisterAccessHasNoEffect : Prop :=
  ∀ (s : State) (rest : List Move) (offset v : Word) (bytes : Nat),
    ((bytes ≠ 4 ∨ offset.toNat % 4 ≠ 0 ∨ 0x58 ≤ offset.toNat) →
      step (s.withSched (.regRead offset bytes :: rest)) = .next { s with busData := 0, sched := rest } ∧
      step (s.withSched (.regWrite offset bytes v :: rest)) = .next (s.withSched rest)) ∧
    ∀ r : Reg, (r.access = .r ∨ r.access = .d) →
      step (s.withSched (Move.writeReg r v :: rest)) = .next (s.withSched rest)

/-- R40, R41, R35: what the host reads at the offsets of the derived registers, as numbers, and their ranges. -/
def Obligations.DerivedRegistersFollowTheSize : Prop :=
  ∀ s : State,
    (s.hostRegValue 0x44 4).toNat = 8 * ((s.width.toNat + 7) / 8) ∧ (s.hostRegValue 0x44 4).toNat ≤ 65536 ∧
    (s.hostRegValue 0x48 4).toNat = 2 * s.height.toNat ∧ (s.hostRegValue 0x48 4).toNat ≤ 131070 ∧
    (s.hostRegValue 0x28 4).toNat = 4 * (((s.width.toNat + 7) / 8) * s.height.toNat) ∧
    (s.hostRegValue 0x28 4).toNat ≤ 2147450880

/-- R21, R204, R22, R26: the register map. At any time, BUSY too, a 32-bit read of a register returns its value and
changes nothing else; the bits outside its used width read as 0, and CMD reads as 0. Each row of the table is a register
with the offset, access code and used width of R21 and its value as a function of the state, STATUS by the codes of R23.
(That the value read is recorded in the state is the model's own, log 6.) -/
def Obligations.RegisterReadReturnsItsValue : Prop :=
  ∀ (s : State) (rest : List Move),
    (∀ r : Reg,
      step (s.withSched (Move.readReg r :: rest)) = .next { s with busData := s.readReg r, sched := rest } ∧
      (s.readReg r).toNat < 2 ^ r.usedWidth ∧ s.readReg .cmd = 0) ∧
    ∀ (r : Reg) (offset : Word) (access : Access) (width : Nat) (value : Word),
      (r, offset, access, width, value) ∈ ([
        (.cmd, 0x00, .w, 32, 0),
        (.status, 0x04, .r, 2, match s.status with | .idle => 0 | .busy => 1 | .done => 2 | .error => 3),
        (.errCode, 0x08, .r, 4, s.errCode.setWidth 32),
        (.errPos, 0x0C, .r, 32, s.errPos),
        (.errExpected, 0x10, .r, 32, s.errExpected),
        (.errAvailable, 0x14, .r, 32, s.errAvailable),
        (.inLen, 0x18, .rw, 32, s.inLen),
        (.hdrTag, 0x1C, .r, 16, s.hdrTag.setWidth 32),
        (.width, 0x20, .rw, 16, s.width.setWidth 32),
        (.height, 0x24, .rw, 16, s.height.setWidth 32),
        (.expectedLen, 0x28, .d, 32, BitVec.ofNat 32 (4 * (((s.width.toNat + 7) / 8) * s.height.toNat)))] ++ [
        (.outLen, 0x2C, .rw, 32, s.outLen),
        (.ip, 0x30, .r, 32, s.ip),
        (.palSel, 0x34, .rw, 8, s.palSel.setWidth 32),
        (.transp, 0x38, .rw, 9, s.transp.setWidth 32),
        (.palIdx, 0x3C, .rw, 4, s.palIdx.setWidth 32),
        (.palRgb, 0x40, .r, 24, s.palRgb.setWidth 32),
        (.rasterW, 0x44, .d, 17, BitVec.ofNat 32 (8 * ((s.width.toNat + 7) / 8))),
        (.rasterH, 0x48, .d, 17, BitVec.ofNat 32 (2 * s.height.toNat)),
        (.inCap, 0x4C, .r, 32, s.inCap),
        (.outCap, 0x50, .r, 32, s.outCap),
        (.rasterCap, 0x54, .r, 32, s.rasterCap)] : List (Reg × Word × Access × Nat × Word)) →
      r.offset = offset ∧ r.access = access ∧ r.usedWidth = width ∧ value.toNat < 2 ^ width ∧
      step (s.withSched (.regRead offset 4 :: rest)) = .next { s with busData := value, sched := rest }

/-- R73, R204: a host read changes nothing of the block: only the model's record of what was read and, for an
unspecified byte, the count of draws (log 3, log 6). -/
def Obligations.HostReadsHaveNoSideEffects : Prop :=
  ∀ (s t : State) (rest : List Move) (m : Move),
    ((∃ offset bytes, m = .regRead offset bytes) ∨ ∃ space a, m = .memRead space a) →
    step (s.withSched (m :: rest)) = .next t →
    t = { s with busData := t.busData, draws := t.draws, sched := rest }

/-- R205, R74: a byte the host writes to IN or OUT while not BUSY, at an index below the capacity and inside the valid
length, is what it reads back. And a host read of a byte written since reset, by either agent, returns that byte and
takes no draw: of OUT inside OUT_LEN and of RASTER inside the valid image while not BUSY, and of IN inside IN_LEN at any
time (that IN is read while BUSY too is the model's reading, log 8). A host write of a byte to IN or OUT below the
capacity, while not BUSY, writes that byte and changes no other byte and no register; one at or beyond the capacity, or
to RASTER, writes nothing. -/
def Obligations.HostReadsBackWhatItWrote : Prop :=
  ∀ (s : State) (rest : List Move) (space : Space) (a : Word) (v : Byte),
    (s.status ≠ .busy →
      (space = .input ∧ a.toNat < s.inCap.toNat ∧ a.toNat < s.inLen.toNat ∨
       space = .output ∧ a.toNat < s.outCap.toNat ∧ a.toNat < s.outLen.toNat) →
      ∃ t u, step (s.withSched (.memWrite space a v :: .memRead space a :: rest)) = .next t ∧ step t = .next u ∧
        u.busData = v.setWidth 32 ∧ u.draws = s.draws ∧ u.sched = rest) ∧
    ((space = .input ∧ a.toNat < s.inCap.toNat ∧ a.toNat < s.inLen.toNat ∨
      space = .output ∧ s.status ≠ .busy ∧ a.toNat < s.outCap.toNat ∧ a.toNat < s.outLen.toNat ∨
      space = .raster ∧ s.status ≠ .busy ∧ a.toNat < s.rasterCap.toNat ∧
        a.toNat < 4 * (8 * ((s.width.toNat + 7) / 8)) * (2 * s.height.toNat)) →
      (s.mem space).read? a.toNat = some v →
      step (s.withSched (.memRead space a :: rest)) = .next { s with busData := v.setWidth 32, sched := rest }) ∧
    (s.status ≠ .busy → space = .input → a.toNat < s.inCap.toNat →
      ∃ m : Memory, step (s.withSched (.memWrite space a v :: rest)) = .next { s with inMem := m, sched := rest } ∧
        ∀ b, m.read? b = if b = a.toNat then some v else s.inMem.read? b) ∧
    (s.status ≠ .busy → space = .output → a.toNat < s.outCap.toNat →
      ∃ m : Memory, step (s.withSched (.memWrite space a v :: rest)) = .next { s with outMem := m, sched := rest } ∧
        ∀ b, m.read? b = if b = a.toNat then some v else s.outMem.read? b) ∧
    ((space = .input ∧ s.inCap.toNat ≤ a.toNat ∨ space = .output ∧ s.outCap.toNat ≤ a.toNat ∨ space = .raster) →
      step (s.withSched (.memWrite space a v :: rest)) = .next (s.withSched rest))

/-- R74 and R205 (in the model's form, log 3): while BUSY every read of OUT or RASTER, and at any time a read at or past
the valid length, a read at or beyond the capacity, and a read of a byte not written since reset, which the memory does
not list (log 2), return a fresh free value. -/
def Obligations.UnspecifiedReadIsAFreshDraw : Prop :=
  ∀ (s : State) (rest : List Move) (space : Space) (a : Word),
    (space ≠ .input ∧ s.status = .busy ∨ space = .input ∧ s.inLen.toNat ≤ a.toNat ∨
     space = .output ∧ s.outLen.toNat ≤ a.toNat ∨ space = .raster ∧ s.imageLength ≤ a.toNat ∨
     space = .input ∧ s.inCap.toNat ≤ a.toNat ∨ space = .output ∧ s.outCap.toNat ≤ a.toNat ∨
     space = .raster ∧ s.rasterCap.toNat ≤ a.toNat ∨ (s.mem space).read? a.toNat = none) →
    step (s.withSched (.memRead space a :: rest)) =
      .next { s with busData := (Config.draw s.draws).setWidth 32, draws := s.draws + 1, sched := rest }

/-- 70_reset_and_hazards.md R274 (steps 2 and 3), R271: the moves that load a file that fits take a clean idle block to
Loaded(F), with every byte of the file written and no move left. And where IN already holds the file, written since
reset or not (95_test_vectors.md P6, after a reset), the write of IN_LEN alone does. (That the sequencer reads an
unwritten byte alike each time is log 2.) -/
def Obligations.LoadingAFileLoadsIt : Prop :=
  ∀ (s : State) (file : List Byte), s.Inv → CleanIdle s → file.length ≤ s.inCap.toNat →
    (∃ t : State, Host.Core.run Sys2Proof.core (file.length + 1) (s.withSched (Move.loadFile file)) = .next t ∧
      Loaded file t ∧ t.sched = [] ∧ ∀ k (h : k < file.length), t.inMem.read? k = some file[k]) ∧
    ((∀ k (h : k < file.length), s.readByte .input k = file[k]) →
      ∃ t : State, step (s.withSched [Move.writeReg .inLen (BitVec.ofNat 32 file.length)]) = .next t ∧ Loaded file t)

/-! ## Reset -/

/-- R270, R49: reset, asserted in any state, leaves every register and working register at its reset value, the
parameters and the palettes as they were, and no byte of memory written. -/
def Obligations.ResetSetsEveryRegister : Prop :=
  ∀ (s : State) (rest : List Move),
    ∃ t, step (s.withSched (.reset :: rest)) = .next t ∧
      t.status = .idle ∧ t.errCode = 0 ∧ t.errPos = 0 ∧ t.errExpected = 0 ∧ t.errAvailable = 0 ∧ t.inLen = 0 ∧
      t.hdrTag = 0 ∧ t.width = 0 ∧ t.height = 0 ∧ t.outLen = 0 ∧ t.ip = 0 ∧ t.palSel = 0 ∧ t.transp = 0 ∧
      t.palIdx = 0 ∧ t.palRgb = 0 ∧ t.inCap = s.inCap ∧ t.outCap = s.outCap ∧ t.rasterCap = s.rasterCap ∧
      t.phase = .halt ∧ t.wC = 0 ∧ t.wCnt = 0 ∧ t.wSrc = 0 ∧ t.rom0 = s.rom0 ∧ t.rom1 = s.rom1 ∧
      ∀ sp a, (t.mem sp).read? a = none

/-- The invariant holds at reset, which is also the state on power-up and is CleanIdle (R271), and the registers of the
reset state are all 0 but the capacities (R272). -/
def Obligations.ResetMeetsTheInvariant : Prop :=
  State.reset.Inv ∧ CleanIdle State.reset ∧
  ∀ r : Reg, State.reset.readReg r ≠ 0 → r = .inCap ∨ r = .outCap ∨ r = .rasterCap

/-! ## The whole machine -/

/-- Every step, of either agent, keeps the invariant: STATE = BUSY exactly when w.PHASE is not HALT (10_state.md R45),
OUT_LEN <= OUT_CAPACITY at all times (R25), IP <= IN_LEN among the tokens (R24), the produced bytes written (40_lzss.md
R123), w.SRC below OUT_LEN (R128), the memories canonical. -/
def Obligations.EveryStepKeepsTheInvariant : Prop :=
  ∀ s t : State, s.Inv → step s = .next t → t.Inv

/-- No state that meets the invariant faults or refuses: "every host action has a defined effect" (43_commands.md
R210), and while BUSY a step is always enabled (R208). In HALT, where none is (R207), a tick changes nothing, in any state (log 21).
-/
def Obligations.NoStepFaults : Prop :=
  ∀ s : State, (s.Inv → StepSafe s ∧ ∃ t, tick s = .next t) ∧ (s.phase = .halt → tick s = .next s)

/-- 10_state.md R42, 42_palette.md R181: the capacity registers read the parameters and the ROM holds the palettes
from reset on, and no command, host access or reset changes them. -/
def Obligations.ParametersNeverChange : Prop :=
  (State.reset.hostRegValue 0x4C 4).toNat = Config.inCapacity ∧
  (State.reset.hostRegValue 0x50 4).toNat = Config.outCapacity ∧
  (State.reset.hostRegValue 0x54 4).toNat = Config.rasterCapacity ∧
  State.reset.rom0 = Config.palette0 ∧ State.reset.rom1 = Config.palette1 ∧
  ∀ s t : State, step s = .next t →
    t.inCap = s.inCap ∧ t.outCap = s.outCap ∧ t.rasterCap = s.rasterCap ∧ t.rom0 = s.rom0 ∧ t.rom1 = s.rom1

/-- 20_memory.md R83: IN and IN_LEN do not change while a command runs, unless a reset, which abandons the command, is
the next move. -/
def Obligations.InputIsImmutableWhileBusy : Prop :=
  ∀ s t : State, s.status = .busy → (∀ rest, s.sched ≠ .reset :: rest) → step s = .next t →
    t.inMem = s.inMem ∧ t.inLen = s.inLen ∧ t.epoch = s.epoch

/-- 20_memory.md R63: only RECONSTRUCT writes RASTER, and reset makes it unspecified: a step that changes RASTER is the
sequencer's at RECON, or a reset. -/
def Obligations.OnlyReconstructWritesRaster : Prop :=
  ∀ s t : State, step s = .next t → t.rasterMem ≠ s.rasterMem →
    (s.phase = .recon ∧ (s.sched = [] ∨ ∃ rest, s.sched = .tick :: rest)) ∨ ∃ rest, s.sched = .reset :: rest

/-- 43_commands.md R207: with no command running, STATUS is changed only by a CMD write or reset; with no move to come
nothing changes at all. -/
def Obligations.HaltIsLeftOnlyByCommandOrReset : Prop :=
  ∀ s t : State, s.Inv → s.status ≠ .busy → step s = .next t →
    (s.sched = [] → t = s) ∧
    (t.status ≠ s.status →
      ∃ rest, s.sched = .reset :: rest ∨ ∃ w, s.sched = .regWrite Reg.cmd.offset 4 w :: rest)

/-! ## The ring buffer -/

/-- 20_memory.md R66: a copy engine that reads its history from a ring of at least 32768 bytes takes the same step. -/
def Obligations.LargeRingIsInvisible : Prop :=
  ∀ (s : State) (size : Nat), s.Inv → s.phase = .refcopy → 32768 ≤ size → ringCopyStep size s = refCopyStep s

/-- 20_memory.md R66: "A ring smaller than 32768 bytes would give wrong results": for every smaller size some state of
the copy engine that meets the invariant takes another step with the ring. -/
def Obligations.SmallRingDiffers : Prop :=
  ∀ size : Nat, 1 ≤ size → size < 32768 →
    ∃ s : State, s.Inv ∧ s.phase = .refcopy ∧ ringCopyStep size s ≠ refCopyStep s

/-! ## What the host reads of a result -/

/-- R205, R74, R131, R168: what a command delivered is what the host reads. After DECOMPRESS a host read of OUT inside
OUT_LEN returns the byte that stands there, and after a RECONSTRUCT that ends in DONE a host read of RASTER inside the
image returns the byte that was written there; neither is a draw. -/
def Obligations.HostReadsWhatACommandDelivered : Prop :=
  ∀ (s t : State) (rest : List Move) (a : Word),
    (exec .decompress s = .next t → a.toNat < t.outLen.toNat →
      step (t.withSched (.memRead .output a :: rest)) =
        .next { t with busData := (t.readByte .output a.toNat).setWidth 32, sched := rest }) ∧
    (exec .reconstruct s = .next t → t.status = .done →
      a.toNat < 4 * (8 * ((s.width.toNat + 7) / 8)) * (2 * s.height.toNat) →
      ∃ v, t.rasterMem.read? a.toNat = some v ∧
        step (t.withSched (.memRead .raster a :: rest)) = .next { t with busData := v.setWidth 32, sched := rest })
end

