-- ==== Sys2Proof/Laws/Decode.lean ====
section
/-! SUPPORT. Laws of the encodings: control bytes, what decoding a token can answer, the fields of a BREF. -/

namespace Sys2Proof

@[simp] theorem matchFlag_litControl (n : Nat) : matchFlag (litControl n) = false := by
  have h : ∀ x : BitVec 7, matchFlag (0#1 ++ x) = false := by decide
  exact h _

@[simp] theorem matchFlag_brefControl (h : BitVec 7) : matchFlag (brefControl h) = true := by
  revert h; decide

/-- The run length of a LIT's control byte is the length it was made for (30_encoding.md R92, R94). -/
theorem runLength_litControl {n : Nat} (h1 : 1 ≤ n) (h2 : n ≤ 128) : runLength (litControl n) = n := by
  have h : ∀ x : BitVec 7, (0#1 ++ x : Byte).extractLsb' 0 7 = x := by decide
  rw [runLength, litControl, h, BitVec.toNat_ofNat]
  omega

theorem runLength_pos (c : Byte) : 1 ≤ runLength c := Nat.le_add_left 1 _

theorem runLength_le (c : Byte) : runLength c ≤ 128 := by
  have := (c.extractLsb' 0 7).isLt
  rw [runLength]; omega

/-- The field H of a BREF's control byte (R93). -/
@[simp] theorem extract_brefControl (h : BitVec 7) : (brefControl h).extractLsb' 0 7 = h := by
  revert h; decide

/-- A control byte with match flag 1 is the control byte of its field H. -/
theorem brefControl_extract {c : Byte} (h : matchFlag c = true) : brefControl (c.extractLsb' 0 7) = c := by
  revert h; revert c; decide

/-- A control byte with match flag 0 is the control byte of its run length. -/
theorem litControl_runLength {c : Byte} (h : matchFlag c = false) : litControl (runLength c) = c := by
  revert h; revert c; decide

/-- A LIT is decoded from its control byte and its bytes, whatever follows. -/
theorem decodeToken_lit {bytes : List Byte} (h1 : 1 ≤ bytes.length) (h2 : bytes.length ≤ 128) (rest : List Byte) :
    decodeToken (litControl bytes.length :: bytes ++ rest) = .token (.lit bytes) rest := by
  simp [decodeToken, runLength_litControl h1 h2]

/-- A BREF is decoded from its three bytes, whatever follows. -/
theorem decodeToken_bref (h : BitVec 7) (b1 b2 : Byte) (rest : List Byte) :
    decodeToken (brefControl h :: b1 :: b2 :: rest) = .token (.bref h b1 b2) rest := by
  simp [decodeToken]

/-- Everything decoding a token can answer (R91 to R93). -/
theorem decodeToken_cases (bs : List Byte) :
    (bs = [] ∧ decodeToken bs = .empty) ∨
    (∃ c rest, bs = c :: rest ∧ matchFlag c = false ∧ rest.length < runLength c ∧
      decodeToken bs = .truncated (runLength c) rest.length) ∨
    (∃ c rest, bs = c :: rest ∧ matchFlag c = true ∧ rest.length < 2 ∧
      decodeToken bs = .truncated 2 rest.length) ∨
    (∃ bytes rest, 1 ≤ bytes.length ∧ bytes.length ≤ 128 ∧ bs = litControl bytes.length :: bytes ++ rest ∧
      decodeToken bs = .token (.lit bytes) rest) ∨
    (∃ h b1 b2 rest, bs = brefControl h :: b1 :: b2 :: rest ∧ decodeToken bs = .token (.bref h b1 b2) rest) := by
  match bs with
  | [] => exact .inl ⟨rfl, rfl⟩
  | c :: rest =>
    cases hc : matchFlag c with
    | false =>
      by_cases hlen : rest.length < runLength c
      · exact .inr (.inl ⟨c, rest, rfl, hc, hlen, by simp [decodeToken, hc, hlen]⟩)
      · have hl : (rest.take (runLength c)).length = runLength c := by simp; omega
        refine .inr (.inr (.inr (.inl ⟨rest.take (runLength c), rest.drop (runLength c), ?_, ?_, ?_, ?_⟩)))
        · rw [hl]; exact runLength_pos c
        · rw [hl]; exact runLength_le c
        · rw [hl, litControl_runLength hc]; simp
        · simp [decodeToken, hc, hlen]
    | true =>
      match rest with
      | [] => exact .inr (.inr (.inl ⟨c, [], rfl, hc, by simp, by simp [decodeToken, hc]⟩))
      | [b1] => exact .inr (.inr (.inl ⟨c, [b1], rfl, hc, by simp, by simp [decodeToken, hc]⟩))
      | b1 :: b2 :: rest' =>
        exact .inr (.inr (.inr (.inr ⟨c.extractLsb' 0 7, b1, b2, rest', by rw [brefControl_extract hc],
          by simp [decodeToken, hc]⟩)))

/-- What decoding a command word answers (R103). -/
theorem decodeCommand_cases (w : Word) :
    (w = 1#32 ∧ decodeCommand w = .decompress) ∨ (w = 2#32 ∧ decodeCommand w = .reconstruct) ∨
    (w = 3#32 ∧ decodeCommand w = .paletteRead) ∨
    (w ≠ 1#32 ∧ w ≠ 2#32 ∧ w ≠ 3#32 ∧ decodeCommand w = .illegalCommand w) := by
  unfold decodeCommand
  split
  · exact .inl ⟨‹_›, rfl⟩
  · split
    · exact .inr (.inl ⟨‹_›, rfl⟩)
    · split
      · exact .inr (.inr (.inl ⟨‹_›, rfl⟩))
      · exact .inr (.inr (.inr ⟨‹_›, ‹_›, ‹_›, rfl⟩))

/-- A word that is no command code decodes to itself as the illegal command. -/
theorem decodeCommand_illegal {w : Word} (h1 : w ≠ 1#32) (h2 : w ≠ 2#32) (h3 : w ≠ 3#32) :
    decodeCommand w = .illegalCommand w := by
  simp [decodeCommand, h1, h2, h3]

namespace Machine

/-- The offset field of a BREF is 0x8000 or more (30_encoding.md R95). -/
theorem offsetField_ge {c : Byte} (h : matchFlag c = true) (b1 : Byte) : 32768 ≤ (offsetField c b1).toNat := by
  have hc : 128 ≤ c.toNat := by revert h; revert c; decide
  have := b1.isLt
  simp only [offsetField, BitVec.toNat_append]
  rw [← Nat.shiftLeft_add_eq_or_of_lt b1.isLt, Nat.shiftLeft_eq]
  omega

/-- The distance of a BREF lies in 1..32768 (R96). -/
theorem brefDistance_bounds {c : Byte} (h : matchFlag c = true) (b1 : Byte) :
    1 ≤ brefDistance c b1 ∧ brefDistance c b1 ≤ 32768 := by
  have h1 := offsetField_ge h b1
  have h2 := (offsetField c b1).isLt
  simp only [brefDistance, brefOffset]
  omega

/-- The offset is minus the distance. -/
theorem brefOffset_eq {c : Byte} (h : matchFlag c = true) (b1 : Byte) :
    brefOffset c b1 = -(brefDistance c b1 : Int) := by
  have h1 := offsetField_ge h b1
  have h2 := (offsetField c b1).isLt
  simp only [brefDistance, brefOffset]
  omega

theorem copyLength_bounds (b : Byte) : 1 ≤ copyLength b ∧ copyLength b ≤ 256 := by
  have := b.isLt
  simp only [copyLength]; omega

end Machine

end Sys2Proof
end

