-- ==== Sys2Proof/Laws/State.lean ====
section
/-! SUPPORT. One lemma for each field of each update of the state, so that no proof unfolds a record update. -/

namespace Sys2Proof.Machine

/-! ## Error entry -/

@[simp] theorem State.raise_status (s : State) (e : ErrorReport) : (s.raise e).status = .error := rfl
@[simp] theorem State.raise_errCode (s : State) (e : ErrorReport) : (s.raise e).errCode = e.kind.code := rfl
@[simp] theorem State.raise_errPos (s : State) (e : ErrorReport) : (s.raise e).errPos = sat32 e.pos := rfl
@[simp] theorem State.raise_errExpected (s : State) (e : ErrorReport) : (s.raise e).errExpected = sat32 e.expected := rfl
@[simp] theorem State.raise_errAvailable (s : State) (e : ErrorReport) : (s.raise e).errAvailable = sat32 e.available := rfl
@[simp] theorem State.raise_inLen (s : State) (e : ErrorReport) : (s.raise e).inLen = s.inLen := rfl
@[simp] theorem State.raise_hdrTag (s : State) (e : ErrorReport) : (s.raise e).hdrTag = s.hdrTag := rfl
@[simp] theorem State.raise_width (s : State) (e : ErrorReport) : (s.raise e).width = s.width := rfl
@[simp] theorem State.raise_height (s : State) (e : ErrorReport) : (s.raise e).height = s.height := rfl
@[simp] theorem State.raise_outLen (s : State) (e : ErrorReport) : (s.raise e).outLen = s.outLen := rfl
@[simp] theorem State.raise_ip (s : State) (e : ErrorReport) : (s.raise e).ip = s.ip := rfl
@[simp] theorem State.raise_palSel (s : State) (e : ErrorReport) : (s.raise e).palSel = s.palSel := rfl
@[simp] theorem State.raise_transp (s : State) (e : ErrorReport) : (s.raise e).transp = s.transp := rfl
@[simp] theorem State.raise_palIdx (s : State) (e : ErrorReport) : (s.raise e).palIdx = s.palIdx := rfl
@[simp] theorem State.raise_palRgb (s : State) (e : ErrorReport) : (s.raise e).palRgb = s.palRgb := rfl
@[simp] theorem State.raise_inCap (s : State) (e : ErrorReport) : (s.raise e).inCap = s.inCap := rfl
@[simp] theorem State.raise_outCap (s : State) (e : ErrorReport) : (s.raise e).outCap = s.outCap := rfl
@[simp] theorem State.raise_rasterCap (s : State) (e : ErrorReport) : (s.raise e).rasterCap = s.rasterCap := rfl
@[simp] theorem State.raise_phase (s : State) (e : ErrorReport) : (s.raise e).phase = .halt := rfl
@[simp] theorem State.raise_wC (s : State) (e : ErrorReport) : (s.raise e).wC = s.wC := rfl
@[simp] theorem State.raise_wCnt (s : State) (e : ErrorReport) : (s.raise e).wCnt = s.wCnt := rfl
@[simp] theorem State.raise_wSrc (s : State) (e : ErrorReport) : (s.raise e).wSrc = s.wSrc := rfl
@[simp] theorem State.raise_inMem (s : State) (e : ErrorReport) : (s.raise e).inMem = s.inMem := rfl
@[simp] theorem State.raise_outMem (s : State) (e : ErrorReport) : (s.raise e).outMem = s.outMem := rfl
@[simp] theorem State.raise_rasterMem (s : State) (e : ErrorReport) : (s.raise e).rasterMem = s.rasterMem := rfl
@[simp] theorem State.raise_rom0 (s : State) (e : ErrorReport) : (s.raise e).rom0 = s.rom0 := rfl
@[simp] theorem State.raise_rom1 (s : State) (e : ErrorReport) : (s.raise e).rom1 = s.rom1 := rfl
@[simp] theorem State.raise_sched (s : State) (e : ErrorReport) : (s.raise e).sched = s.sched := rfl
@[simp] theorem State.raise_busData (s : State) (e : ErrorReport) : (s.raise e).busData = s.busData := rfl
@[simp] theorem State.raise_epoch (s : State) (e : ErrorReport) : (s.raise e).epoch = s.epoch := rfl
@[simp] theorem State.raise_draws (s : State) (e : ErrorReport) : (s.raise e).draws = s.draws := rfl

/-! ## The end of a command -/

@[simp] theorem State.finish_status (s : State) : (s.finish).status = .done := rfl
@[simp] theorem State.finish_errCode (s : State) : (s.finish).errCode = s.errCode := rfl
@[simp] theorem State.finish_errPos (s : State) : (s.finish).errPos = s.errPos := rfl
@[simp] theorem State.finish_errExpected (s : State) : (s.finish).errExpected = s.errExpected := rfl
@[simp] theorem State.finish_errAvailable (s : State) : (s.finish).errAvailable = s.errAvailable := rfl
@[simp] theorem State.finish_inLen (s : State) : (s.finish).inLen = s.inLen := rfl
@[simp] theorem State.finish_hdrTag (s : State) : (s.finish).hdrTag = s.hdrTag := rfl
@[simp] theorem State.finish_width (s : State) : (s.finish).width = s.width := rfl
@[simp] theorem State.finish_height (s : State) : (s.finish).height = s.height := rfl
@[simp] theorem State.finish_outLen (s : State) : (s.finish).outLen = s.outLen := rfl
@[simp] theorem State.finish_ip (s : State) : (s.finish).ip = s.ip := rfl
@[simp] theorem State.finish_palSel (s : State) : (s.finish).palSel = s.palSel := rfl
@[simp] theorem State.finish_transp (s : State) : (s.finish).transp = s.transp := rfl
@[simp] theorem State.finish_palIdx (s : State) : (s.finish).palIdx = s.palIdx := rfl
@[simp] theorem State.finish_palRgb (s : State) : (s.finish).palRgb = s.palRgb := rfl
@[simp] theorem State.finish_inCap (s : State) : (s.finish).inCap = s.inCap := rfl
@[simp] theorem State.finish_outCap (s : State) : (s.finish).outCap = s.outCap := rfl
@[simp] theorem State.finish_rasterCap (s : State) : (s.finish).rasterCap = s.rasterCap := rfl
@[simp] theorem State.finish_phase (s : State) : (s.finish).phase = .halt := rfl
@[simp] theorem State.finish_wC (s : State) : (s.finish).wC = s.wC := rfl
@[simp] theorem State.finish_wCnt (s : State) : (s.finish).wCnt = s.wCnt := rfl
@[simp] theorem State.finish_wSrc (s : State) : (s.finish).wSrc = s.wSrc := rfl
@[simp] theorem State.finish_inMem (s : State) : (s.finish).inMem = s.inMem := rfl
@[simp] theorem State.finish_outMem (s : State) : (s.finish).outMem = s.outMem := rfl
@[simp] theorem State.finish_rasterMem (s : State) : (s.finish).rasterMem = s.rasterMem := rfl
@[simp] theorem State.finish_rom0 (s : State) : (s.finish).rom0 = s.rom0 := rfl
@[simp] theorem State.finish_rom1 (s : State) : (s.finish).rom1 = s.rom1 := rfl
@[simp] theorem State.finish_sched (s : State) : (s.finish).sched = s.sched := rfl
@[simp] theorem State.finish_busData (s : State) : (s.finish).busData = s.busData := rfl
@[simp] theorem State.finish_epoch (s : State) : (s.finish).epoch = s.epoch := rfl
@[simp] theorem State.finish_draws (s : State) : (s.finish).draws = s.draws := rfl

/-! ## Acceptance -/

@[simp] theorem State.accept_status (s : State) (p : Phase) : (s.accept p).status = .busy := rfl
@[simp] theorem State.accept_errCode (s : State) (p : Phase) : (s.accept p).errCode = 0 := rfl
@[simp] theorem State.accept_errPos (s : State) (p : Phase) : (s.accept p).errPos = 0 := rfl
@[simp] theorem State.accept_errExpected (s : State) (p : Phase) : (s.accept p).errExpected = 0 := rfl
@[simp] theorem State.accept_errAvailable (s : State) (p : Phase) : (s.accept p).errAvailable = 0 := rfl
@[simp] theorem State.accept_inLen (s : State) (p : Phase) : (s.accept p).inLen = s.inLen := rfl
@[simp] theorem State.accept_hdrTag (s : State) (p : Phase) : (s.accept p).hdrTag = s.hdrTag := rfl
@[simp] theorem State.accept_width (s : State) (p : Phase) : (s.accept p).width = s.width := rfl
@[simp] theorem State.accept_height (s : State) (p : Phase) : (s.accept p).height = s.height := rfl
@[simp] theorem State.accept_outLen (s : State) (p : Phase) : (s.accept p).outLen = s.outLen := rfl
@[simp] theorem State.accept_ip (s : State) (p : Phase) : (s.accept p).ip = s.ip := rfl
@[simp] theorem State.accept_palSel (s : State) (p : Phase) : (s.accept p).palSel = s.palSel := rfl
@[simp] theorem State.accept_transp (s : State) (p : Phase) : (s.accept p).transp = s.transp := rfl
@[simp] theorem State.accept_palIdx (s : State) (p : Phase) : (s.accept p).palIdx = s.palIdx := rfl
@[simp] theorem State.accept_palRgb (s : State) (p : Phase) : (s.accept p).palRgb = s.palRgb := rfl
@[simp] theorem State.accept_inCap (s : State) (p : Phase) : (s.accept p).inCap = s.inCap := rfl
@[simp] theorem State.accept_outCap (s : State) (p : Phase) : (s.accept p).outCap = s.outCap := rfl
@[simp] theorem State.accept_rasterCap (s : State) (p : Phase) : (s.accept p).rasterCap = s.rasterCap := rfl
@[simp] theorem State.accept_phase (s : State) (p : Phase) : (s.accept p).phase = p := rfl
@[simp] theorem State.accept_wC (s : State) (p : Phase) : (s.accept p).wC = s.wC := rfl
@[simp] theorem State.accept_wCnt (s : State) (p : Phase) : (s.accept p).wCnt = s.wCnt := rfl
@[simp] theorem State.accept_wSrc (s : State) (p : Phase) : (s.accept p).wSrc = s.wSrc := rfl
@[simp] theorem State.accept_inMem (s : State) (p : Phase) : (s.accept p).inMem = s.inMem := rfl
@[simp] theorem State.accept_outMem (s : State) (p : Phase) : (s.accept p).outMem = s.outMem := rfl
@[simp] theorem State.accept_rasterMem (s : State) (p : Phase) : (s.accept p).rasterMem = s.rasterMem := rfl
@[simp] theorem State.accept_rom0 (s : State) (p : Phase) : (s.accept p).rom0 = s.rom0 := rfl
@[simp] theorem State.accept_rom1 (s : State) (p : Phase) : (s.accept p).rom1 = s.rom1 := rfl
@[simp] theorem State.accept_sched (s : State) (p : Phase) : (s.accept p).sched = s.sched := rfl
@[simp] theorem State.accept_busData (s : State) (p : Phase) : (s.accept p).busData = s.busData := rfl
@[simp] theorem State.accept_epoch (s : State) (p : Phase) : (s.accept p).epoch = s.epoch := rfl
@[simp] theorem State.accept_draws (s : State) (p : Phase) : (s.accept p).draws = s.draws := rfl

/-! ## Latching the control byte -/

@[simp] theorem State.latch_status (s : State) (c : Byte) : (s.latch c).status = s.status := rfl
@[simp] theorem State.latch_errCode (s : State) (c : Byte) : (s.latch c).errCode = s.errCode := rfl
@[simp] theorem State.latch_errPos (s : State) (c : Byte) : (s.latch c).errPos = s.errPos := rfl
@[simp] theorem State.latch_errExpected (s : State) (c : Byte) : (s.latch c).errExpected = s.errExpected := rfl
@[simp] theorem State.latch_errAvailable (s : State) (c : Byte) : (s.latch c).errAvailable = s.errAvailable := rfl
@[simp] theorem State.latch_inLen (s : State) (c : Byte) : (s.latch c).inLen = s.inLen := rfl
@[simp] theorem State.latch_hdrTag (s : State) (c : Byte) : (s.latch c).hdrTag = s.hdrTag := rfl
@[simp] theorem State.latch_width (s : State) (c : Byte) : (s.latch c).width = s.width := rfl
@[simp] theorem State.latch_height (s : State) (c : Byte) : (s.latch c).height = s.height := rfl
@[simp] theorem State.latch_outLen (s : State) (c : Byte) : (s.latch c).outLen = s.outLen := rfl
@[simp] theorem State.latch_ip (s : State) (c : Byte) : (s.latch c).ip = s.ip := rfl
@[simp] theorem State.latch_palSel (s : State) (c : Byte) : (s.latch c).palSel = s.palSel := rfl
@[simp] theorem State.latch_transp (s : State) (c : Byte) : (s.latch c).transp = s.transp := rfl
@[simp] theorem State.latch_palIdx (s : State) (c : Byte) : (s.latch c).palIdx = s.palIdx := rfl
@[simp] theorem State.latch_palRgb (s : State) (c : Byte) : (s.latch c).palRgb = s.palRgb := rfl
@[simp] theorem State.latch_inCap (s : State) (c : Byte) : (s.latch c).inCap = s.inCap := rfl
@[simp] theorem State.latch_outCap (s : State) (c : Byte) : (s.latch c).outCap = s.outCap := rfl
@[simp] theorem State.latch_rasterCap (s : State) (c : Byte) : (s.latch c).rasterCap = s.rasterCap := rfl
@[simp] theorem State.latch_phase (s : State) (c : Byte) : (s.latch c).phase = s.phase := rfl
@[simp] theorem State.latch_wC (s : State) (c : Byte) : (s.latch c).wC = c := rfl
@[simp] theorem State.latch_wCnt (s : State) (c : Byte) : (s.latch c).wCnt = s.wCnt := rfl
@[simp] theorem State.latch_wSrc (s : State) (c : Byte) : (s.latch c).wSrc = s.wSrc := rfl
@[simp] theorem State.latch_inMem (s : State) (c : Byte) : (s.latch c).inMem = s.inMem := rfl
@[simp] theorem State.latch_outMem (s : State) (c : Byte) : (s.latch c).outMem = s.outMem := rfl
@[simp] theorem State.latch_rasterMem (s : State) (c : Byte) : (s.latch c).rasterMem = s.rasterMem := rfl
@[simp] theorem State.latch_rom0 (s : State) (c : Byte) : (s.latch c).rom0 = s.rom0 := rfl
@[simp] theorem State.latch_rom1 (s : State) (c : Byte) : (s.latch c).rom1 = s.rom1 := rfl
@[simp] theorem State.latch_sched (s : State) (c : Byte) : (s.latch c).sched = s.sched := rfl
@[simp] theorem State.latch_busData (s : State) (c : Byte) : (s.latch c).busData = s.busData := rfl
@[simp] theorem State.latch_epoch (s : State) (c : Byte) : (s.latch c).epoch = s.epoch := rfl
@[simp] theorem State.latch_draws (s : State) (c : Byte) : (s.latch c).draws = s.draws := rfl

/-! ## Appending to OUT -/

@[simp] theorem State.appendOut_status (s : State) (v : Byte) : (s.appendOut v).status = s.status := rfl
@[simp] theorem State.appendOut_errCode (s : State) (v : Byte) : (s.appendOut v).errCode = s.errCode := rfl
@[simp] theorem State.appendOut_errPos (s : State) (v : Byte) : (s.appendOut v).errPos = s.errPos := rfl
@[simp] theorem State.appendOut_errExpected (s : State) (v : Byte) : (s.appendOut v).errExpected = s.errExpected := rfl
@[simp] theorem State.appendOut_errAvailable (s : State) (v : Byte) : (s.appendOut v).errAvailable = s.errAvailable := rfl
@[simp] theorem State.appendOut_inLen (s : State) (v : Byte) : (s.appendOut v).inLen = s.inLen := rfl
@[simp] theorem State.appendOut_hdrTag (s : State) (v : Byte) : (s.appendOut v).hdrTag = s.hdrTag := rfl
@[simp] theorem State.appendOut_width (s : State) (v : Byte) : (s.appendOut v).width = s.width := rfl
@[simp] theorem State.appendOut_height (s : State) (v : Byte) : (s.appendOut v).height = s.height := rfl
@[simp] theorem State.appendOut_outLen (s : State) (v : Byte) : (s.appendOut v).outLen = s.outLen + 1#32 := rfl
@[simp] theorem State.appendOut_ip (s : State) (v : Byte) : (s.appendOut v).ip = s.ip := rfl
@[simp] theorem State.appendOut_palSel (s : State) (v : Byte) : (s.appendOut v).palSel = s.palSel := rfl
@[simp] theorem State.appendOut_transp (s : State) (v : Byte) : (s.appendOut v).transp = s.transp := rfl
@[simp] theorem State.appendOut_palIdx (s : State) (v : Byte) : (s.appendOut v).palIdx = s.palIdx := rfl
@[simp] theorem State.appendOut_palRgb (s : State) (v : Byte) : (s.appendOut v).palRgb = s.palRgb := rfl
@[simp] theorem State.appendOut_inCap (s : State) (v : Byte) : (s.appendOut v).inCap = s.inCap := rfl
@[simp] theorem State.appendOut_outCap (s : State) (v : Byte) : (s.appendOut v).outCap = s.outCap := rfl
@[simp] theorem State.appendOut_rasterCap (s : State) (v : Byte) : (s.appendOut v).rasterCap = s.rasterCap := rfl
@[simp] theorem State.appendOut_phase (s : State) (v : Byte) : (s.appendOut v).phase = s.phase := rfl
@[simp] theorem State.appendOut_wC (s : State) (v : Byte) : (s.appendOut v).wC = s.wC := rfl
@[simp] theorem State.appendOut_wCnt (s : State) (v : Byte) : (s.appendOut v).wCnt = s.wCnt := rfl
@[simp] theorem State.appendOut_wSrc (s : State) (v : Byte) : (s.appendOut v).wSrc = s.wSrc := rfl
@[simp] theorem State.appendOut_inMem (s : State) (v : Byte) : (s.appendOut v).inMem = s.inMem := rfl
@[simp] theorem State.appendOut_outMem (s : State) (v : Byte) : (s.appendOut v).outMem = s.outMem.write s.outLen.toNat v := rfl
@[simp] theorem State.appendOut_rasterMem (s : State) (v : Byte) : (s.appendOut v).rasterMem = s.rasterMem := rfl
@[simp] theorem State.appendOut_rom0 (s : State) (v : Byte) : (s.appendOut v).rom0 = s.rom0 := rfl
@[simp] theorem State.appendOut_rom1 (s : State) (v : Byte) : (s.appendOut v).rom1 = s.rom1 := rfl
@[simp] theorem State.appendOut_sched (s : State) (v : Byte) : (s.appendOut v).sched = s.sched := rfl
@[simp] theorem State.appendOut_busData (s : State) (v : Byte) : (s.appendOut v).busData = s.busData := rfl
@[simp] theorem State.appendOut_epoch (s : State) (v : Byte) : (s.appendOut v).epoch = s.epoch := rfl
@[simp] theorem State.appendOut_draws (s : State) (v : Byte) : (s.appendOut v).draws = s.draws := rfl

/-! ## Advancing IP -/

@[simp] theorem State.advance_status (s : State) (n : Nat) : (s.advance n).status = s.status := rfl
@[simp] theorem State.advance_errCode (s : State) (n : Nat) : (s.advance n).errCode = s.errCode := rfl
@[simp] theorem State.advance_errPos (s : State) (n : Nat) : (s.advance n).errPos = s.errPos := rfl
@[simp] theorem State.advance_errExpected (s : State) (n : Nat) : (s.advance n).errExpected = s.errExpected := rfl
@[simp] theorem State.advance_errAvailable (s : State) (n : Nat) : (s.advance n).errAvailable = s.errAvailable := rfl
@[simp] theorem State.advance_inLen (s : State) (n : Nat) : (s.advance n).inLen = s.inLen := rfl
@[simp] theorem State.advance_hdrTag (s : State) (n : Nat) : (s.advance n).hdrTag = s.hdrTag := rfl
@[simp] theorem State.advance_width (s : State) (n : Nat) : (s.advance n).width = s.width := rfl
@[simp] theorem State.advance_height (s : State) (n : Nat) : (s.advance n).height = s.height := rfl
@[simp] theorem State.advance_outLen (s : State) (n : Nat) : (s.advance n).outLen = s.outLen := rfl
@[simp] theorem State.advance_ip (s : State) (n : Nat) : (s.advance n).ip = s.ip + BitVec.ofNat 32 n := rfl
@[simp] theorem State.advance_palSel (s : State) (n : Nat) : (s.advance n).palSel = s.palSel := rfl
@[simp] theorem State.advance_transp (s : State) (n : Nat) : (s.advance n).transp = s.transp := rfl
@[simp] theorem State.advance_palIdx (s : State) (n : Nat) : (s.advance n).palIdx = s.palIdx := rfl
@[simp] theorem State.advance_palRgb (s : State) (n : Nat) : (s.advance n).palRgb = s.palRgb := rfl
@[simp] theorem State.advance_inCap (s : State) (n : Nat) : (s.advance n).inCap = s.inCap := rfl
@[simp] theorem State.advance_outCap (s : State) (n : Nat) : (s.advance n).outCap = s.outCap := rfl
@[simp] theorem State.advance_rasterCap (s : State) (n : Nat) : (s.advance n).rasterCap = s.rasterCap := rfl
@[simp] theorem State.advance_phase (s : State) (n : Nat) : (s.advance n).phase = s.phase := rfl
@[simp] theorem State.advance_wC (s : State) (n : Nat) : (s.advance n).wC = s.wC := rfl
@[simp] theorem State.advance_wCnt (s : State) (n : Nat) : (s.advance n).wCnt = s.wCnt := rfl
@[simp] theorem State.advance_wSrc (s : State) (n : Nat) : (s.advance n).wSrc = s.wSrc := rfl
@[simp] theorem State.advance_inMem (s : State) (n : Nat) : (s.advance n).inMem = s.inMem := rfl
@[simp] theorem State.advance_outMem (s : State) (n : Nat) : (s.advance n).outMem = s.outMem := rfl
@[simp] theorem State.advance_rasterMem (s : State) (n : Nat) : (s.advance n).rasterMem = s.rasterMem := rfl
@[simp] theorem State.advance_rom0 (s : State) (n : Nat) : (s.advance n).rom0 = s.rom0 := rfl
@[simp] theorem State.advance_rom1 (s : State) (n : Nat) : (s.advance n).rom1 = s.rom1 := rfl
@[simp] theorem State.advance_sched (s : State) (n : Nat) : (s.advance n).sched = s.sched := rfl
@[simp] theorem State.advance_busData (s : State) (n : Nat) : (s.advance n).busData = s.busData := rfl
@[simp] theorem State.advance_epoch (s : State) (n : Nat) : (s.advance n).epoch = s.epoch := rfl
@[simp] theorem State.advance_draws (s : State) (n : Nat) : (s.advance n).draws = s.draws := rfl

/-! ## Setting w.SRC -/

@[simp] theorem State.setSrc_status (s : State) (n : Nat) : (s.setSrc n).status = s.status := rfl
@[simp] theorem State.setSrc_errCode (s : State) (n : Nat) : (s.setSrc n).errCode = s.errCode := rfl
@[simp] theorem State.setSrc_errPos (s : State) (n : Nat) : (s.setSrc n).errPos = s.errPos := rfl
@[simp] theorem State.setSrc_errExpected (s : State) (n : Nat) : (s.setSrc n).errExpected = s.errExpected := rfl
@[simp] theorem State.setSrc_errAvailable (s : State) (n : Nat) : (s.setSrc n).errAvailable = s.errAvailable := rfl
@[simp] theorem State.setSrc_inLen (s : State) (n : Nat) : (s.setSrc n).inLen = s.inLen := rfl
@[simp] theorem State.setSrc_hdrTag (s : State) (n : Nat) : (s.setSrc n).hdrTag = s.hdrTag := rfl
@[simp] theorem State.setSrc_width (s : State) (n : Nat) : (s.setSrc n).width = s.width := rfl
@[simp] theorem State.setSrc_height (s : State) (n : Nat) : (s.setSrc n).height = s.height := rfl
@[simp] theorem State.setSrc_outLen (s : State) (n : Nat) : (s.setSrc n).outLen = s.outLen := rfl
@[simp] theorem State.setSrc_ip (s : State) (n : Nat) : (s.setSrc n).ip = s.ip := rfl
@[simp] theorem State.setSrc_palSel (s : State) (n : Nat) : (s.setSrc n).palSel = s.palSel := rfl
@[simp] theorem State.setSrc_transp (s : State) (n : Nat) : (s.setSrc n).transp = s.transp := rfl
@[simp] theorem State.setSrc_palIdx (s : State) (n : Nat) : (s.setSrc n).palIdx = s.palIdx := rfl
@[simp] theorem State.setSrc_palRgb (s : State) (n : Nat) : (s.setSrc n).palRgb = s.palRgb := rfl
@[simp] theorem State.setSrc_inCap (s : State) (n : Nat) : (s.setSrc n).inCap = s.inCap := rfl
@[simp] theorem State.setSrc_outCap (s : State) (n : Nat) : (s.setSrc n).outCap = s.outCap := rfl
@[simp] theorem State.setSrc_rasterCap (s : State) (n : Nat) : (s.setSrc n).rasterCap = s.rasterCap := rfl
@[simp] theorem State.setSrc_phase (s : State) (n : Nat) : (s.setSrc n).phase = s.phase := rfl
@[simp] theorem State.setSrc_wC (s : State) (n : Nat) : (s.setSrc n).wC = s.wC := rfl
@[simp] theorem State.setSrc_wCnt (s : State) (n : Nat) : (s.setSrc n).wCnt = s.wCnt := rfl
@[simp] theorem State.setSrc_wSrc (s : State) (n : Nat) : (s.setSrc n).wSrc = BitVec.ofNat 32 n := rfl
@[simp] theorem State.setSrc_inMem (s : State) (n : Nat) : (s.setSrc n).inMem = s.inMem := rfl
@[simp] theorem State.setSrc_outMem (s : State) (n : Nat) : (s.setSrc n).outMem = s.outMem := rfl
@[simp] theorem State.setSrc_rasterMem (s : State) (n : Nat) : (s.setSrc n).rasterMem = s.rasterMem := rfl
@[simp] theorem State.setSrc_rom0 (s : State) (n : Nat) : (s.setSrc n).rom0 = s.rom0 := rfl
@[simp] theorem State.setSrc_rom1 (s : State) (n : Nat) : (s.setSrc n).rom1 = s.rom1 := rfl
@[simp] theorem State.setSrc_sched (s : State) (n : Nat) : (s.setSrc n).sched = s.sched := rfl
@[simp] theorem State.setSrc_busData (s : State) (n : Nat) : (s.setSrc n).busData = s.busData := rfl
@[simp] theorem State.setSrc_epoch (s : State) (n : Nat) : (s.setSrc n).epoch = s.epoch := rfl
@[simp] theorem State.setSrc_draws (s : State) (n : Nat) : (s.setSrc n).draws = s.draws := rfl

/-! ## Entering a copy phase -/

@[simp] theorem State.beginCopy_status (s : State) (n : Nat) (p : Phase) : (s.beginCopy n p).status = s.status := rfl
@[simp] theorem State.beginCopy_errCode (s : State) (n : Nat) (p : Phase) : (s.beginCopy n p).errCode = s.errCode := rfl
@[simp] theorem State.beginCopy_errPos (s : State) (n : Nat) (p : Phase) : (s.beginCopy n p).errPos = s.errPos := rfl
@[simp] theorem State.beginCopy_errExpected (s : State) (n : Nat) (p : Phase) : (s.beginCopy n p).errExpected = s.errExpected := rfl
@[simp] theorem State.beginCopy_errAvailable (s : State) (n : Nat) (p : Phase) : (s.beginCopy n p).errAvailable = s.errAvailable := rfl
@[simp] theorem State.beginCopy_inLen (s : State) (n : Nat) (p : Phase) : (s.beginCopy n p).inLen = s.inLen := rfl
@[simp] theorem State.beginCopy_hdrTag (s : State) (n : Nat) (p : Phase) : (s.beginCopy n p).hdrTag = s.hdrTag := rfl
@[simp] theorem State.beginCopy_width (s : State) (n : Nat) (p : Phase) : (s.beginCopy n p).width = s.width := rfl
@[simp] theorem State.beginCopy_height (s : State) (n : Nat) (p : Phase) : (s.beginCopy n p).height = s.height := rfl
@[simp] theorem State.beginCopy_outLen (s : State) (n : Nat) (p : Phase) : (s.beginCopy n p).outLen = s.outLen := rfl
@[simp] theorem State.beginCopy_ip (s : State) (n : Nat) (p : Phase) : (s.beginCopy n p).ip = s.ip := rfl
@[simp] theorem State.beginCopy_palSel (s : State) (n : Nat) (p : Phase) : (s.beginCopy n p).palSel = s.palSel := rfl
@[simp] theorem State.beginCopy_transp (s : State) (n : Nat) (p : Phase) : (s.beginCopy n p).transp = s.transp := rfl
@[simp] theorem State.beginCopy_palIdx (s : State) (n : Nat) (p : Phase) : (s.beginCopy n p).palIdx = s.palIdx := rfl
@[simp] theorem State.beginCopy_palRgb (s : State) (n : Nat) (p : Phase) : (s.beginCopy n p).palRgb = s.palRgb := rfl
@[simp] theorem State.beginCopy_inCap (s : State) (n : Nat) (p : Phase) : (s.beginCopy n p).inCap = s.inCap := rfl
@[simp] theorem State.beginCopy_outCap (s : State) (n : Nat) (p : Phase) : (s.beginCopy n p).outCap = s.outCap := rfl
@[simp] theorem State.beginCopy_rasterCap (s : State) (n : Nat) (p : Phase) : (s.beginCopy n p).rasterCap = s.rasterCap := rfl
@[simp] theorem State.beginCopy_phase (s : State) (n : Nat) (p : Phase) : (s.beginCopy n p).phase = p := rfl
@[simp] theorem State.beginCopy_wC (s : State) (n : Nat) (p : Phase) : (s.beginCopy n p).wC = s.wC := rfl
@[simp] theorem State.beginCopy_wCnt (s : State) (n : Nat) (p : Phase) : (s.beginCopy n p).wCnt = BitVec.ofNat 9 n := rfl
@[simp] theorem State.beginCopy_wSrc (s : State) (n : Nat) (p : Phase) : (s.beginCopy n p).wSrc = s.wSrc := rfl
@[simp] theorem State.beginCopy_inMem (s : State) (n : Nat) (p : Phase) : (s.beginCopy n p).inMem = s.inMem := rfl
@[simp] theorem State.beginCopy_outMem (s : State) (n : Nat) (p : Phase) : (s.beginCopy n p).outMem = s.outMem := rfl
@[simp] theorem State.beginCopy_rasterMem (s : State) (n : Nat) (p : Phase) : (s.beginCopy n p).rasterMem = s.rasterMem := rfl
@[simp] theorem State.beginCopy_rom0 (s : State) (n : Nat) (p : Phase) : (s.beginCopy n p).rom0 = s.rom0 := rfl
@[simp] theorem State.beginCopy_rom1 (s : State) (n : Nat) (p : Phase) : (s.beginCopy n p).rom1 = s.rom1 := rfl
@[simp] theorem State.beginCopy_sched (s : State) (n : Nat) (p : Phase) : (s.beginCopy n p).sched = s.sched := rfl
@[simp] theorem State.beginCopy_busData (s : State) (n : Nat) (p : Phase) : (s.beginCopy n p).busData = s.busData := rfl
@[simp] theorem State.beginCopy_epoch (s : State) (n : Nat) (p : Phase) : (s.beginCopy n p).epoch = s.epoch := rfl
@[simp] theorem State.beginCopy_draws (s : State) (n : Nat) (p : Phase) : (s.beginCopy n p).draws = s.draws := rfl

/-! ## The end of a token -/

@[simp] theorem State.endToken_status (s : State) : (s.endToken).status = s.status := rfl
@[simp] theorem State.endToken_errCode (s : State) : (s.endToken).errCode = s.errCode := rfl
@[simp] theorem State.endToken_errPos (s : State) : (s.endToken).errPos = s.errPos := rfl
@[simp] theorem State.endToken_errExpected (s : State) : (s.endToken).errExpected = s.errExpected := rfl
@[simp] theorem State.endToken_errAvailable (s : State) : (s.endToken).errAvailable = s.errAvailable := rfl
@[simp] theorem State.endToken_inLen (s : State) : (s.endToken).inLen = s.inLen := rfl
@[simp] theorem State.endToken_hdrTag (s : State) : (s.endToken).hdrTag = s.hdrTag := rfl
@[simp] theorem State.endToken_width (s : State) : (s.endToken).width = s.width := rfl
@[simp] theorem State.endToken_height (s : State) : (s.endToken).height = s.height := rfl
@[simp] theorem State.endToken_outLen (s : State) : (s.endToken).outLen = s.outLen := rfl
@[simp] theorem State.endToken_ip (s : State) : (s.endToken).ip = s.ip := rfl
@[simp] theorem State.endToken_palSel (s : State) : (s.endToken).palSel = s.palSel := rfl
@[simp] theorem State.endToken_transp (s : State) : (s.endToken).transp = s.transp := rfl
@[simp] theorem State.endToken_palIdx (s : State) : (s.endToken).palIdx = s.palIdx := rfl
@[simp] theorem State.endToken_palRgb (s : State) : (s.endToken).palRgb = s.palRgb := rfl
@[simp] theorem State.endToken_inCap (s : State) : (s.endToken).inCap = s.inCap := rfl
@[simp] theorem State.endToken_outCap (s : State) : (s.endToken).outCap = s.outCap := rfl
@[simp] theorem State.endToken_rasterCap (s : State) : (s.endToken).rasterCap = s.rasterCap := rfl
@[simp] theorem State.endToken_phase (s : State) : (s.endToken).phase = .fetch := rfl
@[simp] theorem State.endToken_wC (s : State) : (s.endToken).wC = s.wC := rfl
@[simp] theorem State.endToken_wCnt (s : State) : (s.endToken).wCnt = 0#9 := rfl
@[simp] theorem State.endToken_wSrc (s : State) : (s.endToken).wSrc = s.wSrc := rfl
@[simp] theorem State.endToken_inMem (s : State) : (s.endToken).inMem = s.inMem := rfl
@[simp] theorem State.endToken_outMem (s : State) : (s.endToken).outMem = s.outMem := rfl
@[simp] theorem State.endToken_rasterMem (s : State) : (s.endToken).rasterMem = s.rasterMem := rfl
@[simp] theorem State.endToken_rom0 (s : State) : (s.endToken).rom0 = s.rom0 := rfl
@[simp] theorem State.endToken_rom1 (s : State) : (s.endToken).rom1 = s.rom1 := rfl
@[simp] theorem State.endToken_sched (s : State) : (s.endToken).sched = s.sched := rfl
@[simp] theorem State.endToken_busData (s : State) : (s.endToken).busData = s.busData := rfl
@[simp] theorem State.endToken_epoch (s : State) : (s.endToken).epoch = s.epoch := rfl
@[simp] theorem State.endToken_draws (s : State) : (s.endToken).draws = s.draws := rfl

/-! ## The end of a copy step -/

@[simp] theorem State.countDown_status (s : State) : (s.countDown).status = s.status := rfl
@[simp] theorem State.countDown_errCode (s : State) : (s.countDown).errCode = s.errCode := rfl
@[simp] theorem State.countDown_errPos (s : State) : (s.countDown).errPos = s.errPos := rfl
@[simp] theorem State.countDown_errExpected (s : State) : (s.countDown).errExpected = s.errExpected := rfl
@[simp] theorem State.countDown_errAvailable (s : State) : (s.countDown).errAvailable = s.errAvailable := rfl
@[simp] theorem State.countDown_inLen (s : State) : (s.countDown).inLen = s.inLen := rfl
@[simp] theorem State.countDown_hdrTag (s : State) : (s.countDown).hdrTag = s.hdrTag := rfl
@[simp] theorem State.countDown_width (s : State) : (s.countDown).width = s.width := rfl
@[simp] theorem State.countDown_height (s : State) : (s.countDown).height = s.height := rfl
@[simp] theorem State.countDown_outLen (s : State) : (s.countDown).outLen = s.outLen := rfl
@[simp] theorem State.countDown_ip (s : State) : (s.countDown).ip = s.ip := rfl
@[simp] theorem State.countDown_palSel (s : State) : (s.countDown).palSel = s.palSel := rfl
@[simp] theorem State.countDown_transp (s : State) : (s.countDown).transp = s.transp := rfl
@[simp] theorem State.countDown_palIdx (s : State) : (s.countDown).palIdx = s.palIdx := rfl
@[simp] theorem State.countDown_palRgb (s : State) : (s.countDown).palRgb = s.palRgb := rfl
@[simp] theorem State.countDown_inCap (s : State) : (s.countDown).inCap = s.inCap := rfl
@[simp] theorem State.countDown_outCap (s : State) : (s.countDown).outCap = s.outCap := rfl
@[simp] theorem State.countDown_rasterCap (s : State) : (s.countDown).rasterCap = s.rasterCap := rfl
@[simp] theorem State.countDown_phase (s : State) : (s.countDown).phase = if s.wCnt - 1#9 = 0#9 then .fetch else s.phase := rfl
@[simp] theorem State.countDown_wC (s : State) : (s.countDown).wC = s.wC := rfl
@[simp] theorem State.countDown_wCnt (s : State) : (s.countDown).wCnt = s.wCnt - 1#9 := rfl
@[simp] theorem State.countDown_wSrc (s : State) : (s.countDown).wSrc = s.wSrc := rfl
@[simp] theorem State.countDown_inMem (s : State) : (s.countDown).inMem = s.inMem := rfl
@[simp] theorem State.countDown_outMem (s : State) : (s.countDown).outMem = s.outMem := rfl
@[simp] theorem State.countDown_rasterMem (s : State) : (s.countDown).rasterMem = s.rasterMem := rfl
@[simp] theorem State.countDown_rom0 (s : State) : (s.countDown).rom0 = s.rom0 := rfl
@[simp] theorem State.countDown_rom1 (s : State) : (s.countDown).rom1 = s.rom1 := rfl
@[simp] theorem State.countDown_sched (s : State) : (s.countDown).sched = s.sched := rfl
@[simp] theorem State.countDown_busData (s : State) : (s.countDown).busData = s.busData := rfl
@[simp] theorem State.countDown_epoch (s : State) : (s.countDown).epoch = s.epoch := rfl
@[simp] theorem State.countDown_draws (s : State) : (s.countDown).draws = s.draws := rfl

/-! ## Advancing w.SRC -/

@[simp] theorem State.nextSrc_status (s : State) : (s.nextSrc).status = s.status := rfl
@[simp] theorem State.nextSrc_errCode (s : State) : (s.nextSrc).errCode = s.errCode := rfl
@[simp] theorem State.nextSrc_errPos (s : State) : (s.nextSrc).errPos = s.errPos := rfl
@[simp] theorem State.nextSrc_errExpected (s : State) : (s.nextSrc).errExpected = s.errExpected := rfl
@[simp] theorem State.nextSrc_errAvailable (s : State) : (s.nextSrc).errAvailable = s.errAvailable := rfl
@[simp] theorem State.nextSrc_inLen (s : State) : (s.nextSrc).inLen = s.inLen := rfl
@[simp] theorem State.nextSrc_hdrTag (s : State) : (s.nextSrc).hdrTag = s.hdrTag := rfl
@[simp] theorem State.nextSrc_width (s : State) : (s.nextSrc).width = s.width := rfl
@[simp] theorem State.nextSrc_height (s : State) : (s.nextSrc).height = s.height := rfl
@[simp] theorem State.nextSrc_outLen (s : State) : (s.nextSrc).outLen = s.outLen := rfl
@[simp] theorem State.nextSrc_ip (s : State) : (s.nextSrc).ip = s.ip := rfl
@[simp] theorem State.nextSrc_palSel (s : State) : (s.nextSrc).palSel = s.palSel := rfl
@[simp] theorem State.nextSrc_transp (s : State) : (s.nextSrc).transp = s.transp := rfl
@[simp] theorem State.nextSrc_palIdx (s : State) : (s.nextSrc).palIdx = s.palIdx := rfl
@[simp] theorem State.nextSrc_palRgb (s : State) : (s.nextSrc).palRgb = s.palRgb := rfl
@[simp] theorem State.nextSrc_inCap (s : State) : (s.nextSrc).inCap = s.inCap := rfl
@[simp] theorem State.nextSrc_outCap (s : State) : (s.nextSrc).outCap = s.outCap := rfl
@[simp] theorem State.nextSrc_rasterCap (s : State) : (s.nextSrc).rasterCap = s.rasterCap := rfl
@[simp] theorem State.nextSrc_phase (s : State) : (s.nextSrc).phase = s.phase := rfl
@[simp] theorem State.nextSrc_wC (s : State) : (s.nextSrc).wC = s.wC := rfl
@[simp] theorem State.nextSrc_wCnt (s : State) : (s.nextSrc).wCnt = s.wCnt := rfl
@[simp] theorem State.nextSrc_wSrc (s : State) : (s.nextSrc).wSrc = s.wSrc + 1#32 := rfl
@[simp] theorem State.nextSrc_inMem (s : State) : (s.nextSrc).inMem = s.inMem := rfl
@[simp] theorem State.nextSrc_outMem (s : State) : (s.nextSrc).outMem = s.outMem := rfl
@[simp] theorem State.nextSrc_rasterMem (s : State) : (s.nextSrc).rasterMem = s.rasterMem := rfl
@[simp] theorem State.nextSrc_rom0 (s : State) : (s.nextSrc).rom0 = s.rom0 := rfl
@[simp] theorem State.nextSrc_rom1 (s : State) : (s.nextSrc).rom1 = s.rom1 := rfl
@[simp] theorem State.nextSrc_sched (s : State) : (s.nextSrc).sched = s.sched := rfl
@[simp] theorem State.nextSrc_busData (s : State) : (s.nextSrc).busData = s.busData := rfl
@[simp] theorem State.nextSrc_epoch (s : State) : (s.nextSrc).epoch = s.epoch := rfl
@[simp] theorem State.nextSrc_draws (s : State) : (s.nextSrc).draws = s.draws := rfl

/-! ## Appending a run -/

@[simp] theorem State.appendRun_status (s : State) (l : List Byte) : (s.appendRun l).status = s.status := rfl
@[simp] theorem State.appendRun_errCode (s : State) (l : List Byte) : (s.appendRun l).errCode = s.errCode := rfl
@[simp] theorem State.appendRun_errPos (s : State) (l : List Byte) : (s.appendRun l).errPos = s.errPos := rfl
@[simp] theorem State.appendRun_errExpected (s : State) (l : List Byte) : (s.appendRun l).errExpected = s.errExpected := rfl
@[simp] theorem State.appendRun_errAvailable (s : State) (l : List Byte) : (s.appendRun l).errAvailable = s.errAvailable := rfl
@[simp] theorem State.appendRun_inLen (s : State) (l : List Byte) : (s.appendRun l).inLen = s.inLen := rfl
@[simp] theorem State.appendRun_hdrTag (s : State) (l : List Byte) : (s.appendRun l).hdrTag = s.hdrTag := rfl
@[simp] theorem State.appendRun_width (s : State) (l : List Byte) : (s.appendRun l).width = s.width := rfl
@[simp] theorem State.appendRun_height (s : State) (l : List Byte) : (s.appendRun l).height = s.height := rfl
@[simp] theorem State.appendRun_outLen (s : State) (l : List Byte) : (s.appendRun l).outLen = s.outLen + BitVec.ofNat 32 l.length := rfl
@[simp] theorem State.appendRun_ip (s : State) (l : List Byte) : (s.appendRun l).ip = s.ip := rfl
@[simp] theorem State.appendRun_palSel (s : State) (l : List Byte) : (s.appendRun l).palSel = s.palSel := rfl
@[simp] theorem State.appendRun_transp (s : State) (l : List Byte) : (s.appendRun l).transp = s.transp := rfl
@[simp] theorem State.appendRun_palIdx (s : State) (l : List Byte) : (s.appendRun l).palIdx = s.palIdx := rfl
@[simp] theorem State.appendRun_palRgb (s : State) (l : List Byte) : (s.appendRun l).palRgb = s.palRgb := rfl
@[simp] theorem State.appendRun_inCap (s : State) (l : List Byte) : (s.appendRun l).inCap = s.inCap := rfl
@[simp] theorem State.appendRun_outCap (s : State) (l : List Byte) : (s.appendRun l).outCap = s.outCap := rfl
@[simp] theorem State.appendRun_rasterCap (s : State) (l : List Byte) : (s.appendRun l).rasterCap = s.rasterCap := rfl
@[simp] theorem State.appendRun_phase (s : State) (l : List Byte) : (s.appendRun l).phase = s.phase := rfl
@[simp] theorem State.appendRun_wC (s : State) (l : List Byte) : (s.appendRun l).wC = s.wC := rfl
@[simp] theorem State.appendRun_wCnt (s : State) (l : List Byte) : (s.appendRun l).wCnt = s.wCnt := rfl
@[simp] theorem State.appendRun_wSrc (s : State) (l : List Byte) : (s.appendRun l).wSrc = s.wSrc := rfl
@[simp] theorem State.appendRun_inMem (s : State) (l : List Byte) : (s.appendRun l).inMem = s.inMem := rfl
@[simp] theorem State.appendRun_outMem (s : State) (l : List Byte) : (s.appendRun l).outMem = s.outMem.writeAll s.outLen.toNat l := rfl
@[simp] theorem State.appendRun_rasterMem (s : State) (l : List Byte) : (s.appendRun l).rasterMem = s.rasterMem := rfl
@[simp] theorem State.appendRun_rom0 (s : State) (l : List Byte) : (s.appendRun l).rom0 = s.rom0 := rfl
@[simp] theorem State.appendRun_rom1 (s : State) (l : List Byte) : (s.appendRun l).rom1 = s.rom1 := rfl
@[simp] theorem State.appendRun_sched (s : State) (l : List Byte) : (s.appendRun l).sched = s.sched := rfl
@[simp] theorem State.appendRun_busData (s : State) (l : List Byte) : (s.appendRun l).busData = s.busData := rfl
@[simp] theorem State.appendRun_epoch (s : State) (l : List Byte) : (s.appendRun l).epoch = s.epoch := rfl
@[simp] theorem State.appendRun_draws (s : State) (l : List Byte) : (s.appendRun l).draws = s.draws := rfl

/-! ## Replacing the moves to come -/

@[simp] theorem State.withSched_status (s : State) (l : List Move) : (s.withSched l).status = s.status := rfl
@[simp] theorem State.withSched_errCode (s : State) (l : List Move) : (s.withSched l).errCode = s.errCode := rfl
@[simp] theorem State.withSched_errPos (s : State) (l : List Move) : (s.withSched l).errPos = s.errPos := rfl
@[simp] theorem State.withSched_errExpected (s : State) (l : List Move) : (s.withSched l).errExpected = s.errExpected := rfl
@[simp] theorem State.withSched_errAvailable (s : State) (l : List Move) : (s.withSched l).errAvailable = s.errAvailable := rfl
@[simp] theorem State.withSched_inLen (s : State) (l : List Move) : (s.withSched l).inLen = s.inLen := rfl
@[simp] theorem State.withSched_hdrTag (s : State) (l : List Move) : (s.withSched l).hdrTag = s.hdrTag := rfl
@[simp] theorem State.withSched_width (s : State) (l : List Move) : (s.withSched l).width = s.width := rfl
@[simp] theorem State.withSched_height (s : State) (l : List Move) : (s.withSched l).height = s.height := rfl
@[simp] theorem State.withSched_outLen (s : State) (l : List Move) : (s.withSched l).outLen = s.outLen := rfl
@[simp] theorem State.withSched_ip (s : State) (l : List Move) : (s.withSched l).ip = s.ip := rfl
@[simp] theorem State.withSched_palSel (s : State) (l : List Move) : (s.withSched l).palSel = s.palSel := rfl
@[simp] theorem State.withSched_transp (s : State) (l : List Move) : (s.withSched l).transp = s.transp := rfl
@[simp] theorem State.withSched_palIdx (s : State) (l : List Move) : (s.withSched l).palIdx = s.palIdx := rfl
@[simp] theorem State.withSched_palRgb (s : State) (l : List Move) : (s.withSched l).palRgb = s.palRgb := rfl
@[simp] theorem State.withSched_inCap (s : State) (l : List Move) : (s.withSched l).inCap = s.inCap := rfl
@[simp] theorem State.withSched_outCap (s : State) (l : List Move) : (s.withSched l).outCap = s.outCap := rfl
@[simp] theorem State.withSched_rasterCap (s : State) (l : List Move) : (s.withSched l).rasterCap = s.rasterCap := rfl
@[simp] theorem State.withSched_phase (s : State) (l : List Move) : (s.withSched l).phase = s.phase := rfl
@[simp] theorem State.withSched_wC (s : State) (l : List Move) : (s.withSched l).wC = s.wC := rfl
@[simp] theorem State.withSched_wCnt (s : State) (l : List Move) : (s.withSched l).wCnt = s.wCnt := rfl
@[simp] theorem State.withSched_wSrc (s : State) (l : List Move) : (s.withSched l).wSrc = s.wSrc := rfl
@[simp] theorem State.withSched_inMem (s : State) (l : List Move) : (s.withSched l).inMem = s.inMem := rfl
@[simp] theorem State.withSched_outMem (s : State) (l : List Move) : (s.withSched l).outMem = s.outMem := rfl
@[simp] theorem State.withSched_rasterMem (s : State) (l : List Move) : (s.withSched l).rasterMem = s.rasterMem := rfl
@[simp] theorem State.withSched_rom0 (s : State) (l : List Move) : (s.withSched l).rom0 = s.rom0 := rfl
@[simp] theorem State.withSched_rom1 (s : State) (l : List Move) : (s.withSched l).rom1 = s.rom1 := rfl
@[simp] theorem State.withSched_sched (s : State) (l : List Move) : (s.withSched l).sched = l := rfl
@[simp] theorem State.withSched_busData (s : State) (l : List Move) : (s.withSched l).busData = s.busData := rfl
@[simp] theorem State.withSched_epoch (s : State) (l : List Move) : (s.withSched l).epoch = s.epoch := rfl
@[simp] theorem State.withSched_draws (s : State) (l : List Move) : (s.withSched l).draws = s.draws := rfl

/-! ## Reset -/

@[simp] theorem State.assertReset_status (s : State) : s.assertReset.status = State.reset.status := rfl
@[simp] theorem State.assertReset_errCode (s : State) : s.assertReset.errCode = State.reset.errCode := rfl
@[simp] theorem State.assertReset_errPos (s : State) : s.assertReset.errPos = State.reset.errPos := rfl
@[simp] theorem State.assertReset_errExpected (s : State) : s.assertReset.errExpected = State.reset.errExpected := rfl
@[simp] theorem State.assertReset_errAvailable (s : State) : s.assertReset.errAvailable = State.reset.errAvailable := rfl
@[simp] theorem State.assertReset_inLen (s : State) : s.assertReset.inLen = State.reset.inLen := rfl
@[simp] theorem State.assertReset_hdrTag (s : State) : s.assertReset.hdrTag = State.reset.hdrTag := rfl
@[simp] theorem State.assertReset_width (s : State) : s.assertReset.width = State.reset.width := rfl
@[simp] theorem State.assertReset_height (s : State) : s.assertReset.height = State.reset.height := rfl
@[simp] theorem State.assertReset_outLen (s : State) : s.assertReset.outLen = State.reset.outLen := rfl
@[simp] theorem State.assertReset_ip (s : State) : s.assertReset.ip = State.reset.ip := rfl
@[simp] theorem State.assertReset_palSel (s : State) : s.assertReset.palSel = State.reset.palSel := rfl
@[simp] theorem State.assertReset_transp (s : State) : s.assertReset.transp = State.reset.transp := rfl
@[simp] theorem State.assertReset_palIdx (s : State) : s.assertReset.palIdx = State.reset.palIdx := rfl
@[simp] theorem State.assertReset_palRgb (s : State) : s.assertReset.palRgb = State.reset.palRgb := rfl
@[simp] theorem State.assertReset_inCap (s : State) : s.assertReset.inCap = s.inCap := rfl
@[simp] theorem State.assertReset_outCap (s : State) : s.assertReset.outCap = s.outCap := rfl
@[simp] theorem State.assertReset_rasterCap (s : State) : s.assertReset.rasterCap = s.rasterCap := rfl
@[simp] theorem State.assertReset_phase (s : State) : s.assertReset.phase = State.reset.phase := rfl
@[simp] theorem State.assertReset_wC (s : State) : s.assertReset.wC = State.reset.wC := rfl
@[simp] theorem State.assertReset_wCnt (s : State) : s.assertReset.wCnt = State.reset.wCnt := rfl
@[simp] theorem State.assertReset_wSrc (s : State) : s.assertReset.wSrc = State.reset.wSrc := rfl
@[simp] theorem State.assertReset_inMem (s : State) : s.assertReset.inMem = State.reset.inMem := rfl
@[simp] theorem State.assertReset_outMem (s : State) : s.assertReset.outMem = State.reset.outMem := rfl
@[simp] theorem State.assertReset_rasterMem (s : State) : s.assertReset.rasterMem = State.reset.rasterMem := rfl
@[simp] theorem State.assertReset_rom0 (s : State) : s.assertReset.rom0 = s.rom0 := rfl
@[simp] theorem State.assertReset_rom1 (s : State) : s.assertReset.rom1 = s.rom1 := rfl
@[simp] theorem State.assertReset_sched (s : State) : s.assertReset.sched = s.sched := rfl
@[simp] theorem State.assertReset_busData (s : State) : s.assertReset.busData = s.busData := rfl
@[simp] theorem State.assertReset_epoch (s : State) : s.assertReset.epoch = s.epoch + 1 := rfl
@[simp] theorem State.assertReset_draws (s : State) : s.assertReset.draws = s.draws := rfl

/-! ## Reading the memories after an update that leaves them alone -/

@[simp] theorem State.raise_readByte (s : State) (e : ErrorReport) (sp : Space) (i : Nat) :
    (s.raise e).readByte sp i = s.readByte sp i := by cases sp <;> rfl
@[simp] theorem State.finish_readByte (s : State) (sp : Space) (i : Nat) :
    (s.finish).readByte sp i = s.readByte sp i := by cases sp <;> rfl
@[simp] theorem State.accept_readByte (s : State) (p : Phase) (sp : Space) (i : Nat) :
    (s.accept p).readByte sp i = s.readByte sp i := by cases sp <;> rfl
@[simp] theorem State.latch_readByte (s : State) (c : Byte) (sp : Space) (i : Nat) :
    (s.latch c).readByte sp i = s.readByte sp i := by cases sp <;> rfl
@[simp] theorem State.advance_readByte (s : State) (n : Nat) (sp : Space) (i : Nat) :
    (s.advance n).readByte sp i = s.readByte sp i := by cases sp <;> rfl
@[simp] theorem State.setSrc_readByte (s : State) (n : Nat) (sp : Space) (i : Nat) :
    (s.setSrc n).readByte sp i = s.readByte sp i := by cases sp <;> rfl
@[simp] theorem State.beginCopy_readByte (s : State) (n : Nat) (p : Phase) (sp : Space) (i : Nat) :
    (s.beginCopy n p).readByte sp i = s.readByte sp i := by cases sp <;> rfl
@[simp] theorem State.endToken_readByte (s : State) (sp : Space) (i : Nat) :
    (s.endToken).readByte sp i = s.readByte sp i := by cases sp <;> rfl
@[simp] theorem State.countDown_readByte (s : State) (sp : Space) (i : Nat) :
    (s.countDown).readByte sp i = s.readByte sp i := by cases sp <;> rfl
@[simp] theorem State.nextSrc_readByte (s : State) (sp : Space) (i : Nat) :
    (s.nextSrc).readByte sp i = s.readByte sp i := by cases sp <;> rfl
@[simp] theorem State.withSched_readByte (s : State) (l : List Move) (sp : Space) (i : Nat) :
    (s.withSched l).readByte sp i = s.readByte sp i := by cases sp <;> rfl

end Sys2Proof.Machine
end

