-- ==== Sys2Proof/Laws/Memory.lean ====
section
/-! SUPPORT. The laws of the memories: reads after writes, and that every memory operation keeps the canonical form
and the bound on the addresses. -/

namespace Sys2Proof.Machine

@[simp] theorem Memory.read?_nil (a : Nat) : Memory.read? [] a = none := rfl

/-- A write is read back where it was made, and leaves every other index alone. -/
theorem Memory.read?_write (m : Memory) (a b : Nat) (v : Byte) :
    (m.write a v).read? b = if a = b then some v else m.read? b := by
  induction m with
  | nil => simp [Memory.write, Memory.read?]
  | cons c m ih =>
    obtain ⟨c, w⟩ := c
    simp only [Memory.write]
    split
    · simp [Memory.read?]
    · split
      · subst_vars; simp only [Memory.read?]; split <;> simp_all
      · simp only [Memory.read?, ih]; split <;> simp_all

@[simp] theorem Memory.read?_write_self (m : Memory) (a : Nat) (v : Byte) : (m.write a v).read? a = some v := by
  simp [Memory.read?_write]

/-- Writing a list of bytes: inside the range the bytes, outside it what was there. -/
theorem Memory.read?_writeAll (m : Memory) (a b : Nat) (vs : List Byte) :
    (m.writeAll a vs).read? b = if h : a ≤ b ∧ b < a + vs.length then some (vs[b - a]'(by omega)) else m.read? b := by
  induction vs generalizing m a with
  | nil => simp [Memory.writeAll]
  | cons v vs ih =>
    rw [Memory.writeAll, ih, Memory.read?_write]
    by_cases h1 : b = a
    · subst h1; simp
    · by_cases h2 : a + 1 ≤ b ∧ b < a + 1 + vs.length
      · rw [dif_pos h2, dif_pos (by simp; omega)]
        congr 1
        rw [List.getElem_cons, dif_neg (by omega)]
        congr 1
      · rw [dif_neg h2, dif_neg (by simp; omega), if_neg (by omega)]

/-- What a written memory lists: the new cell and old cells of other indices. -/
theorem Memory.mem_write {m : Memory} {a : Nat} {v : Byte} {c : Host.Cell} (h : c ∈ m.write a v) :
    c = (a, v) ∨ c ∈ m := by
  induction m with
  | nil => simpa [Memory.write] using h
  | cons d m ih =>
    obtain ⟨d, w⟩ := d
    simp only [Memory.write] at h
    split at h
    · simpa using h
    · split at h
      · simp at h ⊢; tauto
      · simp at h ⊢; tauto

theorem Memory.write_wf {m : Memory} (h : m.wf) (a : Nat) (v : Byte) : (m.write a v).wf := by
  induction m with
  | nil => simp [Memory.write, Memory.wf]
  | cons d m ih =>
    obtain ⟨d, w⟩ := d
    obtain ⟨hd, hm⟩ := List.pairwise_cons.mp h
    simp only [Memory.write]
    split
    · refine List.pairwise_cons.mpr ⟨?_, h⟩
      intro c hc
      rcases List.mem_cons.mp hc with rfl | hc
      · assumption
      · have := hd c hc; simp only at *; omega
    · split
      · subst_vars; exact List.pairwise_cons.mpr ⟨hd, hm⟩
      · refine List.pairwise_cons.mpr ⟨?_, ih hm⟩
        intro c hc
        rcases Memory.mem_write hc with rfl | hc
        · simp only; omega
        · exact hd c hc

theorem Memory.writeAll_wf {m : Memory} (h : m.wf) (a : Nat) (vs : List Byte) : (m.writeAll a vs).wf := by
  induction vs generalizing m a with
  | nil => exact h
  | cons v vs ih => exact ih (Memory.write_wf h a v) _

theorem Memory.write_below {m : Memory} {n : Nat} (h : m.below n) {a : Nat} (ha : a < n) (v : Byte) :
    (m.write a v).below n := by
  intro c hc
  rcases Memory.mem_write hc with rfl | hc
  · exact ha
  · exact h c hc

theorem Memory.writeAll_below {m : Memory} {n : Nat} (h : m.below n) {a : Nat} {vs : List Byte}
    (ha : a + vs.length ≤ n) : (m.writeAll a vs).below n := by
  induction vs generalizing m a with
  | nil => exact h
  | cons v vs ih =>
    simp only [List.length_cons] at ha
    exact ih (Memory.write_below h (by omega) v) (by omega)

theorem State.reset_inMem_wf : State.reset.inMem.wf := List.Pairwise.nil
theorem State.reset_outMem_wf : State.reset.outMem.wf := List.Pairwise.nil
theorem State.reset_rasterMem_wf : State.reset.rasterMem.wf := List.Pairwise.nil

/-- Two memories in canonical form that read alike are the same list. -/
theorem Memory.ext_read? {m n : Memory} (hm : m.wf) (hn : n.wf) (h : ∀ a, m.read? a = n.read? a) : m = n := by
  have low : ∀ {m : Memory} {a : Nat}, (∀ c ∈ m, a < c.1) → m.read? a = none := by
    intro m a hlow
    induction m with
    | nil => rfl
    | cons c m ih =>
      obtain ⟨c, w⟩ := c
      have := hlow (c, w) (by simp)
      simp only [Memory.read?]
      rw [if_neg (by simp only at this; omega)]
      exact ih (fun d hd => hlow d (by simp [hd]))
  induction m generalizing n with
  | nil =>
    cases n with
    | nil => rfl
    | cons d n => obtain ⟨d, w⟩ := d; simpa [Memory.read?] using h d
  | cons c m ih =>
    obtain ⟨c, v⟩ := c
    obtain ⟨hc, hm'⟩ := List.pairwise_cons.mp hm
    cases n with
    | nil => simpa [Memory.read?] using h c
    | cons d n =>
      obtain ⟨d, w⟩ := d
      obtain ⟨hd, hn'⟩ := List.pairwise_cons.mp hn
      have hcd : c = d := by
        rcases Nat.lt_trichotomy c d with hlt | heq | hgt
        · have h1 := h c
          rw [low (m := (d, w) :: n) (by
            intro x hx; rcases List.mem_cons.mp hx with rfl | hx
            · exact hlt
            · exact Nat.lt_trans hlt (hd x hx))] at h1
          simp [Memory.read?] at h1
        · exact heq
        · have h1 := h d
          rw [low (m := (c, v) :: m) (by
            intro x hx; rcases List.mem_cons.mp hx with rfl | hx
            · exact hgt
            · exact Nat.lt_trans hgt (hc x hx))] at h1
          simp [Memory.read?] at h1
      subst hcd
      have hvw : v = w := by simpa [Memory.read?] using h c
      subst hvw
      congr 1
      refine ih hm' hn' fun a => ?_
      by_cases ha : c = a
      · subst ha; rw [low hc, low hd]
      · simpa [Memory.read?, ha] using h a

/-- What a byte of a space reads as depends on that space's memory and the epoch alone. -/
theorem State.readByte_congr {s t : State} {sp : Space} (h : s.mem sp = t.mem sp) (he : s.epoch = t.epoch) (a : Nat) :
    s.readByte sp a = t.readByte sp a := by
  rw [State.readByte, State.readByte, h, he]

/-- A value of 32 bits is not changed by saturation. -/
theorem toNat_sat32 {n : Nat} (h : n ≤ 0xFFFFFFFF) : (sat32 n).toNat = n := by
  simp only [sat32, BitVec.toNat_ofNat]; omega

@[simp] theorem sat32_toNat (w : Word) : sat32 w.toNat = w := by
  apply BitVec.eq_of_toNat_eq
  rw [toNat_sat32]
  have := w.isLt
  omega

/-- Memory reads of the state after a byte is appended. -/
theorem State.appendOut_readByte_output (s : State) (v : Byte) (a : Nat) :
    (s.appendOut v).readByte .output a = if s.outLen.toNat = a then v else s.readByte .output a := by
  simp only [State.readByte, State.mem, State.appendOut_outMem, State.appendOut_epoch, Memory.read?_write]
  split <;> rfl

@[simp] theorem State.appendOut_readByte_input (s : State) (v : Byte) (a : Nat) :
    (s.appendOut v).readByte .input a = s.readByte .input a := rfl

@[simp] theorem State.readBytes_length (s : State) (sp : Space) (a n : Nat) : (s.readBytes sp a n).length = n := by
  induction n generalizing a with
  | zero => rfl
  | succ n ih => simp [State.readBytes, ih]

theorem State.readBytes_getElem (s : State) (sp : Space) (a n k : Nat) (h : k < (s.readBytes sp a n).length) :
    (s.readBytes sp a n)[k] = s.readByte sp (a + k) := by
  induction n generalizing a k with
  | zero => simp [State.readBytes] at h
  | succ n ih =>
    cases k with
    | zero => rfl
    | succ k =>
      simp only [State.readBytes, List.getElem_cons_succ]
      rw [ih]
      congr 1; omega

end Sys2Proof.Machine
end

