-- ==== Sys2Proof/Laws/Lzss.lean ====
section
/-! SUPPORT. Laws of the decompressor: when a token's checks pass and what they answer, what a token does, what the
copy loop does, what each atomic step does. -/

namespace Sys2Proof.Machine

/-! ## The checks -/

@[simp] theorem State.latch_availableAfterControl (s : State) (c : Byte) :
    (s.latch c).availableAfterControl = s.availableAfterControl := rfl

@[simp] theorem overflowError_latch (n : Nat) (s : State) (c : Byte) :
    overflowError n (s.latch c) = overflowError n s := rfl

@[simp] theorem litError_latch (n : Nat) (s : State) (c : Byte) : litError n (s.latch c) = litError n s := rfl

@[simp] theorem brefSource_latch (s : State) (c0 c b1 : Byte) : brefSource (s.latch c0) c b1 = brefSource s c b1 := rfl

@[simp] theorem brefError_latch (c b1 b2 c0 : Byte) (s : State) :
    brefError c b1 b2 (s.latch c0) = brefError c b1 b2 s := rfl

/-- Everything the checks of LIT answer. -/
theorem litError_cases (n : Nat) (s : State) :
    (n ≤ s.availableAfterControl ∧ s.outLen.toNat + n ≤ s.outCap.toNat ∧ litError n s = none) ∨
    (s.availableAfterControl < n ∧
      litError n s = some ⟨.truncatedStream, s.ip.toNat, n, s.availableAfterControl⟩) ∨
    (n ≤ s.availableAfterControl ∧ s.outCap.toNat < s.outLen.toNat + n ∧
      litError n s = some ⟨.outputOverflow, s.ip.toNat, n, s.outCap.toNat - s.outLen.toNat⟩) := by
  unfold litError overflowError
  split
  · exact .inr (.inl ⟨‹_›, rfl⟩)
  · split
    · exact .inr (.inr ⟨by omega, by omega, rfl⟩)
    · exact .inl ⟨by omega, by omega, rfl⟩

/-- The checks of LIT pass exactly when the bytes are there and OUT has room (R116, R117). -/
theorem litError_eq_none {n : Nat} {s : State} :
    litError n s = none ↔ n ≤ s.availableAfterControl ∧ s.outLen.toNat + n ≤ s.outCap.toNat := by
  rcases litError_cases n s with ⟨h1, h2, h⟩ | ⟨h1, h⟩ | ⟨h1, h2, h⟩ <;> simp [h] <;> omega

/-- Everything the checks of BREF answer, for a control byte whose match flag is 1 (R119 to R121). -/
theorem brefError_cases {c : Byte} (hc : matchFlag c = true) (b1 b2 : Byte) (s : State) :
    (2 ≤ s.availableAfterControl ∧ brefDistance c b1 ≤ s.outLen.toNat ∧
      s.outLen.toNat + copyLength b2 ≤ s.outCap.toNat ∧ brefError c b1 b2 s = none) ∨
    (s.availableAfterControl < 2 ∧
      brefError c b1 b2 s = some ⟨.truncatedStream, s.ip.toNat, 2, s.availableAfterControl⟩) ∨
    (2 ≤ s.availableAfterControl ∧ s.outLen.toNat < brefDistance c b1 ∧
      brefError c b1 b2 s = some ⟨.invalidBackreference, s.ip.toNat, brefDistance c b1, s.outLen.toNat⟩) ∨
    (2 ≤ s.availableAfterControl ∧ brefDistance c b1 ≤ s.outLen.toNat ∧
      s.outCap.toNat < s.outLen.toNat + copyLength b2 ∧
      brefError c b1 b2 s =
        some ⟨.outputOverflow, s.ip.toNat, copyLength b2, s.outCap.toNat - s.outLen.toNat⟩) := by
  have h1 := brefDistance_bounds hc b1
  unfold brefError overflowError brefSource
  rw [brefOffset_eq hc]
  split
  · exact .inr (.inl ⟨‹_›, rfl⟩)
  · split
    · exact .inr (.inr (.inl ⟨by omega, by omega, rfl⟩))
    · split
      · exact .inr (.inr (.inr ⟨by omega, by omega, by omega, rfl⟩))
      · exact .inl ⟨by omega, by omega, by omega, rfl⟩

/-- The source index of a BREF with enough history (R95, R120). -/
theorem brefSource_toNat {c : Byte} (hc : matchFlag c = true) {b1 : Byte} {s : State}
    (h : brefDistance c b1 ≤ s.outLen.toNat) :
    (brefSource s c b1).toNat = s.outLen.toNat - brefDistance c b1 := by
  rw [brefSource, brefOffset_eq hc]; omega

/-! ## The copy loop -/

/-- The copy loop changes OUT and OUT_LEN only, and OUT_LEN by n. -/
theorem copyLoop_eq (n src : Nat) (s : State) :
    copyLoop n src s =
      { s with outMem := (copyLoop n src s).outMem, outLen := s.outLen + BitVec.ofNat 32 n } := by
  induction n generalizing src s with
  | zero => simp [copyLoop]
  | succ n ih =>
    rw [copyLoop, ih]
    simp only [State.appendOut, BitVec.add_assoc]
    congr 2
    apply BitVec.eq_of_toNat_eq
    simp [Nat.add_comm]

@[simp] theorem copyLoop_status (n src : Nat) (s : State) : (copyLoop n src s).status = s.status := by rw [copyLoop_eq]
@[simp] theorem copyLoop_errCode (n src : Nat) (s : State) : (copyLoop n src s).errCode = s.errCode := by rw [copyLoop_eq]
@[simp] theorem copyLoop_errPos (n src : Nat) (s : State) : (copyLoop n src s).errPos = s.errPos := by rw [copyLoop_eq]
@[simp] theorem copyLoop_errExpected (n src : Nat) (s : State) : (copyLoop n src s).errExpected = s.errExpected := by rw [copyLoop_eq]
@[simp] theorem copyLoop_errAvailable (n src : Nat) (s : State) : (copyLoop n src s).errAvailable = s.errAvailable := by rw [copyLoop_eq]
@[simp] theorem copyLoop_inLen (n src : Nat) (s : State) : (copyLoop n src s).inLen = s.inLen := by rw [copyLoop_eq]
@[simp] theorem copyLoop_hdrTag (n src : Nat) (s : State) : (copyLoop n src s).hdrTag = s.hdrTag := by rw [copyLoop_eq]
@[simp] theorem copyLoop_width (n src : Nat) (s : State) : (copyLoop n src s).width = s.width := by rw [copyLoop_eq]
@[simp] theorem copyLoop_height (n src : Nat) (s : State) : (copyLoop n src s).height = s.height := by rw [copyLoop_eq]
@[simp] theorem copyLoop_ip (n src : Nat) (s : State) : (copyLoop n src s).ip = s.ip := by rw [copyLoop_eq]
@[simp] theorem copyLoop_palSel (n src : Nat) (s : State) : (copyLoop n src s).palSel = s.palSel := by rw [copyLoop_eq]
@[simp] theorem copyLoop_transp (n src : Nat) (s : State) : (copyLoop n src s).transp = s.transp := by rw [copyLoop_eq]
@[simp] theorem copyLoop_palIdx (n src : Nat) (s : State) : (copyLoop n src s).palIdx = s.palIdx := by rw [copyLoop_eq]
@[simp] theorem copyLoop_palRgb (n src : Nat) (s : State) : (copyLoop n src s).palRgb = s.palRgb := by rw [copyLoop_eq]
@[simp] theorem copyLoop_inCap (n src : Nat) (s : State) : (copyLoop n src s).inCap = s.inCap := by rw [copyLoop_eq]
@[simp] theorem copyLoop_outCap (n src : Nat) (s : State) : (copyLoop n src s).outCap = s.outCap := by rw [copyLoop_eq]
@[simp] theorem copyLoop_rasterCap (n src : Nat) (s : State) : (copyLoop n src s).rasterCap = s.rasterCap := by rw [copyLoop_eq]
@[simp] theorem copyLoop_phase (n src : Nat) (s : State) : (copyLoop n src s).phase = s.phase := by rw [copyLoop_eq]
@[simp] theorem copyLoop_wC (n src : Nat) (s : State) : (copyLoop n src s).wC = s.wC := by rw [copyLoop_eq]
@[simp] theorem copyLoop_wCnt (n src : Nat) (s : State) : (copyLoop n src s).wCnt = s.wCnt := by rw [copyLoop_eq]
@[simp] theorem copyLoop_wSrc (n src : Nat) (s : State) : (copyLoop n src s).wSrc = s.wSrc := by rw [copyLoop_eq]
@[simp] theorem copyLoop_inMem (n src : Nat) (s : State) : (copyLoop n src s).inMem = s.inMem := by rw [copyLoop_eq]
@[simp] theorem copyLoop_rasterMem (n src : Nat) (s : State) : (copyLoop n src s).rasterMem = s.rasterMem := by rw [copyLoop_eq]
@[simp] theorem copyLoop_rom0 (n src : Nat) (s : State) : (copyLoop n src s).rom0 = s.rom0 := by rw [copyLoop_eq]
@[simp] theorem copyLoop_rom1 (n src : Nat) (s : State) : (copyLoop n src s).rom1 = s.rom1 := by rw [copyLoop_eq]
@[simp] theorem copyLoop_sched (n src : Nat) (s : State) : (copyLoop n src s).sched = s.sched := by rw [copyLoop_eq]
@[simp] theorem copyLoop_busData (n src : Nat) (s : State) : (copyLoop n src s).busData = s.busData := by rw [copyLoop_eq]
@[simp] theorem copyLoop_epoch (n src : Nat) (s : State) : (copyLoop n src s).epoch = s.epoch := by rw [copyLoop_eq]
@[simp] theorem copyLoop_draws (n src : Nat) (s : State) : (copyLoop n src s).draws = s.draws := by rw [copyLoop_eq]
@[simp] theorem copyLoop_outLen (n src : Nat) (s : State) :
    (copyLoop n src s).outLen = s.outLen + BitVec.ofNat 32 n := by rw [copyLoop_eq]

@[simp] theorem copyLoop_readByte_input (n src : Nat) (s : State) (a : Nat) :
    (copyLoop n src s).readByte .input a = s.readByte .input a := by
  rw [State.readByte, State.readByte, State.mem, State.mem, copyLoop_inMem, copyLoop_epoch]

/-- OUT after a run is appended: the run's bytes from OUT_LEN on, and no other byte changes. -/
theorem State.appendRun_readByte_output (s : State) (l : List Byte) (a : Nat) :
    (s.appendRun l).readByte .output a =
      if h : s.outLen.toNat ≤ a ∧ a < s.outLen.toNat + l.length then l[a - s.outLen.toNat]'(by omega)
      else s.readByte .output a := by
  simp only [State.readByte, State.mem, State.appendRun_outMem, State.appendRun_epoch, Memory.read?_writeAll]
  split <;> rfl

@[simp] theorem State.appendRun_readByte_input (s : State) (l : List Byte) (a : Nat) :
    (s.appendRun l).readByte .input a = s.readByte .input a := rfl

/-- OUT_LEN moves by one as a number when it does not reach 2^32. -/
theorem toNat_add_one {x : Word} (h : x.toNat + 1 < 2 ^ 32) : (x + 1#32).toNat = x.toNat + 1 := by
  simp only [BitVec.toNat_add, BitVec.toNat_ofNat]; omega

theorem toNat_add_ofNat {x : Word} {n : Nat} (h : x.toNat + n < 2 ^ 32) :
    (x + BitVec.ofNat 32 n).toNat = x.toNat + n := by
  rw [BitVec.toNat_add, BitVec.toNat_ofNat, Nat.add_mod_mod, Nat.mod_eq_of_lt h]

/-- The remainder of the next number. -/
theorem succ_mod_cases (x d : Nat) (hd : 0 < d) :
    (x % d = d - 1 ∧ (x + 1) % d = 0) ∨ (x % d + 1 < d ∧ (x + 1) % d = x % d + 1) := by
  have h := Nat.mod_lt x hd
  rw [Nat.add_mod]
  rcases Nat.lt_or_ge (x % d + 1) d with h1 | h1
  · refine .inr ⟨h1, ?_⟩
    rcases Nat.lt_or_ge 1 d with h2 | h2
    · rw [Nat.mod_eq_of_lt h2, Nat.mod_eq_of_lt h1]
    · omega
  · refine .inl ⟨by omega, ?_⟩
    rcases Nat.lt_or_ge 1 d with h2 | h2
    · rw [Nat.mod_eq_of_lt h2, show x % d + 1 = d by omega, Nat.mod_self]
    · have : d = 1 := by omega
      subst this; omega

/-- OUT after the copy loop: the appended bytes repeat the bytes between src and OUT_LEN (R122), and no other byte
changes. -/
theorem copyLoop_readByte {n src : Nat} {s : State} (hsrc : src < s.outLen.toNat)
    (hlen : s.outLen.toNat + n < 2 ^ 32) (a : Nat) :
    (copyLoop n src s).readByte .output a =
      if s.outLen.toNat ≤ a ∧ a < s.outLen.toNat + n then
        s.readByte .output (src + (a - s.outLen.toNat) % (s.outLen.toNat - src))
      else s.readByte .output a := by
  induction n generalizing src s with
  | zero => rw [copyLoop, if_neg (by omega)]
  | succ n ih =>
    have hl : (s.appendOut (s.readByte .output src)).outLen.toNat = s.outLen.toNat + 1 := toNat_add_one (by omega)
    rw [copyLoop, ih (by rw [hl]; omega) (by rw [hl]; omega), hl]
    by_cases h1 : s.outLen.toNat + 1 ≤ a ∧ a < s.outLen.toNat + 1 + n
    · rw [if_pos h1, if_pos (by omega), State.appendOut_readByte_output,
        show s.outLen.toNat + 1 - (src + 1) = s.outLen.toNat - src by omega]
      have hd := Nat.mod_lt (a - (s.outLen.toNat + 1)) (show 0 < s.outLen.toNat - src by omega)
      rcases succ_mod_cases (a - (s.outLen.toNat + 1)) (s.outLen.toNat - src) (by omega) with ⟨hm, hm'⟩ | ⟨hm, hm'⟩
      · rw [show a - (s.outLen.toNat + 1) + 1 = a - s.outLen.toNat by omega] at hm'
        rw [if_pos (by omega), hm']; simp
      · rw [show a - (s.outLen.toNat + 1) + 1 = a - s.outLen.toNat by omega] at hm'
        rw [if_neg (by omega), hm']
        congr 1; omega
    · rw [if_neg h1, State.appendOut_readByte_output]
      by_cases h2 : s.outLen.toNat = a
      · rw [if_pos h2, if_pos (by omega)]
        subst h2; simp
      · rw [if_neg h2, if_neg (by omega)]

/-! ## Tokens -/

/-- Everything LIT does (R115). -/
theorem litToken_cases (bytes : List Byte) (s : State) :
    (bytes.length ≤ s.availableAfterControl ∧ s.outLen.toNat + bytes.length ≤ s.outCap.toNat ∧
      litToken bytes s =
        (((s.latch (litControl bytes.length)).appendRun bytes).advance (1 + bytes.length)).endToken) ∨
    (∃ e, litError bytes.length s = some e ∧
      litToken bytes s = (s.latch (litControl bytes.length)).raise e) := by
  rcases litError_cases bytes.length s with ⟨h1, h2, h⟩ | ⟨_, h⟩ | ⟨_, _, h⟩
  · exact .inl ⟨h1, h2, by simp [litToken, h]⟩
  · exact .inr ⟨_, h, by simp [litToken, h]⟩
  · exact .inr ⟨_, h, by simp [litToken, h]⟩

/-- Everything BREF does (R118). -/
theorem brefToken_cases (high : BitVec 7) (b1 b2 : Byte) (s : State) :
    (2 ≤ s.availableAfterControl ∧ brefDistance (brefControl high) b1 ≤ s.outLen.toNat ∧
      s.outLen.toNat + copyLength b2 ≤ s.outCap.toNat ∧
      brefToken high b1 b2 s =
        (((copyLoop (copyLength b2) (s.outLen.toNat - brefDistance (brefControl high) b1)
          (s.latch (brefControl high))).advance 3).setSrc
            (s.outLen.toNat - brefDistance (brefControl high) b1 + copyLength b2)).endToken) ∨
    (∃ e, brefError (brefControl high) b1 b2 s = some e ∧
      brefToken high b1 b2 s = (s.latch (brefControl high)).raise e) := by
  rcases brefError_cases (matchFlag_brefControl high) b1 b2 s with ⟨h1, h2, h3, h⟩ | ⟨_, h⟩ | ⟨_, _, h⟩ | ⟨_, _, _, h⟩
  · exact .inl ⟨h1, h2, h3, by simp [brefToken, h, brefSource_toNat (matchFlag_brefControl high) h2]⟩
  · exact .inr ⟨_, h, by simp [brefToken, h]⟩
  · exact .inr ⟨_, h, by simp [brefToken, h]⟩
  · exact .inr ⟨_, h, by simp [brefToken, h]⟩

/-- Everything the FETCH step of a LIT does (R126). -/
theorem litBegin_cases (bytes : List Byte) (s : State) :
    (bytes.length ≤ s.availableAfterControl ∧ s.outLen.toNat + bytes.length ≤ s.outCap.toNat ∧
      litBegin bytes s =
        ((s.latch (litControl bytes.length)).advance 1).beginCopy bytes.length .litcopy) ∨
    (∃ e, litError bytes.length s = some e ∧
      litBegin bytes s = (s.latch (litControl bytes.length)).raise e) := by
  rcases litError_cases bytes.length s with ⟨h1, h2, h⟩ | ⟨_, h⟩ | ⟨_, _, h⟩
  · exact .inl ⟨h1, h2, by simp [litBegin, h]⟩
  · exact .inr ⟨_, h, by simp [litBegin, h]⟩
  · exact .inr ⟨_, h, by simp [litBegin, h]⟩

/-- Everything the FETCH step of a BREF does (R126). -/
theorem brefBegin_cases (high : BitVec 7) (b1 b2 : Byte) (s : State) :
    (2 ≤ s.availableAfterControl ∧ brefDistance (brefControl high) b1 ≤ s.outLen.toNat ∧
      s.outLen.toNat + copyLength b2 ≤ s.outCap.toNat ∧
      brefBegin high b1 b2 s =
        (((s.latch (brefControl high)).advance 3).setSrc
          (s.outLen.toNat - brefDistance (brefControl high) b1)).beginCopy (copyLength b2) .refcopy) ∨
    (∃ e, brefError (brefControl high) b1 b2 s = some e ∧
      brefBegin high b1 b2 s = (s.latch (brefControl high)).raise e) := by
  rcases brefError_cases (matchFlag_brefControl high) b1 b2 s with ⟨h1, h2, h3, h⟩ | ⟨_, h⟩ | ⟨_, _, h⟩ | ⟨_, _, _, h⟩
  · exact .inl ⟨h1, h2, h3, by simp [brefBegin, h, brefSource_toNat (matchFlag_brefControl high) h2]⟩
  · exact .inr ⟨_, h, by simp [brefBegin, h]⟩
  · exact .inr ⟨_, h, by simp [brefBegin, h]⟩
  · exact .inr ⟨_, h, by simp [brefBegin, h]⟩

/-- Everything the HDR step does (R111 to R113, R125). -/
theorem headerStep_cases (s : State) :
    (s.inLen.toNat < 6 ∧
      headerStep s = State.raise { s with outLen := 0, ip := 0 } ⟨.truncatedStream, 0, 6, s.inLen.toNat⟩) ∨
    (6 ≤ s.inLen.toNat ∧
      headerStep s =
        { s with
          outLen := 0, ip := 6, phase := .fetch
          hdrTag := s.headerField 0, width := s.headerField 2, height := s.headerField 4 }) := by
  unfold headerStep
  by_cases h : s.inLen.toNat < 6
  · exact .inl ⟨h, by simp [h]⟩
  · exact .inr ⟨by omega, by simp [h]; refine ⟨?_, ?_, ?_⟩ <;> rfl⟩

/-! ## The token window -/

/-- The window holds the bytes from IP to IN_LEN, at most 129 of them. -/
theorem State.tokenWindow_length (s : State) :
    s.tokenWindow.length = min longestToken (s.inLen.toNat - s.ip.toNat) := by
  simp [State.tokenWindow]

theorem State.tokenWindow_getElem (s : State) (k : Nat) (h : k < s.tokenWindow.length) :
    s.tokenWindow[k] = s.readByte .input (s.ip.toNat + k) := State.readBytes_getElem _ _ _ _ _ h

/-- Below IN_LEN the window begins with the byte at IP. -/
theorem State.tokenWindow_cons {s : State} (h : s.ip.toNat < s.inLen.toNat) :
    ∃ rest, s.tokenWindow = s.readByte .input s.ip.toNat :: rest ∧
      rest.length = min longestToken (s.inLen.toNat - s.ip.toNat) - 1 := by
  have hl := s.tokenWindow_length
  match hw : s.tokenWindow with
  | [] => rw [hw] at hl; simp [longestToken] at hl; omega
  | c :: rest =>
    refine ⟨rest, ?_, by rw [hw] at hl; simp at hl; omega⟩
    have := s.tokenWindow_getElem 0 (by rw [hw]; simp)
    simp only [hw, List.getElem_cons_zero, Nat.add_zero] at this
    rw [this]

/-- A LIT at IP that claims more bytes than remain is found truncated, with the claim and what remains (R116). -/
theorem decode_truncated_lit {s : State} (h : s.ip.toNat < s.inLen.toNat)
    (hf : matchFlag (s.readByte .input s.ip.toNat) = false)
    (hl : s.availableAfterControl < runLength (s.readByte .input s.ip.toNat)) :
    decodeToken s.tokenWindow =
      .truncated (runLength (s.readByte .input s.ip.toNat)) s.availableAfterControl := by
  obtain ⟨rest, hw, hr⟩ := State.tokenWindow_cons h
  have hn := runLength_le (s.readByte .input s.ip.toNat)
  unfold State.availableAfterControl at *
  have hr' : rest.length = s.inLen.toNat - (s.ip.toNat + 1) := by simp only [longestToken] at hr; omega
  simp [hw, decodeToken, hf, hr', hl]

/-- A BREF at IP without both operand bytes is found truncated (R119). -/
theorem decode_truncated_bref {s : State} (h : s.ip.toNat < s.inLen.toNat)
    (hf : matchFlag (s.readByte .input s.ip.toNat) = true) (hl : s.availableAfterControl < 2) :
    decodeToken s.tokenWindow = .truncated 2 s.availableAfterControl := by
  obtain ⟨rest, hw, hr⟩ := State.tokenWindow_cons h
  unfold State.availableAfterControl at *
  have hr' : rest.length = s.inLen.toNat - (s.ip.toNat + 1) := by simp only [longestToken] at hr; omega
  rw [hw, ← hr']
  match rest with
  | [] => simp [decodeToken, hf]
  | [_] => simp [decodeToken, hf]
  | _ :: _ :: _ => simp at hr'; omega

/-- Whether decoding at IP finds a token, and what is then known of it: its encoding stands at IP and ends at or before
IN_LEN. -/
theorem decode_token_at {s : State} {i : Instr} {rest : List Byte} (h : decodeToken s.tokenWindow = .token i rest) :
    (∃ bytes, i = .lit bytes ∧ 1 ≤ bytes.length ∧ bytes.length ≤ 128 ∧
      s.ip.toNat + 1 + bytes.length ≤ s.inLen.toNat ∧
      s.readByte .input s.ip.toNat = litControl bytes.length ∧
      ∀ k (hk : k < bytes.length), s.readByte .input (s.ip.toNat + 1 + k) = bytes[k]) ∨
    (∃ high b1 b2, i = .bref high b1 b2 ∧ s.ip.toNat + 3 ≤ s.inLen.toNat ∧
      s.readByte .input s.ip.toNat = brefControl high ∧ s.readByte .input (s.ip.toNat + 1) = b1 ∧
      s.readByte .input (s.ip.toNat + 2) = b2) := by
  have hlen := s.tokenWindow_length
  have hget := s.tokenWindow_getElem
  rcases decodeToken_cases s.tokenWindow with ⟨_, e⟩ | ⟨_, _, _, _, _, e⟩ | ⟨_, _, _, _, _, e⟩ |
    ⟨bytes, r, h1, h2, hb, e⟩ | ⟨hh, b1, b2, r, hb, e⟩
  all_goals rw [e] at h; cases h
  · rw [hb] at hlen
    simp only [longestToken, List.length_append, List.length_cons] at hlen
    refine .inl ⟨bytes, rfl, h1, h2, by omega, ?_, ?_⟩
    · have := hget 0 (by rw [hb]; simp)
      simp only [hb] at this
      simpa using this.symm
    · intro k hk
      have := hget (1 + k) (by rw [hb]; simp; omega)
      simp only [hb] at this
      rw [Nat.add_assoc, ← this, List.getElem_append_left (by simp; omega)]
      simp [Nat.add_comm 1 k]
  · rw [hb] at hlen
    simp only [longestToken, List.length_cons] at hlen
    refine .inr ⟨hh, b1, b2, rfl, by omega, ?_, ?_, ?_⟩
    · have := hget 0 (by rw [hb]; simp)
      simp only [hb] at this
      simpa using this.symm
    · have := hget 1 (by rw [hb]; simp)
      simp only [hb] at this
      simpa using this.symm
    · have := hget 2 (by rw [hb]; simp)
      simp only [hb] at this
      simpa using this.symm

end Sys2Proof.Machine
end

