-- ==== Sys2Proof/Laws/Decompress.lean ====
section
/-! SUPPORT. Laws of the token loop: what running the token at IP can do, and one rule for inductions over the loop. -/

namespace Sys2Proof.Machine

/-- Everything running the token at IP can do: an error, with the control byte latched and nothing else changed; or a
whole LIT; or a whole BREF. -/
theorem runToken_cases {s : State} (h : s.ip.toNat < s.inLen.toNat) :
    (∃ e, (e.kind = .truncatedStream ∨ e.kind = .invalidBackreference ∨ e.kind = .outputOverflow) ∧
      runToken s = (s.latch (s.readByte .input s.ip.toNat)).raise e) ∨
    (∃ bytes rest, decodeToken s.tokenWindow = .token (.lit bytes) rest ∧ 1 ≤ bytes.length ∧ bytes.length ≤ 128 ∧
      s.ip.toNat + 1 + bytes.length ≤ s.inLen.toNat ∧ s.outLen.toNat + bytes.length ≤ s.outCap.toNat ∧
      runToken s =
        (((s.latch (litControl bytes.length)).appendRun bytes).advance (1 + bytes.length)).endToken) ∨
    (∃ high b1 b2 rest, decodeToken s.tokenWindow = .token (.bref high b1 b2) rest ∧
      s.ip.toNat + 3 ≤ s.inLen.toNat ∧ brefDistance (brefControl high) b1 ≤ s.outLen.toNat ∧
      s.outLen.toNat + copyLength b2 ≤ s.outCap.toNat ∧
      runToken s =
        (((copyLoop (copyLength b2) (s.outLen.toNat - brefDistance (brefControl high) b1)
          (s.latch (brefControl high))).advance 3).setSrc
            (s.outLen.toNat - brefDistance (brefControl high) b1 + copyLength b2)).endToken) := by
  match hd : decodeToken s.tokenWindow with
  | .empty =>
    obtain ⟨rest, hw, _⟩ := State.tokenWindow_cons h
    rcases decodeToken_cases s.tokenWindow with ⟨h0, _⟩ | ⟨_, _, _, _, _, e⟩ | ⟨_, _, _, _, _, e⟩ |
      ⟨_, _, _, _, _, e⟩ | ⟨_, _, _, _, _, e⟩
    · rw [hw] at h0; cases h0
    all_goals rw [e] at hd; cases hd
  | .truncated n a => exact .inl ⟨_, .inl rfl, by simp only [runToken, hd]; rfl⟩
  | .token i rest =>
    rcases decode_token_at hd with ⟨bytes, rfl, h1, h2, h3, h4, _⟩ | ⟨high, b1, b2, rfl, h3, h4, _, _⟩
    · rcases litToken_cases bytes s with ⟨_, h6, e⟩ | ⟨e, he, e'⟩
      · exact .inr (.inl ⟨bytes, rest, rfl, h1, h2, h3, h6, by simp only [runToken, hd, tokenEffect, e]⟩)
      · refine .inl ⟨e, ?_, by simp only [runToken, hd, tokenEffect, e', h4]⟩
        rcases litError_cases bytes.length s with ⟨_, _, h⟩ | ⟨_, h⟩ | ⟨_, _, h⟩ <;> rw [h] at he <;> cases he <;> simp
    · rcases brefToken_cases high b1 b2 s with ⟨_, h6, h7, e⟩ | ⟨e, he, e'⟩
      · exact .inr (.inr ⟨high, b1, b2, rest, rfl, h3, h6, h7, by simp only [runToken, hd, tokenEffect, e]⟩)
      · refine .inl ⟨e, ?_, by simp only [runToken, hd, tokenEffect, e', h4]⟩
        rcases brefError_cases (matchFlag_brefControl high) b1 b2 s with ⟨_, _, _, h⟩ | ⟨_, h⟩ | ⟨_, _, h⟩ |
          ⟨_, _, _, h⟩ <;> rw [h] at he <;> cases he <;> simp

/-- A token that does not fail stays at a boundary and moves IP on, at most to IN_LEN (R114, R130). -/
theorem runToken_progress {s : State} (h : s.ip.toNat < s.inLen.toNat) :
    ((runToken s).phase = .halt ∧ (runToken s).status = .error ∧ (runToken s).ip = s.ip) ∨
    ((runToken s).phase = .fetch ∧ (runToken s).status = s.status ∧ s.ip.toNat + 2 ≤ (runToken s).ip.toNat ∧
      (runToken s).ip.toNat ≤ s.inLen.toNat) := by
  have hb := s.inLen.isLt
  rcases runToken_cases h with ⟨e, _, ht⟩ | ⟨bytes, rest, _, h1, h2, h3, _, ht⟩ | ⟨high, b1, b2, rest, _, h3, _, _, ht⟩
  · rw [ht]; exact .inl ⟨rfl, rfl, rfl⟩
  · rw [ht]
    refine .inr ⟨rfl, rfl, ?_⟩
    simp only [State.endToken_ip, State.advance_ip, State.appendRun_ip, State.latch_ip]
    rw [toNat_add_ofNat (by omega)]
    omega
  · rw [ht]
    refine .inr ⟨rfl, by simp, ?_⟩
    simp only [State.endToken_ip, State.setSrc_ip, State.advance_ip, copyLoop_ip, State.latch_ip]
    rw [toNat_add_ofNat (by omega)]
    omega

@[simp] theorem runToken_inLen {s : State} (h : s.ip.toNat < s.inLen.toNat) : (runToken s).inLen = s.inLen := by
  rcases runToken_cases h with ⟨e, _, ht⟩ | ⟨bytes, rest, _, _, _, _, _, ht⟩ | ⟨high, b1, b2, rest, _, _, _, _, ht⟩ <;>
    simp [ht]

/-- The rule for inductions over the token loop: what every token keeps holds where the loop ends, which is the end of
the input or an error. -/
theorem tokenLoop_rule (P : State → Prop)
    (keep : ∀ s, P s → s.phase = .fetch → s.ip.toNat < s.inLen.toNat → P (runToken s)) (fuel : Nat) (s : State)
    (hP : P s) (hfuel : s.phase = .fetch → s.inLen.toNat - s.ip.toNat < fuel) :
    ∃ t, P t ∧
      ((t.phase = .fetch ∧ t.inLen.toNat ≤ t.ip.toNat ∧ tokenLoop fuel s = t.finish) ∨
       (t.phase ≠ .fetch ∧ tokenLoop fuel s = t)) := by
  induction fuel generalizing s with
  | zero => exact ⟨s, hP, .inr ⟨fun h => by have := hfuel h; omega, rfl⟩⟩
  | succ fuel ih =>
    by_cases hf : s.phase = .fetch
    · by_cases hl : s.inLen.toNat ≤ s.ip.toNat
      · exact ⟨s, hP, .inl ⟨hf, hl, by simp [tokenLoop, hf, hl]⟩⟩
      · have hlt : s.ip.toNat < s.inLen.toNat := by omega
        obtain ⟨t, ht, h⟩ := ih (runToken s) (keep s hP hf hlt) (by
          intro hp
          have := hfuel hf
          rcases runToken_progress hlt with ⟨h, _⟩ | ⟨_, _, h1, h2⟩
          · rw [h] at hp; cases hp
          · rw [runToken_inLen hlt]; omega)
        have e : tokenLoop (fuel + 1) s = tokenLoop fuel (runToken s) := by simp [tokenLoop, hf, hl]
        exact ⟨t, ht, by rw [e]; exact h⟩
    · exact ⟨s, hP, .inr ⟨hf, by simp [tokenLoop, hf]⟩⟩

/-- The same for DECOMPRESS: what holds after the header step and every token keeps holds where the loop ends. -/
theorem decompress_rule (P : State → Prop)
    (keep : ∀ s, P s → s.phase = .fetch → s.ip.toNat < s.inLen.toNat → P (runToken s)) (s : State)
    (hP : P (headerStep s)) :
    ∃ t, P t ∧
      ((t.phase = .fetch ∧ t.inLen.toNat ≤ t.ip.toNat ∧ decompress s = t.finish) ∨
       (t.phase ≠ .fetch ∧ decompress s = t)) := by
  refine tokenLoop_rule P keep _ _ hP ?_
  rcases headerStep_cases s with ⟨_, e⟩ | ⟨h, e⟩ <;> rw [e] <;> intro hp
  · cases hp
  · show s.inLen.toNat - (6#32).toNat < _
    simp; omega

/-! ## The produced bytes -/

/-- OUT[0..OUT_LEN) has been written (40_lzss.md R123), and it fits in OUT. -/
def State.Produced (s : State) : Prop :=
  s.outLen.toNat ≤ s.outCap.toNat ∧ ∀ a, a < s.outLen.toNat → (s.outMem.read? a).isSome = true

/-- The copy loop appends written bytes only. -/
theorem State.Produced.copyLoop (n : Nat) {src : Nat} {s : State} (h : s.Produced)
    (hn : s.outLen.toNat + n ≤ s.outCap.toNat) : (copyLoop n src s).Produced := by
  induction n generalizing src s with
  | zero => exact h
  | succ n ih =>
    have hc := s.outCap.isLt
    have hl : (s.appendOut (s.readByte .output src)).outLen.toNat = s.outLen.toNat + 1 := toNat_add_one (by omega)
    refine ih ⟨by rw [hl]; show _ ≤ s.outCap.toNat; omega, fun a ha => ?_⟩
      (by rw [hl]; show _ ≤ s.outCap.toNat; omega)
    rw [hl] at ha
    show ((s.outMem.write _ _).read? a).isSome = true
    rw [Memory.read?_write]
    split
    · rfl
    · exact h.2 a (by omega)

/-- Running a token keeps the produced bytes written. -/
theorem State.Produced.runToken {s : State} (h : s.Produced) (hlt : s.ip.toNat < s.inLen.toNat) :
    (runToken s).Produced := by
  have hc := s.outCap.isLt
  rcases runToken_cases hlt with ⟨e, _, ht⟩ | ⟨bytes, rest, _, _, _, _, h3, ht⟩ | ⟨high, b1, b2, rest, _, _, _, h3, ht⟩ <;>
    rw [ht]
  · exact h
  · have hl : (s.outLen + BitVec.ofNat 32 bytes.length).toNat = s.outLen.toNat + bytes.length :=
      toNat_add_ofNat (by omega)
    refine ⟨by show (s.outLen + _).toNat ≤ _; rw [hl]; exact h3, fun a ha => ?_⟩
    replace ha : a < (s.outLen + BitVec.ofNat 32 bytes.length).toNat := ha
    rw [hl] at ha
    show ((s.outMem.writeAll s.outLen.toNat bytes).read? a).isSome = true
    rw [Memory.read?_writeAll]
    split
    · rfl
    · exact h.2 a (by omega)
  · exact State.Produced.copyLoop (s := s.latch (brefControl high)) _ h h3

/-- After DECOMPRESS the buffer has been written whole, whatever way it ended, and no command runs. -/
theorem decompress_produced (s : State) : (decompress s).Produced ∧ (decompress s).status ≠ .busy := by
  obtain ⟨t, ⟨hP, hs⟩, h⟩ := decompress_rule
    (fun t => t.Produced ∧ (t.phase = .fetch ∨ t.status = .error))
    (fun t ht hp hlt => ⟨ht.1.runToken hlt, (runToken_progress hlt).elim (fun h => .inr h.2.1) (fun h => .inl h.1)⟩) s
    (by
      rcases headerStep_cases s with ⟨_, e⟩ | ⟨_, e⟩ <;> rw [e]
      · exact ⟨⟨Nat.zero_le _, fun a ha => absurd ha (Nat.not_lt_zero a)⟩, .inr rfl⟩
      · exact ⟨⟨Nat.zero_le _, fun a ha => absurd ha (Nat.not_lt_zero a)⟩, .inl rfl⟩)
  rcases h with ⟨_, _, e⟩ | ⟨hp, e⟩ <;> rw [e]
  · exact ⟨hP, by simp⟩
  · exact ⟨hP, by rcases hs with h | h; exacts [absurd h hp, by simp [h]]⟩

end Sys2Proof.Machine
end

