-- ==== Sys2Proof/Laws/Registers.lean ====
section
/-! SUPPORT. Laws of the host-visible registers: which register an offset names, what a write of one does, the derived
registers as numbers. -/

namespace Sys2Proof.Machine

@[simp] theorem State.busy_eq_true {s : State} : s.busy = true ↔ s.status = .busy := by simp [State.busy]

@[simp] theorem State.busy_eq_false {s : State} : s.busy = false ↔ s.status ≠ .busy := by simp [State.busy]

/-- No two registers share an offset. -/
@[simp] theorem Reg.atOffset_offset (r : Reg) : Reg.atOffset r.offset = some r := by cases r <;> rfl

/-- An offset that names a register is that register's. -/
theorem Reg.offset_of_atOffset {o : Word} {r : Reg} (h : Reg.atOffset o = some r) : r.offset = o := by
  have := List.find?_some h
  simpa using of_decide_eq_true this

/-- Every register lies at a multiple of 4 below 0x58 (10_state.md R21). -/
theorem Reg.offset_bounds (r : Reg) : r.offset.toNat % 4 = 0 ∧ r.offset.toNat < 0x58 := by cases r <;> decide

theorem hostRegWrite_of_busy {s : State} (h : s.status = .busy) (offset v : Word) (bytes : Nat) :
    hostRegWrite offset bytes v s = .next s := by simp [hostRegWrite, h]

theorem hostRegWrite_reg {s : State} (h : s.status ≠ .busy) {r : Reg} (hr : r ≠ .cmd) (v : Word) :
    hostRegWrite r.offset 4 v s = .next (s.storeReg r v) := by
  simp only [hostRegWrite, Reg.atOffset_offset, State.busy_eq_true, if_neg h, if_true]

theorem hostRegWrite_cmd {s : State} (h : s.status ≠ .busy) (v : Word) :
    hostRegWrite Reg.cmd.offset 4 v s = commandWrite v s := by
  simp only [hostRegWrite, Reg.atOffset_offset, State.busy_eq_true, if_neg h, if_true]

/-- Everything a host write to REG can do. -/
theorem hostRegWrite_cases (offset v : Word) (bytes : Nat) (s : State) :
    hostRegWrite offset bytes v s = .next s ∨
    (s.status ≠ .busy ∧ bytes = 4 ∧ offset = Reg.cmd.offset ∧
      hostRegWrite offset bytes v s = commandWrite v s) ∨
    (s.status ≠ .busy ∧ bytes = 4 ∧ ∃ r : Reg, r ≠ .cmd ∧ offset = r.offset ∧
      hostRegWrite offset bytes v s = .next (s.storeReg r v)) := by
  by_cases hb : s.status = .busy
  · exact .inl (hostRegWrite_of_busy hb _ _ _)
  · by_cases h4 : bytes = 4
    · subst h4
      cases ho : Reg.atOffset offset with
      | none => exact .inl (by simp [hostRegWrite, ho])
      | some r =>
        obtain rfl := Reg.offset_of_atOffset ho
        by_cases hr : r = .cmd
        · subst hr; exact .inr (.inl ⟨hb, rfl, rfl, hostRegWrite_cmd hb v⟩)
        · exact .inr (.inr ⟨hb, rfl, r, hr, rfl, hostRegWrite_reg hb hr v⟩)
    · exact .inl (by simp [hostRegWrite, h4])

/-- Everything a CMD write can do (43_commands.md R195, R197). -/
theorem commandWrite_cases (w : Word) (s : State) :
    (∃ p, (p = .hdr ∨ p = .recon ∨ p = .palrd) ∧ commandWrite w s = .next (s.accept p)) ∨
    commandWrite w s = .next (illegalCommand w s) := by
  rcases decodeCommand_cases w with ⟨_, e⟩ | ⟨_, e⟩ | ⟨_, e⟩ | ⟨_, _, _, e⟩ <;> simp only [commandWrite, e]
  · exact .inl ⟨.hdr, .inl rfl, rfl⟩
  · exact .inl ⟨.recon, .inr (.inl rfl), rfl⟩
  · exact .inl ⟨.palrd, .inr (.inr rfl), rfl⟩
  · exact .inr rfl

/-- RASTER_W fits its 17 bits (10_state.md R40). -/
theorem State.rasterW_le (s : State) : s.rasterW ≤ 65536 := by
  have := s.width.isLt
  simp only [State.rasterW, State.widthBytes]; omega

/-- RASTER_H fits its 17 bits (R41). -/
theorem State.rasterH_le (s : State) : s.rasterH ≤ 131070 := by
  have := s.height.isLt
  simp only [State.rasterH]; omega

/-- EXPECTED_LEN fits 32 bits (R35). -/
theorem State.expectedLen_le (s : State) : s.expectedLen ≤ 2147450880 := by
  have h1 := s.width.isLt
  have h2 := s.height.isLt
  have h3 : (s.width.toNat + 7) / 8 ≤ 8192 := by omega
  have h4 : (s.width.toNat + 7) / 8 * s.height.toNat ≤ 8192 * 65535 := Nat.mul_le_mul h3 (by omega)
  simp only [State.expectedLen, State.planeLength, State.widthBytes]; omega

end Sys2Proof.Machine
end

