-- ==== Sys2Proof/Laws/HostAccess.lean ====
section
/-! SUPPORT. Laws of the host's accesses: what a read of a register or a memory byte, and a write of a memory byte, do. -/

namespace Sys2Proof.Machine

/-- A step makes the first move of the list. -/
@[simp] theorem step_withSched_cons (s : State) (m : Move) (rest : List Move) :
    step (s.withSched (m :: rest)) = doMove m (s.withSched rest) := rfl

/-- A 32-bit read at a register's offset gives the register. -/
@[simp] theorem State.hostRegValue_offset (s : State) (r : Reg) : s.hostRegValue r.offset 4 = s.readReg r := by
  simp [State.hostRegValue]

/-- What is read does not depend on the moves to come. -/
@[simp] theorem State.hostByte?_withSched (s : State) (l : List Move) (sp : Space) (a : Nat) :
    (s.withSched l).hostByte? sp a = s.hostByte? sp a := by cases sp <;> rfl

@[simp] theorem State.readReg_withSched (s : State) (l : List Move) (r : Reg) :
    (s.withSched l).readReg r = s.readReg r := by cases r <;> rfl

/-- The reads that are no draw (20_memory.md R74, 43_commands.md R205): of IN inside IN_LEN; of OUT inside OUT_LEN and of
RASTER inside the image while not BUSY; below the capacity, and of a byte written since reset. -/
theorem State.hostByte?_eq_some {s : State} {sp : Space} {a : Nat} {v : Byte} :
    s.hostByte? sp a = some v ↔ (s.mem sp).read? a = some v ∧ a < s.capacity sp ∧
      match sp with
      | .input => a < s.inLen.toNat
      | .output => s.status ≠ .busy ∧ a < s.outLen.toNat
      | .raster => s.status ≠ .busy ∧ a < s.imageLength := by
  cases sp <;> simp only [State.hostByte?, State.mem, State.capacity, State.busy_eq_false] <;> split <;>
    (try simp only [reduceCtorEq]) <;> tauto

/-- A host read of a byte that is no draw. -/
theorem hostMemRead_of_some {s : State} {sp : Space} {a : Nat} {v : Byte} (h : s.hostByte? sp a = some v) :
    hostMemRead sp a s = { s with busData := v.setWidth 32 } := by simp only [hostMemRead, h]

/-- A host read of an unspecified byte. -/
theorem hostMemRead_of_none {s : State} {sp : Space} {a : Nat} (h : s.hostByte? sp a = none) :
    hostMemRead sp a s = { s with busData := (Config.draw s.draws).setWidth 32, draws := s.draws + 1 } := by
  simp only [hostMemRead, h]

/-- A host write while BUSY is dropped (20_memory.md R75). -/
theorem hostMemWrite_of_busy {s : State} (h : s.status = .busy) (sp : Space) (a : Nat) (v : Byte) :
    hostMemWrite sp a v s = s := by simp [hostMemWrite, h]

/-- RASTER is never host-writable (R75). -/
@[simp] theorem hostMemWrite_raster (s : State) (a : Nat) (v : Byte) : hostMemWrite .raster a v s = s := by
  simp only [hostMemWrite]; split <;> rfl

/-- A host write at or beyond the capacity writes nothing (43_commands.md R205). -/
theorem hostMemWrite_of_le {s : State} {sp : Space} {a : Nat} (h : s.capacity sp ≤ a) (v : Byte) :
    hostMemWrite sp a v s = s := by
  cases sp <;> simp only [State.capacity] at h <;> simp only [hostMemWrite] <;> split <;> simp [Nat.not_lt.mpr h]

/-- A host write of a byte of IN or OUT below the capacity, while not BUSY. -/
theorem hostMemWrite_of_lt {s : State} {sp : Space} {a : Nat} (hb : s.status ≠ .busy) (hsp : sp ≠ .raster)
    (h : a < s.capacity sp) (v : Byte) : hostMemWrite sp a v s = s.setMem sp ((s.mem sp).write a v) := by
  cases sp
  · simp [hostMemWrite, hb, show a < s.inCap.toNat from h, State.setMem, State.mem]
  · simp [hostMemWrite, hb, show a < s.outCap.toNat from h, State.setMem, State.mem]
  · exact absurd rfl hsp

end Sys2Proof.Machine
end

