-- ==== Sys2Proof/Laws/Reconstruct.lean ====
section
/-! SUPPORT. Laws of RECONSTRUCT: what its checks answer, what the raster holds after it, the canonical form and the
bound of RASTER. -/

namespace Sys2Proof.Machine

/-- Everything the checks of RECONSTRUCT answer (41_reconstruct.md R156). -/
theorem reconstructError_cases (s : State) :
    (2 ≤ s.palSel.toNat ∧ reconstructError s = some ⟨.unknownPalette, 0, 2, s.palSel.toNat⟩) ∨
    (s.palSel.toNat < 2 ∧ s.outLen.toNat ≠ s.expectedLen ∧
      reconstructError s = some ⟨.malformedPlanarImage, 0, s.expectedLen, s.outLen.toNat⟩) ∨
    (s.palSel.toNat < 2 ∧ s.outLen.toNat = s.expectedLen ∧ s.rasterCap.toNat < s.imageLength ∧
      reconstructError s = some ⟨.outputOverflow, 0, s.imageLength, s.rasterCap.toNat⟩) ∨
    (s.palSel.toNat < 2 ∧ s.outLen.toNat = s.expectedLen ∧ s.imageLength ≤ s.rasterCap.toNat ∧
      reconstructError s = none) := by
  by_cases h1 : 2 ≤ s.palSel.toNat
  · exact .inl ⟨h1, by simp [reconstructError, paletteError, h1]⟩
  · by_cases h2 : s.outLen.toNat = s.expectedLen
    · by_cases h3 : s.imageLength ≤ s.rasterCap.toNat
      · exact .inr (.inr (.inr ⟨by omega, h2, h3, by simp [reconstructError, paletteError, h1, h2, h3]⟩))
      · exact .inr (.inr (.inl ⟨by omega, h2, by omega, by simp [reconstructError, paletteError, h1, h2, h3]⟩))
    · exact .inr (.inl ⟨by omega, h2, by simp [reconstructError, paletteError, h1, h2]⟩)

@[simp] theorem State.pixel_length (s : State) (x y : Nat) : (s.pixel x y).length = 4 := by
  simp only [State.pixel]; split <;> rfl

/-- A byte of raster pixel (X, Y) after one source pixel is written. -/
theorem State.read?_writePixel (s : State) (y : Nat) (m : Memory) (x X Y j : Nat) (hx : x < s.rasterW)
    (hX : X < s.rasterW) (hj : j < 4) :
    (s.writePixel y m x).read? (s.pixelAddress X Y + j) =
      if x = X ∧ (Y = 2 * y ∨ Y = 2 * y + 1) then some ((s.pixel x y)[j]'(by simpa using hj))
      else m.read? (s.pixelAddress X Y + j) := by
  have addr (Z : Nat) : s.pixelAddress x Z ≤ s.pixelAddress X Y + j ∧
      s.pixelAddress X Y + j < s.pixelAddress x Z + 4 ↔ x = X ∧ Y = Z := by
    simp only [State.pixelAddress]
    generalize s.rasterW = w at *
    constructor
    · intro ⟨h1, h2⟩
      have e : Y * w + X = Z * w + x := by omega
      have hY : Y = Z := by
        rcases Nat.lt_trichotomy Y Z with h | h | h
        · have := Nat.mul_le_mul_right w h; rw [Nat.succ_mul] at this; omega
        · exact h
        · have := Nat.mul_le_mul_right w h; rw [Nat.succ_mul] at this; omega
      subst hY; omega
    · rintro ⟨rfl, rfl⟩; omega
  simp only [State.writePixel, Memory.read?_writeAll, State.pixel_length]
  by_cases h1 : x = X ∧ Y = 2 * y + 1
  · rw [dif_pos ((addr _).mpr h1), if_pos ⟨h1.1, .inr h1.2⟩]
    obtain ⟨rfl, rfl⟩ := h1; simp
  · rw [dif_neg (fun h => h1 ((addr _).mp h))]
    by_cases h2 : x = X ∧ Y = 2 * y
    · rw [dif_pos ((addr _).mpr h2), if_pos ⟨h2.1, .inl h2.2⟩]
      obtain ⟨rfl, rfl⟩ := h2; simp
    · rw [dif_neg (fun h => h2 ((addr _).mp h)), if_neg (by tauto)]

/-- The same after the first n pixels of a source row. -/
theorem State.read?_writePixels (s : State) (y X Y j : Nat) (hX : X < s.rasterW) (hj : j < 4) (n : Nat)
    (hn : n ≤ s.rasterW) (m : Memory) :
    ((List.range n).foldl (s.writePixel y) m).read? (s.pixelAddress X Y + j) =
      if X < n ∧ (Y = 2 * y ∨ Y = 2 * y + 1) then some ((s.pixel X y)[j]'(by simpa using hj))
      else m.read? (s.pixelAddress X Y + j) := by
  induction n with
  | zero => simp
  | succ n ih =>
    rw [List.range_succ, List.foldl_append]
    simp only [List.foldl_cons, List.foldl_nil]
    rw [s.read?_writePixel y _ n X Y j (by omega) hX hj, ih (by omega)]
    by_cases h : n = X ∧ (Y = 2 * y ∨ Y = 2 * y + 1)
    · rw [if_pos h, if_pos ⟨by omega, h.2⟩]; obtain ⟨rfl, _⟩ := h; rfl
    · rw [if_neg h]
      by_cases h2 : X < n ∧ (Y = 2 * y ∨ Y = 2 * y + 1)
      · rw [if_pos h2, if_pos ⟨by omega, h2.2⟩]
      · rw [if_neg h2, if_neg]
        rintro ⟨a, b⟩
        rcases Nat.lt_or_ge X n with hlt | hge
        · exact h2 ⟨hlt, b⟩
        · exact h ⟨by omega, b⟩

/-- The same after the first n source rows: the pixel of source row Y / 2 (R162, R163). -/
theorem State.read?_writeRows (s : State) (X Y j : Nat) (hX : X < s.rasterW) (hj : j < 4) (n : Nat) (m : Memory) :
    Memory.read? ((List.range n).foldl s.writeRow m) (s.pixelAddress X Y + j) =
      if Y < 2 * n then some ((s.pixel X (Y / 2))[j]'(by simpa using hj))
      else m.read? (s.pixelAddress X Y + j) := by
  induction n with
  | zero => simp
  | succ n ih =>
    rw [List.range_succ, List.foldl_append]
    simp only [List.foldl_cons, List.foldl_nil]
    rw [State.writeRow, s.read?_writePixels n X Y j hX hj _ le_rfl, ih]
    by_cases h : Y = 2 * n ∨ Y = 2 * n + 1
    · rw [if_pos ⟨hX, h⟩, if_pos (by omega)]
      obtain rfl : Y / 2 = n := by omega
      rfl
    · rw [if_neg (fun h' => h h'.2)]
      by_cases h2 : Y < 2 * n
      · rw [if_pos h2, if_pos (by omega)]
      · rw [if_neg h2, if_neg (by omega)]

/-- Every byte of a pixel of the image lies in the image. -/
theorem State.pixelAddress_lt (s : State) {X Y : Nat} (hX : X < s.rasterW) (hY : Y < s.rasterH) :
    s.pixelAddress X Y + 4 ≤ s.imageLength := by
  simp only [State.pixelAddress, State.imageLength]
  have h := Nat.mul_le_mul_right s.rasterW (Nat.succ_le_of_lt hY)
  rw [Nat.succ_mul] at h
  generalize s.rasterW = w at *
  have e : 4 * w * s.rasterH = 4 * (s.rasterH * w) := by ring
  rw [e]; omega

/-- What writing every pixel keeps, writing the image keeps. -/
theorem State.writeImage_rule (s : State) (P : Memory → Prop) (h0 : P s.rasterMem)
    (keep : ∀ m x y, x < s.rasterW → y < s.height.toNat → P m → P (s.writePixel y m x)) : P s.writeImage := by
  have fold : ∀ {β : Type} (Q : β → Prop) (f : β → Nat → β) (l : List Nat) (b : β), Q b →
      (∀ b x, x ∈ l → Q b → Q (f b x)) → Q (l.foldl f b) := by
    intro β Q f l
    induction l with
    | nil => intro b hb _; exact hb
    | cons x l ih =>
      intro b hb h
      exact ih _ (h b x (by simp) hb) (fun b y hy hb => h b y (by simp [hy]) hb)
  refine fold P _ _ _ h0 (fun m y hy hm => fold P _ _ _ hm (fun m' x hx hm' => ?_))
  exact keep m' x y (List.mem_range.mp hx) (List.mem_range.mp hy) hm'

theorem State.writeImage_wf (s : State) (h : s.rasterMem.wf) : s.writeImage.wf :=
  s.writeImage_rule _ h fun _ _ _ _ _ hm => Memory.writeAll_wf (Memory.writeAll_wf hm _ _) _ _

theorem State.writeImage_below (s : State) (h : s.rasterMem.below s.rasterCap.toNat)
    (hc : s.imageLength ≤ s.rasterCap.toNat) : s.writeImage.below s.rasterCap.toNat := by
  refine s.writeImage_rule (fun m => m.below s.rasterCap.toNat) h fun m x y hx hy hm => ?_
  have h1 := s.pixelAddress_lt hx (Y := 2 * y) (by simp only [State.rasterH]; omega)
  have h2 := s.pixelAddress_lt hx (Y := 2 * y + 1) (by simp only [State.rasterH]; omega)
  exact Memory.writeAll_below (Memory.writeAll_below hm (by rw [State.pixel_length]; omega))
    (by rw [State.pixel_length]; omega)

/-- No byte at or past the image is written (R168). -/
theorem State.read?_writeImage_of_le (s : State) (a : Nat) (ha : s.imageLength ≤ a) :
    s.writeImage.read? a = s.rasterMem.read? a := by
  refine s.writeImage_rule (fun m => m.read? a = s.rasterMem.read? a) rfl fun m x y hx hy hm => ?_
  have h1 := s.pixelAddress_lt hx (Y := 2 * y) (by simp only [State.rasterH]; omega)
  have h2 := s.pixelAddress_lt hx (Y := 2 * y + 1) (by simp only [State.rasterH]; omega)
  simp only [State.writePixel, Memory.read?_writeAll, State.pixel_length]
  rw [dif_neg (by omega), dif_neg (by omega), hm]

/-- Every byte of the image is a byte of some pixel. -/
theorem State.exists_pixelAddress (s : State) {a : Nat} (ha : a < s.imageLength) :
    ∃ X Y j, X < s.rasterW ∧ Y < s.rasterH ∧ j < 4 ∧ a = s.pixelAddress X Y + j := by
  have hw : 0 < s.rasterW := by
    by_contra h
    have h0 : s.rasterW = 0 := by omega
    simp [State.imageLength, h0] at ha
  refine ⟨a / 4 % s.rasterW, a / 4 / s.rasterW, a % 4, Nat.mod_lt _ hw, ?_, Nat.mod_lt _ (by decide), ?_⟩
  · rw [Nat.div_lt_iff_lt_mul hw]
    simp only [State.imageLength] at ha
    generalize s.rasterW = w at *
    have e : 4 * w * s.rasterH = 4 * (s.rasterH * w) := by ring
    rw [e] at ha; omega
  · simp only [State.pixelAddress]
    have h := Nat.div_add_mod (a / 4) s.rasterW
    rw [Nat.mul_comm] at h
    rw [h]; omega

/-- Every byte of the image is written (R168). -/
theorem State.read?_writeImage_isSome (s : State) {a : Nat} (ha : a < s.imageLength) :
    (s.writeImage.read? a).isSome = true := by
  obtain ⟨X, Y, j, hX, hY, hj, rfl⟩ := s.exists_pixelAddress ha
  rw [State.writeImage, s.read?_writeRows X Y j hX hj, if_pos (show Y < 2 * s.height.toNat from hY)]
  rfl

end Sys2Proof.Machine
end

