-- ==== Sys2Proof/Laws/Sequencer.lean ====
section
/-! SUPPORT. Laws of the sequencer: what the FETCH step does, how the token at IP is found, runs of the copy steps. -/

namespace Sys2Proof.Machine

/-! ## The token at IP -/

/-- At or past IN_LEN there is no token. -/
theorem decodeToken_tokenWindow_of_le {s : State} (h : s.inLen.toNat ≤ s.ip.toNat) :
    decodeToken s.tokenWindow = .empty := by
  have hl : s.tokenWindow.length = 0 := by rw [s.tokenWindow_length]; omega
  rw [List.length_eq_zero_iff.mp hl]; rfl

/-- Below IN_LEN there is a token, whole or truncated. -/
theorem decodeToken_tokenWindow_ne_empty {s : State} (h : s.ip.toNat < s.inLen.toNat) :
    decodeToken s.tokenWindow ≠ .empty := by
  intro hd
  obtain ⟨rest, hw, _⟩ := State.tokenWindow_cons h
  rcases decodeToken_cases s.tokenWindow with ⟨h0, _⟩ | ⟨_, _, _, _, _, e⟩ | ⟨_, _, _, _, _, e⟩ |
    ⟨_, _, _, _, _, e⟩ | ⟨_, _, _, _, _, e⟩
  · rw [hw] at h0; cases h0
  all_goals rw [e] at hd; cases hd

/-- Where the encoding of a well-formed token stands at IP and ends at or before IN_LEN, that token is decoded. -/
theorem decodeToken_tokenWindow {s : State} {i : Instr} (hw : WellFormed i) {bytes : List Byte}
    (he : encode i = .token bytes) (hfit : s.ip.toNat + bytes.length ≤ s.inLen.toNat)
    (hb : ∀ k (h : k < bytes.length), s.readByte .input (s.ip.toNat + k) = bytes[k]) :
    ∃ rest, decodeToken s.tokenWindow = .token i rest := by
  have split (hlen : bytes.length ≤ 129) : s.tokenWindow = bytes ++ s.tokenWindow.drop bytes.length := by
    conv_lhs => rw [← List.take_append_drop bytes.length s.tokenWindow]
    congr 1
    apply List.ext_getElem
    · simp [s.tokenWindow_length, longestToken]; omega
    · intro k h1 h2
      rw [List.getElem_take, s.tokenWindow_getElem, hb k h2]
  cases i with
  | lit l =>
    have hl : 1 ≤ l.length ∧ l.length ≤ 128 := by simpa [WellFormed, Instr.wellFormed] using hw
    simp only [encode, Code.token.injEq] at he
    subst he
    exact ⟨_, by rw [split (by simp; omega)]; exact decodeToken_lit hl.1 hl.2 _⟩
  | bref a b c =>
    simp only [encode, Code.token.injEq] at he
    subst he
    exact ⟨_, by rw [split (by simp)]; exact decodeToken_bref a b c _⟩
  | decompress => cases he
  | reconstruct => cases he
  | paletteRead => cases he
  | illegalCommand w => cases he

theorem runToken_of_token {s : State} {i : Instr} {rest : List Byte}
    (h : decodeToken s.tokenWindow = .token i rest) : runToken s = tokenEffect i s := by
  simp [runToken, h]

/-- The meaning of a token is its effect. -/
theorem exec_of_token {i : Instr} {bytes : List Byte} (h : encode i = .token bytes) (s : State) :
    exec i s = .next (tokenEffect i s) := by
  cases i <;> first | rfl | cases h

/-- Below IN_LEN the token at IP is run whole, failing or not. -/
theorem fetchAndExec_of_lt {s : State} (h : s.ip.toNat < s.inLen.toNat) : fetchAndExec s = .next (runToken s) := by
  simp only [fetchAndExec, runToken]
  rw [if_neg (by omega)]
  match hd : decodeToken s.tokenWindow with
  | .empty => exact absurd hd (decodeToken_tokenWindow_ne_empty h)
  | .truncated _ _ => rfl
  | .token i rest => rcases decode_token_at hd with ⟨b, rfl, _⟩ | ⟨a, b, c, rfl, _⟩ <;> rfl

/-- Everything the FETCH step can do below IN_LEN (R126): the error the whole token gives; or a LIT begun; or a BREF
begun. -/
theorem fetchStep_cases {s : State} (h : s.ip.toNat < s.inLen.toNat) :
    (∃ e, (e.kind = .truncatedStream ∨ e.kind = .invalidBackreference ∨ e.kind = .outputOverflow) ∧
      fetchStep s = .next ((s.latch (s.readByte .input s.ip.toNat)).raise e) ∧
      runToken s = (s.latch (s.readByte .input s.ip.toNat)).raise e) ∨
    (∃ bytes rest, decodeToken s.tokenWindow = .token (.lit bytes) rest ∧ 1 ≤ bytes.length ∧ bytes.length ≤ 128 ∧
      s.ip.toNat + 1 + bytes.length ≤ s.inLen.toNat ∧ s.outLen.toNat + bytes.length ≤ s.outCap.toNat ∧
      fetchStep s = .next (((s.latch (litControl bytes.length)).advance 1).beginCopy bytes.length .litcopy)) ∨
    (∃ high b1 b2 rest, decodeToken s.tokenWindow = .token (.bref high b1 b2) rest ∧
      s.ip.toNat + 3 ≤ s.inLen.toNat ∧ brefDistance (brefControl high) b1 ≤ s.outLen.toNat ∧
      s.outLen.toNat + copyLength b2 ≤ s.outCap.toNat ∧
      fetchStep s = .next ((((s.latch (brefControl high)).advance 3).setSrc
        (s.outLen.toNat - brefDistance (brefControl high) b1)).beginCopy (copyLength b2) .refcopy)) := by
  have hne : s.ip.toNat ≠ s.inLen.toNat := by omega
  match hd : decodeToken s.tokenWindow with
  | .empty => exact absurd hd (decodeToken_tokenWindow_ne_empty h)
  | .truncated n a =>
    exact .inl ⟨_, .inl rfl, by simp only [fetchStep, hd]; rw [if_neg hne]; rfl, by simp only [runToken, hd]; rfl⟩
  | .token i rest =>
    rcases decode_token_at hd with ⟨bytes, rfl, h1, h2, h3, h4, _⟩ | ⟨high, b1, b2, rfl, h3, h4, _, _⟩
    · rcases litBegin_cases bytes s with ⟨_, h6, e⟩ | ⟨e, he, e'⟩
      · exact .inr (.inl ⟨bytes, rest, rfl, h1, h2, h3, h6,
          by simp only [fetchStep, hd, beginToken, e]; rw [if_neg hne]⟩)
      · refine .inl ⟨e, ?_, by simp only [fetchStep, hd, beginToken, e', h4]; rw [if_neg hne], ?_⟩
        · rcases litError_cases bytes.length s with ⟨_, _, h⟩ | ⟨_, h⟩ | ⟨_, _, h⟩ <;> rw [h] at he <;> cases he <;> simp
        · simp [runToken, hd, tokenEffect, litToken, he, h4]
    · rcases brefBegin_cases high b1 b2 s with ⟨_, h6, h7, e⟩ | ⟨e, he, e'⟩
      · exact .inr (.inr ⟨high, b1, b2, rest, rfl, h3, h6, h7,
          by simp only [fetchStep, hd, beginToken, e]; rw [if_neg hne]⟩)
      · refine .inl ⟨e, ?_, by simp only [fetchStep, hd, beginToken, e', h4]; rw [if_neg hne], ?_⟩
        · rcases brefError_cases (matchFlag_brefControl high) b1 b2 s with ⟨_, _, _, h⟩ | ⟨_, h⟩ | ⟨_, _, h⟩ |
            ⟨_, _, _, h⟩ <;> rw [h] at he <;> cases he <;> simp
        · simp [runToken, hd, tokenEffect, brefToken, he, h4]

/-- A header field as a number (20_memory.md R67). -/
theorem le16_toNat (low high : Byte) : (le16 low high).toNat = low.toNat + 256 * high.toNat := by
  have := low.isLt
  simp only [le16, BitVec.toNat_append]
  rw [← Nat.shiftLeft_add_eq_or_of_lt low.isLt, Nat.shiftLeft_eq]; omega

/-! ## Runs of atomic steps -/

theorem ticks_succ {n : Nat} {s t : State} (h : tick s = .next t) : ticks (n + 1) s = ticks n t := by simp [ticks, h]

theorem ticks_add (n m : Nat) {s t : State} (h : ticks n s = .next t) : ticks (n + m) s = ticks m t := by
  induction n generalizing s with
  | zero =>
    simp only [ticks, Host.Outcome.next.injEq] at h
    subst h; simp
  | succ n ih =>
    rw [show n + 1 + m = (n + m) + 1 by omega]
    simp only [ticks] at h ⊢
    cases hh : tick s with
    | next u => rw [hh] at h; exact ih h
    | fault r => rw [hh] at h; cases h
    | refused r => rw [hh] at h; cases h

theorem toNat_ofNat9 {n : Nat} (h : n < 512) : (BitVec.ofNat 9 n).toNat = n := by simp; omega

theorem ofNat9_sub_one (n : Nat) : BitVec.ofNat 9 (n + 1) - 1#9 = BitVec.ofNat 9 n := by
  apply BitVec.eq_of_toNat_eq
  simp [BitVec.toNat_sub]; omega

theorem ofNat9_eq_zero {n : Nat} (h : n < 512) : BitVec.ofNat 9 n = 0#9 ↔ n = 0 := by
  constructor
  · intro e
    have := congrArg BitVec.toNat e
    rw [toNat_ofNat9 h] at this; simpa using this
  · rintro rfl; rfl

/-- The LITCOPY steps of one run are the run appended at once (R127, R115). -/
theorem ticks_litcopy (bytes : List Byte) (s : State) (h1 : 1 ≤ bytes.length) (h2 : bytes.length ≤ 128)
    (hp : s.phase = .litcopy) (hc : s.wCnt = BitVec.ofNat 9 bytes.length)
    (ho : s.outLen.toNat + bytes.length < 2 ^ 32) (hi : s.ip.toNat + bytes.length < 2 ^ 32)
    (hb : ∀ k (h : k < bytes.length), s.readByte .input (s.ip.toNat + k) = bytes[k]) :
    ticks bytes.length s = .next ((s.appendRun bytes).advance bytes.length).endToken ∧
    ∀ m, m < bytes.length → ∃ u, ticks m s = .next u ∧ u.phase ≠ .halt := by
  induction bytes generalizing s with
  | nil => simp at h1
  | cons b bs ih =>
    simp only [List.length_cons] at h2 hc ho hi
    have hne : s.wCnt ≠ 0#9 := by rw [hc, Ne, ofNat9_eq_zero (by omega)]; omega
    have ht : tick s = .next (litCopyStep s) := by simp [tick, hp, hne]
    have hb0 : s.readByte .input s.ip.toNat = b := hb 0 (by simp)
    have hcd : s.wCnt - 1#9 = BitVec.ofNat 9 bs.length := by rw [hc, ofNat9_sub_one]
    by_cases hz : bs.length = 0
    · obtain rfl := List.length_eq_zero_iff.mp hz
      constructor
      · simp only [List.length_cons, List.length_nil, ticks, ht, litCopyStep, hb0]
        simp only [State.countDown, State.advance, State.appendOut, State.appendRun, State.endToken, Memory.writeAll,
          hcd, List.length_cons, List.length_nil]
        simp
      · intro m hm
        obtain rfl : m = 0 := by simp at hm; omega
        exact ⟨s, rfl, by simp [hp]⟩
    · have hl1 : (s.outLen + 1#32).toNat = s.outLen.toNat + 1 := toNat_add_one (by omega)
      have hl2 : (s.ip + BitVec.ofNat 32 1).toNat = s.ip.toNat + 1 := toNat_add_ofNat (by omega)
      have hph : (litCopyStep s).phase = .litcopy := by
        simp only [litCopyStep, State.countDown, State.advance, State.appendOut, hcd]
        rw [if_neg (by rw [ofNat9_eq_zero (by omega)]; omega), hp]
      obtain ⟨e1, e2⟩ := ih (litCopyStep s) (by omega) (by omega) hph hcd
        (by show (s.outLen + 1#32).toNat + _ < _; omega) (by show (s.ip + BitVec.ofNat 32 1).toNat + _ < _; omega)
        (by
          intro k hk
          have := hb (k + 1) (by simp; omega)
          show s.readByte .input ((s.ip + BitVec.ofNat 32 1).toNat + k) = _
          rw [hl2, Nat.add_assoc, Nat.add_comm 1 k, this]; simp)
      constructor
      · rw [List.length_cons, ticks_succ ht, e1]
        simp only [litCopyStep, hb0, State.countDown, State.advance, State.appendOut, State.appendRun, State.endToken,
          Memory.writeAll, List.length_cons, hl1]
        congr 2
        · rw [BitVec.add_assoc]; congr 1
          apply BitVec.eq_of_toNat_eq; simp [Nat.add_comm]
        · rw [BitVec.add_assoc]; congr 1
          apply BitVec.eq_of_toNat_eq; simp [Nat.add_comm]
      · intro m hm
        cases m with
        | zero => exact ⟨s, rfl, by simp [hp]⟩
        | succ m => rw [ticks_succ ht]; exact e2 m (by simp at hm; omega)

/-- The copy loop and the registers it does not touch. -/
theorem copyLoop_with (n src : Nat) (s : State) (p : Phase) (cnt : BitVec 9) (ip wSrc : Word) :
    copyLoop n src { s with phase := p, wCnt := cnt, ip := ip, wSrc := wSrc } =
      { copyLoop n src s with phase := p, wCnt := cnt, ip := ip, wSrc := wSrc } := by
  induction n generalizing src s with
  | zero => rfl
  | succ n ih => rw [copyLoop, copyLoop, ← ih]; rfl

/-- The REFCOPY steps of one token are its copy loop (R128, R118). -/
theorem ticks_refcopy (n src : Nat) (s : State) (h1 : 1 ≤ n) (h2 : n ≤ 256) (hp : s.phase = .refcopy)
    (hc : s.wCnt = BitVec.ofNat 9 n) (ho : src + n < 2 ^ 32) (hi : s.wSrc = BitVec.ofNat 32 src) :
    ticks n s = .next ((copyLoop n src s).setSrc (src + n)).endToken ∧
    ∀ m, m < n → ∃ u, ticks m s = .next u ∧ u.phase ≠ .halt := by
  induction n generalizing src s with
  | zero => simp at h1
  | succ n ih =>
    have hne : s.wCnt ≠ 0#9 := by rw [hc, Ne, ofNat9_eq_zero (by omega)]; omega
    have ht : tick s = .next (refCopyStep s) := by simp [tick, hp, hne]
    have hcd : s.wCnt - 1#9 = BitVec.ofNat 9 n := by rw [hc, ofNat9_sub_one]
    have hsrc : s.wSrc.toNat = src := by rw [hi]; simp; omega
    have hadd : BitVec.ofNat 32 src + 1#32 = BitVec.ofNat 32 (src + 1) := by
      apply BitVec.eq_of_toNat_eq; simp
    by_cases hz : n = 0
    · subst hz
      constructor
      · simp only [ticks, ht, refCopyStep, hsrc, copyLoop]
        simp only [State.countDown, State.nextSrc, State.setSrc, State.appendOut, State.endToken, hcd, hi, hadd]
        simp
      · intro m hm
        obtain rfl : m = 0 := by omega
        exact ⟨s, rfl, by simp [hp]⟩
    · have hph : (refCopyStep s).phase = .refcopy := by
        simp only [refCopyStep, State.countDown, State.nextSrc, State.appendOut, hcd]
        rw [if_neg (by rw [ofNat9_eq_zero (by omega)]; omega), hp]
      obtain ⟨e1, e2⟩ := ih (src + 1) (refCopyStep s) (by omega) (by omega) hph hcd (by omega)
        (by show s.wSrc + 1#32 = _; rw [hi, hadd])
      constructor
      · rw [ticks_succ ht, e1, copyLoop]
        have key : refCopyStep s =
            { s.appendOut (s.readByte .output src) with
              phase := (refCopyStep s).phase, wCnt := s.wCnt - 1#9, ip := s.ip, wSrc := s.wSrc + 1#32 } := by
          simp only [refCopyStep, hsrc]; rfl
        rw [key, copyLoop_with]
        simp only [State.setSrc, State.endToken, copyLoop_ip, State.appendOut_ip]
        congr 3; omega
      · intro m hm
        cases m with
        | zero => exact ⟨s, rfl, by simp [hp]⟩
        | succ m => rw [ticks_succ ht]; exact e2 m (by omega)

end Sys2Proof.Machine
end

