-- ==== Sys2Proof/Laws/Inv.lean ====
section
/-! SUPPORT. What the shared operations do to the invariant `State.Inv`. -/

namespace Sys2Proof.Machine

theorem ErrorKind.code_bounds (k : ErrorKind) : 1 ≤ k.code.toNat ∧ k.code.toNat ≤ 6 := by cases k <;> decide

/-- Outside the tokens the four facts about them hold for want of a case. -/
theorem State.not_inTokens {s : State} (h : s.phase ≠ .fetch) (h' : s.phase ≠ .litcopy) (h'' : s.phase ≠ .refcopy) :
    ¬ s.inTokens := by
  rintro (h1 | h1 | h1) <;> contradiction

/-- Error entry keeps the invariant. -/
theorem State.Inv.raise {s : State} (h : s.Inv) (e : ErrorReport) : (s.raise e).Inv where
  busy_iff := by simp
  inCap_ge := h.inCap_ge
  outCap_ge := h.outCap_ge
  rasterCap_ge := h.rasterCap_ge
  inLen_le := h.inLen_le
  outLen_le := h.outLen_le
  inMem_wf := h.inMem_wf
  outMem_wf := h.outMem_wf
  rasterMem_wf := h.rasterMem_wf
  inMem_below := h.inMem_below
  outMem_below := h.outMem_below
  rasterMem_below := h.rasterMem_below
  noError := by simp
  errorCode := fun _ => e.kind.code_bounds
  cursor := by simp [State.inTokens]
  produced := by simp [State.inTokens]
  litcopy := by simp
  refcopy := by simp

/-- Completion keeps the invariant, from a state that is not in ERROR. -/
theorem State.Inv.finish {s : State} (h : s.Inv) (hs : s.status ≠ .error) : s.finish.Inv where
  busy_iff := by simp
  inCap_ge := h.inCap_ge
  outCap_ge := h.outCap_ge
  rasterCap_ge := h.rasterCap_ge
  inLen_le := h.inLen_le
  outLen_le := h.outLen_le
  inMem_wf := h.inMem_wf
  outMem_wf := h.outMem_wf
  rasterMem_wf := h.rasterMem_wf
  inMem_below := h.inMem_below
  outMem_below := h.outMem_below
  rasterMem_below := h.rasterMem_below
  noError := fun _ => h.noError hs
  errorCode := by simp
  cursor := by simp [State.inTokens]
  produced := by simp [State.inTokens]
  litcopy := by simp
  refcopy := by simp

/-- Acceptance keeps the invariant, in a phase that is no token phase. -/
theorem State.Inv.accept {s : State} (h : s.Inv) {p : Phase} (hp : p = .hdr ∨ p = .recon ∨ p = .palrd) :
    (s.accept p).Inv where
  busy_iff := by rcases hp with rfl | rfl | rfl <;> simp
  inCap_ge := h.inCap_ge
  outCap_ge := h.outCap_ge
  rasterCap_ge := h.rasterCap_ge
  inLen_le := h.inLen_le
  outLen_le := h.outLen_le
  inMem_wf := h.inMem_wf
  outMem_wf := h.outMem_wf
  rasterMem_wf := h.rasterMem_wf
  inMem_below := h.inMem_below
  outMem_below := h.outMem_below
  rasterMem_below := h.rasterMem_below
  noError := by simp
  errorCode := by simp
  cursor := by rcases hp with rfl | rfl | rfl <;> simp [State.inTokens]
  produced := by rcases hp with rfl | rfl | rfl <;> simp [State.inTokens]
  litcopy := by rcases hp with rfl | rfl | rfl <;> simp
  refcopy := by rcases hp with rfl | rfl | rfl <;> simp

/-- The moves to come are no part of the invariant. -/
theorem State.Inv.withSched {s : State} (h : s.Inv) (l : List Move) : (s.withSched l).Inv where
  busy_iff := h.busy_iff
  inCap_ge := h.inCap_ge
  outCap_ge := h.outCap_ge
  rasterCap_ge := h.rasterCap_ge
  inLen_le := h.inLen_le
  outLen_le := h.outLen_le
  inMem_wf := h.inMem_wf
  outMem_wf := h.outMem_wf
  rasterMem_wf := h.rasterMem_wf
  inMem_below := h.inMem_below
  outMem_below := h.outMem_below
  rasterMem_below := h.rasterMem_below
  noError := h.noError
  errorCode := h.errorCode
  cursor := h.cursor
  produced := h.produced
  litcopy := h.litcopy
  refcopy := h.refcopy

/-- Latching a control byte keeps the invariant at a token boundary. -/
theorem State.Inv.latch {s : State} (h : s.Inv) (hp : s.phase = .fetch) (c : Byte) : (s.latch c).Inv where
  busy_iff := h.busy_iff
  inCap_ge := h.inCap_ge
  outCap_ge := h.outCap_ge
  rasterCap_ge := h.rasterCap_ge
  inLen_le := h.inLen_le
  outLen_le := h.outLen_le
  inMem_wf := h.inMem_wf
  outMem_wf := h.outMem_wf
  rasterMem_wf := h.rasterMem_wf
  inMem_below := h.inMem_below
  outMem_below := h.outMem_below
  rasterMem_below := h.rasterMem_below
  noError := h.noError
  errorCode := h.errorCode
  cursor := h.cursor
  produced := h.produced
  litcopy := by simp [hp]
  refcopy := by simp [hp]

/-- While tokens run no error is recorded. -/
theorem State.Inv.status_of_inTokens {s : State} (h : s.Inv) (hp : s.inTokens) : s.status = .busy :=
  h.busy_iff.mpr (by rcases hp with hp | hp | hp <;> simp [hp])

/-- The copy loop keeps OUT canonical and below OUT_CAPACITY, and every byte below OUT_LEN written. -/
theorem copyLoop_mem (n : Nat) : ∀ (src : Nat) (s : State), s.outMem.wf → s.outLen.toNat + n ≤ s.outCap.toNat →
    s.outMem.below s.outCap.toNat →
   (∀ a, a < s.outLen.toNat → (s.outMem.read? a).isSome = true) →
   (copyLoop n src s).outMem.wf ∧ (copyLoop n src s).outMem.below s.outCap.toNat ∧ ∀ a, a < s.outLen.toNat + n →
       ((copyLoop n src s).outMem.read? a).isSome = true := by
  induction n with
  | zero => intro src s h1 h2 h3 h4; exact ⟨h1, h3, h4⟩
  | succ n ih =>
    intro src s h1 h2 h3 h4
    have hoc := s.outCap.isLt
    have hl : (s.outLen + 1#32).toNat = s.outLen.toNat + 1 := toNat_add_one (by omega)
    have hl' : (s.appendOut (s.readByte .output src)).outLen.toNat = s.outLen.toNat + 1 := hl
    obtain ⟨a, b, c⟩ := ih (src+1) (s.appendOut (s.readByte .output src)) (Memory.write_wf h1 _ _)
        (by rw [hl']; show _ ≤ s.outCap.toNat; omega)
      (Memory.write_below h3 (by omega) _) (by
        intro a ha
        rw [hl'] at ha
        show ((s.outMem.write _ _).read? a).isSome = true
        rw [Memory.read?_write]
        split
        · rfl
        · exact h4 a (by omega))
    refine ⟨a, b, ?_⟩
    intro x hx
    exact c x (by rw [hl']; omega)

/-- Running the token at IP keeps the invariant. -/
theorem State.Inv.after_runToken {s : State} (h : s.Inv) (hp : s.phase = .fetch)
    (hlt : s.ip.toNat < s.inLen.toNat) : (runToken s).Inv := by
  have hin : s.inTokens := .inl hp
  have hb := h.status_of_inTokens hin
  have hil := s.inLen.isLt
  have hoc := s.outCap.isLt
  have ⟨c1, c2⟩ := h.cursor hin
  rcases runToken_cases hlt with ⟨e, _, e1⟩ | ⟨b, _, _, _, _, hi, hc, e1⟩ | ⟨high, b1, b2, _, _, hi, hd, hc, e1⟩
  · rw [e1]; exact (h.latch hp _).raise e
  · rw [e1]
    have hip : (s.ip + BitVec.ofNat 32 (1 + b.length)).toNat = s.ip.toNat + (1 + b.length) := toNat_add_ofNat (by omega)
    have hol : (s.outLen + BitVec.ofNat 32 b.length).toNat = s.outLen.toNat + b.length := toNat_add_ofNat (by omega)
    constructor
    case busy_iff => simp [hb]
    case inCap_ge => exact h.inCap_ge
    case outCap_ge => exact h.outCap_ge
    case rasterCap_ge => exact h.rasterCap_ge
    case inLen_le => exact h.inLen_le
    case outLen_le => show (s.outLen + BitVec.ofNat 32 b.length).toNat ≤ s.outCap.toNat; omega
    case inMem_wf => exact h.inMem_wf
    case outMem_wf => exact Memory.writeAll_wf h.outMem_wf s.outLen.toNat b
    case rasterMem_wf => exact h.rasterMem_wf
    case inMem_below => exact h.inMem_below
    case outMem_below => exact Memory.writeAll_below (a := s.outLen.toNat) (vs := b) h.outMem_below hc
    case rasterMem_below => exact h.rasterMem_below
    case noError => intro _; simpa using h.noError (by rw [hb]; simp)
    case errorCode => intro h'; simp [hb] at h'
    case cursor => intro _; show 6 ≤ (s.ip + BitVec.ofNat 32 (1 + b.length)).toNat ∧
        (s.ip + BitVec.ofNat 32 (1 + b.length)).toNat ≤ s.inLen.toNat; omega
    case produced =>
      intro _ a ha
      have ha : a < (s.outLen + BitVec.ofNat 32 b.length).toNat := ha
      show ((s.outMem.writeAll s.outLen.toNat b).read? a).isSome = true
      rw [Memory.read?_writeAll]
      split
      · rfl
      · exact h.produced hin a (by omega)
    case litcopy => intro h'; cases h'
    case refcopy => intro h'; cases h'
  · rw [e1]
    have hip : (s.ip + BitVec.ofNat 32 3).toNat = s.ip.toNat + 3 := toNat_add_ofNat (by omega)
    have hol : (s.outLen + BitVec.ofNat 32 (copyLength b2)).toNat = s.outLen.toNat + copyLength b2 := toNat_add_ofNat (by omega)
    obtain ⟨m1, m2, m3⟩ := copyLoop_mem (copyLength b2) (s.outLen.toNat - brefDistance (brefControl high) b1)
        (s.latch (brefControl high)) h.outMem_wf hc h.outMem_below (h.produced hin)
    constructor
    case busy_iff => simp [hb]
    case inCap_ge => simpa using h.inCap_ge
    case outCap_ge => simpa using h.outCap_ge
    case rasterCap_ge => simpa using h.rasterCap_ge
    case inLen_le => simpa using h.inLen_le
    case outLen_le => simp; omega
    case inMem_wf => simpa using h.inMem_wf
    case outMem_wf => exact m1
    case rasterMem_wf => simpa using h.rasterMem_wf
    case inMem_below => simpa using h.inMem_below
    case outMem_below => simpa using m2
    case rasterMem_below => simpa using h.rasterMem_below
    case noError => intro _; simpa using h.noError (by rw [hb]; simp)
    case errorCode => intro h'; simp [hb] at h'
    case cursor => intro _; simp; omega
    case produced =>
      intro _ a ha
      have ha : a < (s.outLen + BitVec.ofNat 32 (copyLength b2)).toNat := by simpa using ha
      have := m3 a (by rw [State.latch_outLen]; omega); simpa using this
    case litcopy => intro h'; cases h'
    case refcopy => intro h'; cases h'

/-- The HDR step keeps the invariant. -/
theorem State.Inv.after_headerStep {s : State} (h : s.Inv) (hp : s.phase = .hdr) : (headerStep s).Inv := by
  have hb : s.status = .busy := h.busy_iff.mpr (by simp [hp])
  rcases headerStep_cases s with ⟨h', e⟩ | ⟨h6, e⟩ <;> rw [e]
  · apply State.Inv.raise
    exact ⟨h.busy_iff, h.inCap_ge, h.outCap_ge, h.rasterCap_ge, h.inLen_le, Nat.zero_le _, h.inMem_wf, h.outMem_wf,
        h.rasterMem_wf, h.inMem_below, h.outMem_below, h.rasterMem_below, h.noError, h.errorCode,
      fun hh => by rcases hh with hh | hh | hh <;> (have hh : s.phase = _ := hh; rw [hp] at hh; cases hh),
          fun _ a ha => by simp at ha,
      fun hh => (by have hh : s.phase = _ := hh; rw [hp] at hh; cases hh),
          fun hh => (by have hh : s.phase = _ := hh; rw [hp] at hh; cases hh)⟩
  · exact ⟨by simp [hb], h.inCap_ge, h.outCap_ge, h.rasterCap_ge, h.inLen_le, Nat.zero_le _, h.inMem_wf,
        h.outMem_wf, h.rasterMem_wf, h.inMem_below, h.outMem_below, h.rasterMem_below, h.noError, h.errorCode,
      fun hh => ⟨le_rfl, h6⟩, fun _ a ha => by simp at ha,
      fun hh => (by cases hh), fun hh => (by cases hh)⟩

/-- RECONSTRUCT keeps the invariant. -/
theorem State.Inv.after_reconstruct {s : State} (h : s.Inv) (hp : s.phase = .recon) : (reconstruct s).Inv := by
  have hb : s.status = .busy := h.busy_iff.mpr (by simp [hp])
  rcases reconstructError_cases s with ⟨_, e⟩ | ⟨_, _, e⟩ | ⟨_, _, _, e⟩ | ⟨_, _, hc, e⟩ <;> simp only [reconstruct,
      e]
  · exact h.raise _
  · exact h.raise _
  · exact h.raise _
  · apply State.Inv.finish
    · exact ⟨h.busy_iff, h.inCap_ge, h.outCap_ge, h.rasterCap_ge, h.inLen_le, h.outLen_le, h.inMem_wf, h.outMem_wf,
          s.writeImage_wf h.rasterMem_wf, h.inMem_below, h.outMem_below, s.writeImage_below h.rasterMem_below hc,
          h.noError, h.errorCode, h.cursor, h.produced, h.litcopy, h.refcopy⟩
    · show s.status ≠ _; rw [hb]; simp

/-- PALETTE_READ keeps the invariant. -/
theorem State.Inv.after_paletteRead {s : State} (h : s.Inv) (hp : s.phase = .palrd) : (paletteRead s).Inv := by
  have hb : s.status = .busy := h.busy_iff.mpr (by simp [hp])
  simp only [paletteRead]
  split
  · exact h.raise _
  · apply State.Inv.finish
    · exact ⟨h.busy_iff, h.inCap_ge, h.outCap_ge, h.rasterCap_ge, h.inLen_le, h.outLen_le, h.inMem_wf, h.outMem_wf,
          h.rasterMem_wf, h.inMem_below, h.outMem_below, h.rasterMem_below, h.noError, h.errorCode, h.cursor,
          h.produced, h.litcopy, h.refcopy⟩
    · show s.status ≠ _; rw [hb]; simp

/-- The LITCOPY step keeps the invariant. -/
theorem State.Inv.after_litCopyStep {s : State} (h : s.Inv) (hp : s.phase = .litcopy) : (litCopyStep s).Inv := by
  obtain ⟨f, h1, h2, h3, h4⟩ := h.litcopy hp
  have hin : s.inTokens := .inr (.inl hp)
  have hb := h.status_of_inTokens hin
  have hil := s.inLen.isLt
  have hoc := s.outCap.isLt
  have ⟨c1, c2⟩ := h.cursor hin
  have hip : (s.ip + BitVec.ofNat 32 1).toNat = s.ip.toNat + 1 := toNat_add_ofNat (by omega)
  have hol : (s.outLen + 1#32).toNat = s.outLen.toNat + 1 := toNat_add_one (by omega)
  have hcn : (s.wCnt - 1#9).toNat = s.wCnt.toNat - 1 := by rw [BitVec.toNat_sub]; simp; omega
  have hph : (litCopyStep s).phase = if s.wCnt - 1#9 = 0#9 then .fetch else .litcopy := by simp [litCopyStep,
      State.countDown, State.advance, State.appendOut, hp]
  constructor
  case busy_iff => rw [hph]; show s.status = .busy ↔ _; rw [hb]; split <;> simp
  case inCap_ge => exact h.inCap_ge
  case outCap_ge => exact h.outCap_ge
  case rasterCap_ge => exact h.rasterCap_ge
  case inLen_le => exact h.inLen_le
  case outLen_le => show (s.outLen + 1#32).toNat ≤ s.outCap.toNat; omega
  case inMem_wf => exact h.inMem_wf
  case outMem_wf => exact Memory.write_wf h.outMem_wf _ _
  case rasterMem_wf => exact h.rasterMem_wf
  case inMem_below => exact h.inMem_below
  case outMem_below => exact Memory.write_below h.outMem_below (by show s.outLen.toNat < s.outCap.toNat; omega) _
  case rasterMem_below => exact h.rasterMem_below
  case noError => intro _; exact h.noError (by rw [hb]; simp)
  case errorCode => intro h'; have h' : s.status = .error := h'; rw [hb] at h'; cases h'
  case cursor => intro _; show 6 ≤ (s.ip + BitVec.ofNat 32 1).toNat ∧
      (s.ip + BitVec.ofNat 32 1).toNat ≤ s.inLen.toNat; omega
  case produced =>
    intro _ a ha
    have ha : a < (s.outLen + 1#32).toNat := ha
    show ((s.outMem.write s.outLen.toNat _).read? a).isSome = true
    rw [Memory.read?_write]
    split
    · rfl
    · exact h.produced hin a (by omega)
  case litcopy =>
    intro h'; rw [hph] at h'
    split at h'
    · cases h'
    · rename_i hne
      have : (s.wCnt - 1#9).toNat ≠ 0 := fun e => hne (BitVec.eq_of_toNat_eq e)
      refine ⟨f, ?_⟩
      show 1 ≤ (s.wCnt - 1#9).toNat ∧ (s.wCnt - 1#9).toNat ≤ 128 ∧
          (s.ip + BitVec.ofNat 32 1).toNat + (s.wCnt - 1#9).toNat ≤ s.inLen.toNat ∧
          (s.outLen + 1#32).toNat + (s.wCnt - 1#9).toNat ≤ s.outCap.toNat
      omega
  case refcopy => intro h'; rw [hph] at h'; split at h' <;> cases h'

/-- The REFCOPY step keeps the invariant. -/
theorem State.Inv.after_refCopyStep {s : State} (h : s.Inv) (hp : s.phase = .refcopy) : (refCopyStep s).Inv := by
  obtain ⟨f, h1, h2, h3, h5, h4⟩ := h.refcopy hp
  have hin : s.inTokens := .inr (.inr hp)
  have hb := h.status_of_inTokens hin
  have hil := s.inLen.isLt
  have hoc := s.outCap.isLt
  have ⟨c1, c2⟩ := h.cursor hin
  have hsr : (s.wSrc + 1#32).toNat = s.wSrc.toNat + 1 := toNat_add_one (by omega)
  have hol : (s.outLen + 1#32).toNat = s.outLen.toNat + 1 := toNat_add_one (by omega)
  have hcn : (s.wCnt - 1#9).toNat = s.wCnt.toNat - 1 := by rw [BitVec.toNat_sub]; simp; omega
  have hph : (refCopyStep s).phase = if s.wCnt - 1#9 = 0#9 then .fetch else .refcopy := by simp [refCopyStep,
      State.countDown, State.nextSrc, State.appendOut, hp]
  constructor
  case busy_iff => rw [hph]; show s.status = .busy ↔ _; rw [hb]; split <;> simp
  case inCap_ge => exact h.inCap_ge
  case outCap_ge => exact h.outCap_ge
  case rasterCap_ge => exact h.rasterCap_ge
  case inLen_le => exact h.inLen_le
  case outLen_le => show (s.outLen + 1#32).toNat ≤ s.outCap.toNat; omega
  case inMem_wf => exact h.inMem_wf
  case outMem_wf => exact Memory.write_wf h.outMem_wf _ _
  case rasterMem_wf => exact h.rasterMem_wf
  case inMem_below => exact h.inMem_below
  case outMem_below => exact Memory.write_below h.outMem_below (by show s.outLen.toNat < s.outCap.toNat; omega) _
  case rasterMem_below => exact h.rasterMem_below
  case noError => intro _; exact h.noError (by rw [hb]; simp)
  case errorCode => intro h'; have h' : s.status = .error := h'; rw [hb] at h'; cases h'
  case cursor => intro _; exact ⟨c1, c2⟩
  case produced =>
    intro _ a ha
    have ha : a < (s.outLen + 1#32).toNat := ha
    show ((s.outMem.write s.outLen.toNat _).read? a).isSome = true
    rw [Memory.read?_write]
    split
    · rfl
    · exact h.produced hin a (by omega)
  case litcopy => intro h'; rw [hph] at h'; split at h' <;> cases h'
  case refcopy =>
    intro h'; rw [hph] at h'
    split at h'
    · cases h'
    · rename_i hne
      have : (s.wCnt - 1#9).toNat ≠ 0 := fun e => hne (BitVec.eq_of_toNat_eq e)
      refine ⟨f, ?_⟩
      show 1 ≤ (s.wCnt - 1#9).toNat ∧ (s.wCnt - 1#9).toNat ≤ 256 ∧
          (s.wSrc + 1#32).toNat < (s.outLen + 1#32).toNat ∧
          (s.outLen + 1#32).toNat ≤ (s.wSrc + 1#32).toNat + 32768 ∧
          (s.outLen + 1#32).toNat + (s.wCnt - 1#9).toNat ≤ s.outCap.toNat
      omega

/-- The FETCH step answers a next state that keeps the invariant. -/
theorem State.Inv.after_fetchStep {s : State} (h : s.Inv) (hp : s.phase = .fetch) : ∃ t, fetchStep s = .next t ∧
    t.Inv := by
  have hin : s.inTokens := .inl hp
  have hb := h.status_of_inTokens hin
  have hil := s.inLen.isLt
  have hoc := s.outCap.isLt
  have ⟨c1, c2⟩ := h.cursor hin
  by_cases hlt : s.ip.toNat < s.inLen.toNat
  · rcases fetchStep_cases hlt with ⟨e, _, e1, _⟩ | ⟨b, _, _, h1, h2, h3, h4, e1⟩ | ⟨high, b1, b2, _, _, h1, h2, h3,
        e1⟩
    · exact ⟨_, e1, (h.latch hp _).raise e⟩
    · refine ⟨_, e1, ?_⟩
      have hip : (s.ip + BitVec.ofNat 32 1).toNat = s.ip.toNat + 1 := toNat_add_ofNat (by omega)
      have hcn := toNat_ofNat9 (show b.length < 512 by omega)
      refine ⟨by simp [hb], by simpa using h.inCap_ge, by simpa using h.outCap_ge, by simpa using h.rasterCap_ge,
          by simpa using h.inLen_le, by simpa using h.outLen_le, by simpa using h.inMem_wf,
          by simpa using h.outMem_wf, by simpa using h.rasterMem_wf, by simpa using h.inMem_below,
          by simpa using h.outMem_below, by simpa using h.rasterMem_below, (by simpa using h.noError),
          (by simpa using h.errorCode),
        fun _ => by show 6 ≤ (s.ip + BitVec.ofNat 32 1).toNat ∧
            (s.ip + BitVec.ofNat 32 1).toNat ≤ s.inLen.toNat; omega,
        fun _ => h.produced hin,
        fun _ => ⟨matchFlag_litControl _, by show 1 ≤ (BitVec.ofNat 9 b.length).toNat ∧
            (BitVec.ofNat 9 b.length).toNat ≤ 128 ∧
            (s.ip + BitVec.ofNat 32 1).toNat + (BitVec.ofNat 9 b.length).toNat ≤ s.inLen.toNat ∧
            s.outLen.toNat + (BitVec.ofNat 9 b.length).toNat ≤ s.outCap.toNat; omega⟩, fun h => (by cases h)⟩
    · refine ⟨_, e1, ?_⟩
      have hip : (s.ip + BitVec.ofNat 32 3).toNat = s.ip.toNat + 3 := toNat_add_ofNat (by omega)
      have hcl := copyLength_bounds b2
      have hcn := toNat_ofNat9 (show copyLength b2 < 512 by omega)
      have hdb := brefDistance_bounds (matchFlag_brefControl high) b1
      have hsr : (BitVec.ofNat 32 (s.outLen.toNat - brefDistance (brefControl high) b1)).toNat = s.outLen.toNat - brefDistance (brefControl high) b1 := by
        rw [BitVec.toNat_ofNat, Nat.mod_eq_of_lt]; have := s.outLen.isLt; omega
      refine ⟨by simp [hb], by simpa using h.inCap_ge, by simpa using h.outCap_ge, by simpa using h.rasterCap_ge,
          by simpa using h.inLen_le, by simpa using h.outLen_le, by simpa using h.inMem_wf,
          by simpa using h.outMem_wf, by simpa using h.rasterMem_wf, by simpa using h.inMem_below,
          by simpa using h.outMem_below, by simpa using h.rasterMem_below, (by simpa using h.noError),
          (by simpa using h.errorCode),
        fun _ => by show 6 ≤ (s.ip + BitVec.ofNat 32 3).toNat ∧
            (s.ip + BitVec.ofNat 32 3).toNat ≤ s.inLen.toNat; omega,
        fun _ => h.produced hin,
        fun h => (by cases h),
        fun _ => ⟨matchFlag_brefControl _, by show 1 ≤ (BitVec.ofNat 9 (copyLength b2)).toNat ∧
            (BitVec.ofNat 9 (copyLength b2)).toNat ≤ 256 ∧
            (BitVec.ofNat 32 (s.outLen.toNat - brefDistance (brefControl high) b1)).toNat < s.outLen.toNat ∧
            s.outLen.toNat ≤ (BitVec.ofNat 32 (s.outLen.toNat - brefDistance (brefControl high) b1)).toNat + 32768 ∧ s.outLen.toNat + (BitVec.ofNat 9 (copyLength b2)).toNat ≤ s.outCap.toNat; omega⟩⟩
  · refine ⟨s.finish, by rw [fetchStep, if_pos (by omega)], h.finish (by rw [hb]; simp)⟩

/-- A register write while no command runs keeps the invariant. -/
theorem State.Inv.after_storeReg {s : State} (h : s.Inv) (hb : s.status ≠ .busy) (r : Reg)
    (v : Word) : (s.storeReg r v).Inv := by
  have hp : s.phase = .halt := by by_contra hp; exact hb (h.busy_iff.mpr hp)
  have nt : ∀ t : State, t.phase = s.phase → ¬ t.inTokens := by
    intro t ht hh; rcases hh with hh | hh | hh <;> (rw [ht, hp] at hh; cases hh)
  cases r <;> simp only [State.storeReg] <;> try exact h
  case inLen =>
    split
    · exact h
    · exact ⟨h.busy_iff, h.inCap_ge, h.outCap_ge, h.rasterCap_ge, by show v.toNat ≤ s.inCap.toNat; omega,
          h.outLen_le, h.inMem_wf, h.outMem_wf, h.rasterMem_wf, h.inMem_below, h.outMem_below, h.rasterMem_below,
          h.noError, h.errorCode,
       fun hh => absurd hh (nt _ rfl), fun hh => absurd hh (nt _ rfl), fun hh => absurd (.inr (.inl hh)) (nt _ rfl),
           fun hh => absurd (.inr (.inr hh)) (nt _ rfl)⟩
  case outLen =>
    split
    · exact h
    · exact ⟨h.busy_iff, h.inCap_ge, h.outCap_ge, h.rasterCap_ge, h.inLen_le,
          by show v.toNat ≤ s.outCap.toNat; omega, h.inMem_wf, h.outMem_wf, h.rasterMem_wf, h.inMem_below,
          h.outMem_below, h.rasterMem_below, h.noError, h.errorCode,
       fun hh => absurd hh (nt _ rfl), fun hh => absurd hh (nt _ rfl), fun hh => absurd (.inr (.inl hh)) (nt _ rfl),
           fun hh => absurd (.inr (.inr hh)) (nt _ rfl)⟩
  all_goals exact ⟨h.busy_iff, h.inCap_ge, h.outCap_ge, h.rasterCap_ge, h.inLen_le, h.outLen_le, h.inMem_wf,
      h.outMem_wf, h.rasterMem_wf, h.inMem_below, h.outMem_below, h.rasterMem_below, h.noError, h.errorCode,
      h.cursor, h.produced, h.litcopy, h.refcopy⟩

/-- A host write of a memory byte keeps the invariant. -/
theorem State.Inv.after_hostMemWrite {s : State} (h : s.Inv) (sp : Space) (a : Nat)
    (v : Byte) : (hostMemWrite sp a v s).Inv := by
  simp only [hostMemWrite]
  split
  · exact h
  · rename_i hb
    have hb : s.status ≠ .busy := by simpa [State.busy] using hb
    have hp : s.phase = .halt := by by_contra hp; exact hb (h.busy_iff.mpr hp)
    have nt : ∀ t : State, t.phase = s.phase → ¬ t.inTokens := by
      intro t ht hh; rcases hh with hh | hh | hh <;> (rw [ht, hp] at hh; cases hh)
    cases sp
    · dsimp only
      split
      · rename_i hlt
        exact ⟨h.busy_iff, h.inCap_ge, h.outCap_ge, h.rasterCap_ge, h.inLen_le, h.outLen_le,
            Memory.write_wf h.inMem_wf _ _, h.outMem_wf, h.rasterMem_wf, Memory.write_below h.inMem_below hlt _,
            h.outMem_below, h.rasterMem_below, h.noError, h.errorCode, h.cursor, h.produced, h.litcopy, h.refcopy⟩
      · exact h
    · dsimp only
      split
      · rename_i hlt
        exact ⟨h.busy_iff, h.inCap_ge, h.outCap_ge, h.rasterCap_ge, h.inLen_le, h.outLen_le, h.inMem_wf,
            Memory.write_wf h.outMem_wf _ _, h.rasterMem_wf, h.inMem_below, Memory.write_below h.outMem_below hlt _,
            h.rasterMem_below, h.noError, h.errorCode,
         fun hh => absurd hh (nt _ rfl), fun hh => absurd hh (nt _ rfl), fun hh => absurd (.inr (.inl hh))
             (nt _ rfl), fun hh => absurd (.inr (.inr hh)) (nt _ rfl)⟩
      · exact h
    · exact h

/-- Reset keeps the invariant. -/
theorem State.Inv.after_assertReset {s : State} (h : s.Inv) : s.assertReset.Inv := by
  have nt : ¬ s.assertReset.inTokens := by rintro (h | h | h) <;> cases h
  exact ⟨by simp [State.assertReset, State.reset], h.inCap_ge, h.outCap_ge, h.rasterCap_ge, Nat.zero_le _,
      Nat.zero_le _, List.Pairwise.nil, List.Pairwise.nil, List.Pairwise.nil,
    fun _ hc => absurd hc List.not_mem_nil, fun _ hc => absurd hc List.not_mem_nil,
        fun _ hc => absurd hc List.not_mem_nil, fun _ => ⟨rfl, rfl, rfl, rfl⟩, fun h => (by cases h),
        fun h => absurd h nt, fun h => absurd h nt, fun h => (by cases h), fun h => (by cases h)⟩

end Sys2Proof.Machine
end

