-- ==== Sys2Proof/Laws/PerInstr.lean ====
section
/-! SUPPORT. The family RoundTrip: decoding the encoding of a well-formed instruction gives it back, one lemma for
each constructor. -/

/-- Decoding what the encoder writes for i gives i, if i is well formed. -/
def Sys2Proof.Laws.RoundTrip.Statement (i : Sys2Proof.Instr) : Prop :=
  Sys2Proof.WellFormed i → Sys2Proof.decode (Sys2Proof.encode i) = .token i []

namespace Sys2Proof.Laws

theorem RoundTrip.lit (bytes : List Byte) : RoundTrip.Statement (.lit bytes) := by
  intro h
  have h : 1 ≤ bytes.length ∧ bytes.length ≤ 128 := by simpa [WellFormed, Instr.wellFormed] using h
  simpa [decode, encode] using decodeToken_lit h.1 h.2 []

theorem RoundTrip.bref (high : BitVec 7) (low len : Byte) : RoundTrip.Statement (.bref high low len) :=
  fun _ => decodeToken_bref high low len []

theorem RoundTrip.decompress : RoundTrip.Statement .decompress := fun _ => rfl

theorem RoundTrip.reconstruct : RoundTrip.Statement .reconstruct := fun _ => rfl

theorem RoundTrip.paletteRead : RoundTrip.Statement .paletteRead := fun _ => rfl

theorem RoundTrip.illegalCommand (word : Word) : RoundTrip.Statement (.illegalCommand word) := by
  intro h
  have h : (word ≠ 1#32 ∧ word ≠ 2#32) ∧ word ≠ 3#32 := by simpa [WellFormed, Instr.wellFormed] using h
  simp [decode, encode, decodeCommand_illegal h.1.1 h.1.2 h.2]

end Sys2Proof.Laws
end

