-- ==== Sys2Proof/Tests/Slice0.lean ====
section
/-! SUPPORT. Tests: the WellFormed checks, words written out from 30_encoding.md and 95_test_vectors.md, at most two
single steps for each instruction with the results of 95_test_vectors.md, and for every obligation that has hypotheses
a state and operands that meet them. -/

namespace Sys2Proof.Machine.Tests

/-! ## WellFormed refuses an ill-formed term for each of its checks -/

theorem test_wf_lit_empty : ¬ WellFormed (.lit []) := by decide
set_option maxRecDepth 4096 in
theorem test_wf_lit_129 : ¬ WellFormed (.lit (List.replicate 129 0)) := by decide
theorem test_wf_illegal_1 : ¬ WellFormed (.illegalCommand 1) := by decide
theorem test_wf_illegal_2 : ¬ WellFormed (.illegalCommand 2) := by decide
theorem test_wf_illegal_3 : ¬ WellFormed (.illegalCommand 3) := by decide

/-! ## Decoding: words of the spec's encodings -/

/-- 0LLLLLLL with L = 2, then d_0 d_1 d_2 (R92): `02 41 42 43` of 40_lzss.md R115's example. -/
theorem test_decode_lit : decodeToken [0b00000010, 0x41, 0x42, 0x43, 0x99] = .token (.lit [0x41, 0x42, 0x43]) [0x99] := by
  decide

set_option maxRecDepth 4096 in
/-- L = 127: the longest run, 128 bytes (R94). -/
theorem test_decode_lit_longest :
    decodeToken (0b01111111 :: List.replicate 129 0x5A) = .token (.lit (List.replicate 128 0x5A)) [0x5A] := by decide

/-- 1HHHHHHH OOOOOOOO NNNNNNNN (R93): `FF FE 05`, off = -2, n = 6 (R118's example). -/
theorem test_decode_bref :
    decodeToken [0b11111111, 0b11111110, 0b00000101] = .token (.bref 0b1111111 0xFE 5) [] ∧
    brefOffset 0xFF 0xFE = -2 ∧ copyLength 5 = 6 := by decide

/-- `C0 00 10`: off = -16384, n = 17 (95_test_vectors.md section 2.1). -/
theorem test_decode_bref_c0 :
    decodeToken [0xC0, 0x00, 0x10] = .token (.bref 0x40 0 0x10) [] ∧ brefOffset 0xC0 0x00 = -16384 ∧
    copyLength 0x10 = 17 := by decide

set_option maxRecDepth 4096 in
/-- A claim of 128 bytes with 127 left (95_test_vectors.md section 2.2), and a BREF without its second operand. -/
theorem test_decode_truncated :
    decodeToken (0x7F :: List.replicate 127 0) = .truncated 128 127 ∧ decodeToken [0x80, 0x00] = .truncated 2 1 := by
  decide

/-- The command words of R103, and two words that are none (95_test_vectors.md section 2.7). -/
theorem test_decode_commands :
    decodeCommand 1 = .decompress ∧ decodeCommand 2 = .reconstruct ∧ decodeCommand 3 = .paletteRead ∧
    decodeCommand 0 = .illegalCommand 0 ∧ decodeCommand 0x101 = .illegalCommand 0x101 := by decide

/-- The opcode table's numbering: a first byte alone, with operand bytes of zero; and a command word (log 15). -/
theorem test_decode_table_word :
    decodeTableWord 8 0x00 = some (.lit [0]) ∧ decodeTableWord 24 0x05FEFF = some (.bref 0x7F 0xFE 5) ∧
    decodeTableWord 8 0x80 = some (.bref 0 0 0) ∧ decodeTableWord 32 2 = some .reconstruct ∧
    decodeTableWord 0 0 = some (.illegalCommand 0) := by decide

/-- The assembler notation of R104 and R105: `REF -1, 5` is `FF FF 04`, `LIT 0xAA` is `00 AA`, program P6's
`FILL 0x5A, 257`, and `HDR 0, 8, 1`. -/
theorem test_assembler :
    asmRef 1 5 = [0xFF, 0xFF, 0x04] ∧ asmRef 32768 1 = [0x80, 0x00, 0x00] ∧ asmLit [0xAA] = [0x00, 0xAA] ∧
    asmFill 0x5A 257 = [0x00, 0x5A, 0xFF, 0xFF, 0xFF] ∧ asmHdr 0 8 1 = [0, 0, 8, 0, 1, 0] ∧
    asmCopy 2 300 = [0xFF, 0xFE, 0xFF, 0xFF, 0xFE, 43] ∧ asmLits [1, 2] = [1, 1, 2] := by decide

/-- The last register lies at REG_BASE + 0x54, and a register is four bytes on the bus in either order (R70, R76). -/
theorem test_platform (v : Word) :
    regAddress .rasterCap = Config.regBase + 0x54 ∧ (busBytes v).length = 4 := by
  refine ⟨rfl, ?_⟩
  unfold busBytes
  split <;> simp [leBytes]

/-! ## States -/

/-- A palette whose entry i is (a + i, b, i). -/
def testPalette (a b : Byte) : Palette :=
  ⟨#[⟨a, b, 0⟩, ⟨a + 1, b, 1⟩, ⟨a + 2, b, 2⟩, ⟨a + 3, b, 3⟩, ⟨a + 4, b, 4⟩, ⟨a + 5, b, 5⟩, ⟨a + 6, b, 6⟩,
     ⟨a + 7, b, 7⟩, ⟨a + 8, b, 8⟩, ⟨a + 9, b, 9⟩, ⟨a + 10, b, 10⟩, ⟨a + 11, b, 11⟩, ⟨a + 12, b, 12⟩,
     ⟨a + 13, b, 13⟩, ⟨a + 14, b, 14⟩, ⟨a + 15, b, 15⟩], rfl⟩

/-- The reset state with given parameters. -/
def idle : State :=
  { State.reset with
    inCap := 64, outCap := 16, rasterCap := 64, rom0 := testPalette 0x10 0x20, rom1 := testPalette 0x50 0x60 }

/-- A file in IN. -/
def withFile (file : List Byte) : State :=
  { idle with inMem := Memory.writeAll [] 0 file, inLen := BitVec.ofNat 32 file.length }

/-- DECOMPRESS accepted on a file. -/
def atHeader (file : List Byte) : State := (withFile file).accept .hdr

/-- DECOMPRESS at the first token of a payload, after `HDR 0, 8, 1`, with given bytes in OUT. -/
def atToken (payload out : List Byte) : State :=
  { withFile (asmHdr 0 8 1 ++ payload) with
    status := .busy, phase := .fetch, ip := 6, outMem := Memory.writeAll [] 0 out
    outLen := BitVec.ofNat 32 out.length }

/-- In the middle of a LIT: one byte left to copy. -/
def inLitCopy : State := { atToken [0x00, 0x41] [] with phase := .litcopy, wC := 0x00, wCnt := 1, ip := 7 }

/-- In the middle of a BREF of distance 1: two bytes left to copy. -/
def inRefCopy : State :=
  { atToken [0xFF, 0xFF, 0x01] [0xAA] with phase := .refcopy, wC := 0xFF, wCnt := 2, wSrc := 0, ip := 9 }

/-- A planar buffer with its size, RECONSTRUCT accepted. -/
def atRecon (buffer : List Byte) (width height : BitVec 16) : State :=
  { idle.accept .recon with
    outMem := Memory.writeAll [] 0 buffer, outLen := BitVec.ofNat 32 buffer.length, width := width, height := height }

/-- Whether an outcome is a next state with a property. -/
def nextWith (o : Host.Outcome State Fault Refusal) (p : State → Bool) : Bool :=
  match o with
  | .next t => p t
  | .fault _ => false
  | .refused _ => false

/-- Whether a state is in ERROR with a context, ERR(c, p, e, a) of 95_test_vectors.md. -/
def hasError (c p e a : Nat) (t : State) : Bool :=
  decide (t.status = .error ∧ t.phase = .halt ∧ t.errCode.toNat = c ∧ t.errPos.toNat = p ∧ t.errExpected.toNat = e ∧
    t.errAvailable.toNat = a)

/-- The bytes of OUT[0..OUT_LEN). -/
def outBytes (t : State) : List Byte := t.readBytes .output 0 t.outLen.toNat

/-! ## One step of each instruction -/

/-- R115's example: `02 41 42 43` at IP = 6. -/
theorem test_lit : nextWith (step (atToken [0x02, 0x41, 0x42, 0x43] []))
    (fun t => decide (outBytes t = [0x41, 0x42, 0x43] ∧ t.outLen = 3 ∧ t.ip = 10)) := by decide

/-- `00 41 01 42`, second token (section 2.2): ERR(1, 8, 2, 1), here with the first token already run. -/
theorem test_lit_truncated : nextWith (step { atToken [0x00, 0x41, 0x01, 0x42] [0x41] with ip := 8 })
    (fun t => hasError 1 8 2 1 t && decide (outBytes t = [0x41] ∧ t.ip = 8)) := by decide

/-- R118's example: OUT = `41 42` and the token `FF FE 05`. -/
theorem test_bref_overlap : nextWith (step (atToken [0xFF, 0xFE, 0x05] [0x41, 0x42]))
    (fun t => decide (outBytes t = [0x41, 0x42, 0x41, 0x42, 0x41, 0x42, 0x41, 0x42] ∧ t.ip = 9)) := by decide

/-- `FF FF 00` with OUT_LEN = 0 (L1-3): ERR(2, 6, 1, 0). -/
theorem test_bref_no_history : nextWith (step (atToken [0xFF, 0xFF, 0x00] [])) (hasError 2 6 1 0) := by decide

/-- R110's example (L1-2). -/
theorem test_decompress : nextWith (step (atHeader [0, 0, 8, 0, 1, 0, 0x00, 0xAA, 0xFF, 0xFF, 0x04]))
    (fun t => decide (t.status = .done ∧ t.width = 8 ∧ t.height = 1 ∧ t.ip = 11 ∧
      outBytes t = [0xAA, 0xAA, 0xAA, 0xAA, 0xAA, 0xAA])) := by decide

/-- `00 00 08` (section 2.4): ERR(1, 0, 6, 3). -/
theorem test_decompress_short : nextWith (step (atHeader [0, 0, 8])) (hasError 1 0 6 3) := by decide

/-- `F0 CC AA 01`, 8 by 1 (section 2.5): indices 7 3 5 1 6 2 4 8; row 1 starts at RASTER[32]. -/
theorem test_reconstruct : nextWith (step (atRecon [0xF0, 0xCC, 0xAA, 0x01] 8 1)) (fun t =>
    decide (t.status = .done ∧
      (List.range 8).map (fun x => t.rasterMem.read? (4 * x + 2)) = [some 7, some 3, some 5, some 1, some 6, some 2,
        some 4, some 8] ∧
      t.readBytes .raster 32 4 = [0x17, 0x20, 7, 255])) := by decide

/-- WIDTH = HEIGHT = 65535 and OUT_LEN = 2147450880 (section 2.5, saturation): ERR(5, 0, 0xFFFFFFFF, RASTER_CAP). -/
theorem test_reconstruct_saturates :
    nextWith (step { atRecon [] 65535 65535 with outLen := 2147450880 }) (hasError 5 0 0xFFFFFFFF 64) := by decide

/-- PAL_SEL = 1, PAL_IDX = 15 (section 2.6). -/
theorem test_palette_read : nextWith (step { idle.accept .palrd with palSel := 1, palIdx := 15 })
    (fun t => decide (t.status = .done ∧ t.palRgb = 0x5F600F)) := by decide

/-- PAL_SEL = 0xFF (section 2.6): ERR(4, 0, 2, 255). -/
theorem test_palette_read_unknown :
    nextWith (step { idle.accept .palrd with palSel := 0xFF }) (hasError 4 0 2 255) := by decide

/-- CMD = 0x101 (section 2.7): ERR(6, 0, 3, 0x101), and nothing while BUSY. -/
theorem test_illegal_command :
    nextWith (step (idle.withSched [Move.writeReg .cmd 0x101])) (hasError 6 0 3 0x101) ∧
    nextWith (exec (.illegalCommand 0x101) inLitCopy) (fun t => decide (t = inLitCopy)) := by decide

/-- WIDTH = 0x00012345 with HEIGHT 3, and TRANSP = 0xFFFFFE17 (section 2.7). -/
theorem test_register_writes :
    nextWith (step ({ idle with height := 3 }.withSched [Move.writeReg .width 0x00012345]))
      (fun t => decide (t.readReg .width = 9029 ∧ t.readReg .expectedLen = 13548 ∧ t.readReg .rasterW = 9032)) ∧
    nextWith (step (idle.withSched [Move.writeReg .transp 0xFFFFFE17]))
      (fun t => decide (t.readReg .transp = 0x017 ∧ t.transpEnabled = false)) := by decide

/-- The words of the opcode table run as the first instruction after reset (log 14). -/
theorem test_fetch_word :
    step (State.reset.withFetchWord 8 0) = exec (.lit [0]) (State.reset.withFetchWord 8 0) ∧
    step (State.reset.withFetchWord 8 0x80) = exec (.bref 0 0 0) (State.reset.withFetchWord 8 0x80) ∧
    step (State.reset.withFetchWord 32 1) = exec .decompress (State.reset.withFetchWord 32 1) ∧
    step (State.reset.withFetchWord 32 2) = exec .reconstruct (State.reset.withFetchWord 32 2) ∧
    step (State.reset.withFetchWord 32 3) = exec .paletteRead (State.reset.withFetchWord 32 3) ∧
    step (State.reset.withFetchWord 32 0) = exec (.illegalCommand 0) State.reset :=
  ⟨rfl, rfl, rfl, rfl, rfl, rfl⟩

/-! ## Witnesses: for each obligation with hypotheses, a state and operands that meet them -/

/-- The invariant as a check on a concrete state. -/
def invCheck (s : State) : Bool :=
  decide (
    (s.status = .busy ↔ s.phase ≠ .halt) ∧ 6 ≤ s.inCap.toNat ∧ 1 ≤ s.outCap.toNat ∧ 8 ≤ s.rasterCap.toNat ∧
    s.inLen.toNat ≤ s.inCap.toNat ∧ s.outLen.toNat ≤ s.outCap.toNat ∧ s.inMem.wf ∧ s.outMem.wf ∧ s.rasterMem.wf ∧
    (∀ c ∈ s.inMem, c.1 < s.inCap.toNat) ∧ (∀ c ∈ s.outMem, c.1 < s.outCap.toNat) ∧
    (∀ c ∈ s.rasterMem, c.1 < s.rasterCap.toNat)) &&
  decide (
    (s.status ≠ .error → s.errCode = 0 ∧ s.errPos = 0 ∧ s.errExpected = 0 ∧ s.errAvailable = 0) ∧
    (s.status = .error → 1 ≤ s.errCode.toNat ∧ s.errCode.toNat ≤ 6) ∧
    (s.phase = .fetch ∨ s.phase = .litcopy ∨ s.phase = .refcopy → 6 ≤ s.ip.toNat ∧ s.ip.toNat ≤ s.inLen.toNat) ∧
    (s.phase = .fetch ∨ s.phase = .litcopy ∨ s.phase = .refcopy →
      ∀ a, a < s.outLen.toNat → (s.outMem.read? a).isSome = true)) &&
  decide (
    (s.phase = .litcopy → s.latchedFlag = false ∧ 1 ≤ s.wCnt.toNat ∧ s.wCnt.toNat ≤ 128 ∧
      s.ip.toNat + s.wCnt.toNat ≤ s.inLen.toNat ∧ s.outLen.toNat + s.wCnt.toNat ≤ s.outCap.toNat) ∧
    (s.phase = .refcopy → s.latchedFlag = true ∧ 1 ≤ s.wCnt.toNat ∧ s.wCnt.toNat ≤ 256 ∧
      s.wSrc.toNat < s.outLen.toNat ∧ s.outLen.toNat ≤ s.wSrc.toNat + 32768 ∧
      s.outLen.toNat + s.wCnt.toNat ≤ s.outCap.toNat))

theorem inv_of_check {s : State} (h : invCheck s = true) : s.Inv := by
  simp only [invCheck, Bool.and_eq_true, decide_eq_true_eq] at h
  obtain ⟨⟨⟨h1, h2, h3, h4, h5, h6, h7, h8, h9, h10, h11, h12⟩, h13, h14, h15, h16⟩, h17, h18⟩ := h
  exact ⟨h1, h2, h3, h4, h5, h6, h7, h8, h9, h10, h11, h12, h13, h14, h15, h16, h17, h18⟩

/-- The state after an error. -/
def inError : State := idle.raise ⟨.illegalCommand, 0, 3, 4⟩

theorem inv_idle : idle.Inv := inv_of_check (by decide)
theorem inv_error : inError.Inv := inv_of_check (by decide)
theorem inv_header : (atHeader [0, 0, 8, 0, 1, 0, 0, 0xAA]).Inv := inv_of_check (by decide)
theorem inv_fetch : (atToken [0xFF, 0xFF, 0x01] [0xAA]).Inv := inv_of_check (by decide)
theorem inv_litCopy : inLitCopy.Inv := inv_of_check (by decide)
theorem inv_refCopy : inRefCopy.Inv := inv_of_check (by decide)
theorem inv_recon : (atRecon [0x80, 0, 0, 0] 8 1).Inv := inv_of_check (by decide)
theorem inv_palrd : (idle.accept .palrd).Inv := inv_of_check (by decide)

set_option maxRecDepth 4096 in
theorem witness_EveryEncodingDecodesToItsInstruction :
    WellFormed (.lit [0x41]) ∧ WellFormed (.lit (List.replicate 128 0xFF)) ∧ WellFormed (.bref 0 0 0) ∧
    WellFormed .decompress ∧ WellFormed .reconstruct ∧ WellFormed .paletteRead ∧ WellFormed (.illegalCommand 0) ∧
    WellFormed (.illegalCommand 0xFFFFFFFF) := by decide

theorem witness_DecodedTokenIsItsEncoding :
    decodeToken [0x00, 0x41, 0x99] = .token (.lit [0x41]) [0x99] ∧
    decodeToken [0x80, 0x00, 0x00] = .token (.bref 0 0 0) [] := by decide

/-- Both clauses at the ends of their ranges. -/
theorem witness_TokenLengthFromFirstByte :
    (decodeToken [0x00, 0x41] = .token (.lit [0x41]) [] ∧ (0x00 : Byte).getLsbD 7 = false) ∧
    (decodeToken [0x80, 0x00, 0x00] = .token (.bref 0 0 0) [] ∧ (0x80 : Byte).getLsbD 7 = true) ∧
    (decodeToken [0xFF, 0xFF, 0xFF] = .token (.bref 0x7F 0xFF 0xFF) [] ∧ (0xFF : Byte).getLsbD 7 = true) := by decide

set_option maxRecDepth 4096 in
theorem witness_NoTokenEncodingIsReserved :
    (tokenLength 0x00 ≤ 2 ∧ (0x00 : Byte).getLsbD 7 = false) ∧
    (tokenLength 0x7F ≤ (0x7F :: List.replicate 128 (0 : Byte)).length ∧ (0x7F : Byte).getLsbD 7 = false) ∧
    (tokenLength 0xFF ≤ 3 ∧ (0xFF : Byte).getLsbD 7 = true) := by decide

theorem witness_CommandWordsAreComparedWhole :
    (0 : Word) ≠ 1 ∧ (0 : Word) ≠ 2 ∧ (0 : Word) ≠ 3 ∧ (4 : Word) ≠ 1 ∧ (4 : Word) ≠ 2 ∧ (4 : Word) ≠ 3 := by decide

theorem witness_BrefOffsetIsNegative : (0x80 : Byte).getLsbD 7 = true ∧ (0xFF : Byte).getLsbD 7 = true := by decide

/-- A run that ends exactly at IN_LEN and fills OUT exactly. -/
theorem witness_LitAppendsItsBytes :
    let s := { atToken [0x01, 0x41, 0x42] [] with outCap := 2 }
    WellFormed (.lit [0x41, 0x42]) ∧ 2 = s.inLen.toNat - (s.ip.toNat + 1) ∧
    s.outLen.toNat + 2 = s.outCap.toNat := by decide

/-- A control byte that is the last byte of IN, and a claim of 128 bytes with none left. -/
theorem witness_LitTruncationIsReported :
    (let s := atToken [0x00] []
     s.sched = [] ∧ s.phase = .fetch ∧ s.ip.toNat < s.inLen.toNat ∧ s.readByte .input s.ip.toNat = 0x00 ∧
     s.inLen.toNat - (s.ip.toNat + 1) < 0x00 + 1) ∧
    (let s := atToken [0x7F] []
     s.sched = [] ∧ s.phase = .fetch ∧ s.ip.toNat < s.inLen.toNat ∧ s.readByte .input s.ip.toNat = 0x7F ∧
     s.inLen.toNat - (s.ip.toNat + 1) < 0x7F + 1) ∧
    (let s := atToken [0x00] []
     WellFormed (.lit [0x41]) ∧ s.inLen.toNat - (s.ip.toNat + 1) < 1) := by decide

theorem witness_LitFrame :
    (∃ t, exec (.lit [0x41]) (atToken [0x00, 0x41] []) = .next t ∧ t.phase ≠ .halt) ∧
    (∃ t, exec (.lit [0x41]) (atToken [0x00] []) = .next t ∧ t.phase = .halt) :=
  ⟨⟨_, rfl, by decide⟩, ⟨_, rfl, by decide⟩⟩

/-- The farthest source there is (src = 0), and OUT filled exactly. -/
theorem witness_BrefRepeatsEarlierOutput :
    let s := { atToken [0xFF, 0xFE, 0x01] [0x41, 0x42] with outCap := 4 }
    2 = s.inLen.toNat - (s.ip.toNat + 1) ∧ brefDistance (brefControl 0x7F) 0xFE = s.outLen.toNat ∧
    s.outLen.toNat + copyLength 0x01 = s.outCap.toNat := by decide

/-- No operand byte, and one. -/
theorem witness_BrefTruncationIsReported :
    (let s := atToken [0x80] []
     s.sched = [] ∧ s.phase = .fetch ∧ s.ip.toNat < s.inLen.toNat ∧
     (s.readByte .input s.ip.toNat).getLsbD 7 = true ∧ s.inLen.toNat - (s.ip.toNat + 1) = 0) ∧
    (let s := atToken [0x80, 0x00] []
     s.sched = [] ∧ s.phase = .fetch ∧ s.ip.toNat < s.inLen.toNat ∧
     (s.readByte .input s.ip.toNat).getLsbD 7 = true ∧ s.inLen.toNat - (s.ip.toNat + 1) = 1) := by decide

/-- d = OUT_LEN + 1. -/
theorem witness_BrefWithoutHistoryIsReported :
    let s := atToken [0xFF, 0xFE, 0x00] [0x41]
    2 ≤ s.inLen.toNat - (s.ip.toNat + 1) ∧ brefSource s (brefControl 0x7F) 0xFE = -1 := by decide

theorem witness_TokenOverflowIsReported :
    (let s := { atToken [0x00, 0x41] [0x11] with outCap := 1 }
     s.outLen.toNat + 1 > s.outCap.toNat ∧ WellFormed (.lit [0x41]) ∧ 1 ≤ s.inLen.toNat - (s.ip.toNat + 1)) ∧
    (let s := { atToken [0xFF, 0xFF, 0x00] [0x11] with outCap := 1 }
     s.outLen.toNat + copyLength 0 > s.outCap.toNat ∧ 2 ≤ s.inLen.toNat - (s.ip.toNat + 1) ∧
     0 ≤ brefSource s (brefControl 0x7F) 0xFF) := by decide

theorem witness_BrefFrame :
    (∃ t, exec (.bref 0x7F 0xFF 1) (atToken [0xFF, 0xFF, 0x01] [0xAA]) = .next t ∧ t.phase ≠ .halt) ∧
    (∃ t, exec (.bref 0x7F 0xFF 1) (atToken [0xFF, 0xFF, 0x01] []) = .next t ∧ t.phase = .halt) :=
  ⟨⟨_, rfl, by decide⟩, ⟨_, rfl, by decide⟩⟩

theorem witness_FailingTokenWritesNothing :
    let s := atToken [0xFF, 0xFF, 0x01] []
    s.sched = [] ∧ s.phase = .fetch ∧ s.status ≠ .error ∧ ∃ t, step s = .next t ∧ t.status = .error :=
  ⟨rfl, rfl, by decide, _, rfl, by decide⟩

theorem witness_HeaderFieldsAreLittleEndian :
    (atHeader [0xEF, 0xBE, 0x10, 0, 3, 0]).phase = .hdr ∧ 6 ≤ (atHeader [0xEF, 0xBE, 0x10, 0, 3, 0]).inLen.toNat := by
  decide

theorem witness_ShortHeaderIsTruncated :
    (atHeader []).inLen.toNat < 6 ∧ (atHeader [0, 0, 8, 0, 1]).inLen.toNat < 6 := by decide

theorem witness_EmptyPayloadDecodesToNothing : (atHeader [0xEF, 0xBE, 0x10, 0, 3, 0]).inLen = 6 := by decide

theorem witness_DecompressRunsItsTokensInOrder :
    let tokens := [Instr.lit [0xAA], Instr.bref 0x7F 0xFF 4]
    let s := atHeader [0, 0, 8, 0, 1, 0, 0x00, 0xAA, 0xFF, 0xFF, 0x04]
    (∀ i ∈ tokens, WellFormed i) ∧ tokens.flatMap tokenBytes = [0x00, 0xAA, 0xFF, 0xFF, 0x04] ∧
    s.inLen.toNat = 6 + 5 ∧
    s.readBytes .input 6 5 = [0x00, 0xAA, 0xFF, 0xFF, 0x04] := by decide

theorem witness_LiteralOnlyLaw :
    let runs : List (List Byte) := [[0x41], [0x42, 0x43]]
    let s := { atHeader [0, 0, 8, 0, 1, 0, 0x00, 0x41, 0x01, 0x42, 0x43] with outCap := 3 }
    (∀ run ∈ runs, 1 ≤ run.length ∧ run.length ≤ 128) ∧ s.inLen.toNat = 6 + (runs.flatMap asmLit).length ∧
    s.readBytes .input 6 5 = runs.flatMap asmLit ∧ runs.flatten.length = s.outCap.toNat := by decide

/-- Two states that differ in what OUT, WIDTH and PAL_SEL held. -/
theorem witness_DecompressDependsOnItsInputOnly :
    let s := atHeader [0, 0, 8, 0, 1, 0, 0x00, 0xAA]
    let s' := { s with outMem := [(0, 0x55)], outLen := 1, width := 9, palSel := 7 }
    s.inLen = s'.inLen ∧ s.outCap = s'.outCap ∧ (∀ a, s.readByte .input a = s'.readByte .input a) ∧
    s.errCode = s'.errCode ∧ s.errPos = s'.errPos ∧ s.errExpected = s'.errExpected ∧
    s.errAvailable = s'.errAvailable ∧ s ≠ s' ∧
    (∃ t, exec .decompress s = .next t) ∧ ∃ t, exec .decompress s' = .next t :=
  ⟨rfl, rfl, fun _ => rfl, rfl, rfl, rfl, rfl, fun h => absurd (congrArg State.width h) (by decide), ⟨_, rfl⟩, ⟨_, rfl⟩⟩

theorem witness_DecompressFrame : ∃ t, exec .decompress (atHeader [0, 0, 8, 0, 1, 0, 0x00, 0xAA]) = .next t :=
  ⟨_, rfl⟩

theorem witness_TokenEqualsItsAtomicSteps :
    let s := atToken [0xFF, 0xFF, 0x01] [0xAA]
    s.phase = .fetch ∧ decodeToken s.tokenWindow = .token (.bref 0x7F 0xFF 1) [] := by decide

theorem witness_DecompressEqualsItsAtomicSteps : (atHeader [0, 0, 8, 0, 1, 0, 0x00, 0xAA]).phase = .hdr := by decide

/-- In each of the three phases. -/
theorem witness_AtomicStepAppendsAtMostOneByte :
    ((atToken [0xFF, 0xFF, 0x01] [0xAA]).Inv ∧ (atToken [0xFF, 0xFF, 0x01] [0xAA]).inTokens ∧
      ∃ t, tick (atToken [0xFF, 0xFF, 0x01] [0xAA]) = .next t) ∧
    (inLitCopy.Inv ∧ inLitCopy.inTokens ∧ ∃ t, tick inLitCopy = .next t) ∧
    (inRefCopy.Inv ∧ inRefCopy.inTokens ∧ ∃ t, tick inRefCopy = .next t) :=
  ⟨⟨inv_fetch, .inl rfl, _, rfl⟩, ⟨inv_litCopy, .inr (.inl rfl), _, rfl⟩, ⟨inv_refCopy, .inr (.inr rfl), _, rfl⟩⟩

/-- Each clause: a token that ends exactly at IN_LEN; the end of the input; the three accepted commands. -/
theorem witness_StepRunsTheDecodedInstruction :
    (let s := atToken [0x00, 0x41] []
     s.sched = [] ∧ s.phase = .fetch ∧ WellFormed (.lit [0x41]) ∧ encode (.lit [0x41]) = .token [0x00, 0x41] ∧
     s.ip.toNat + 2 = s.inLen.toNat ∧ s.readBytes .input s.ip.toNat 2 = [0x00, 0x41]) ∧
    ((atToken [] []).sched = [] ∧ (atToken [] []).phase = .fetch ∧ (atToken [] []).ip = (atToken [] []).inLen) ∧
    ((atHeader []).sched = [] ∧ (atHeader []).phase = .hdr) ∧
    ((atRecon [] 0 0).sched = [] ∧ (atRecon [] 0 0).phase = .recon) ∧
    ((idle.accept .palrd).sched = [] ∧ (idle.accept .palrd).phase = .palrd) := by decide

/-- From IDLE and from ERROR. -/
theorem witness_CommandWriteThenStepRunsTheCommand : idle.status ≠ .busy ∧ inError.status ≠ .busy := by decide

/-- Plane 0 and plane 3, the bounds of k: buffer 80 00 00 01, so pixel 0 has index 1 and pixel 7 index 8. -/
theorem witness_ColourIndexSlicesThePlanes :
    (0 < 4 ∧ ((atRecon [0x80, 0, 0, 1] 8 1).colourIndex 0 0).getLsbD 0 = true) ∧
    (3 < 4 ∧ ((atRecon [0x80, 0, 0, 1] 8 1).colourIndex 7 0).getLsbD 3 = true) := by decide

/-- RASTER exactly full: 64 bytes for an 8 by 1 image; the transparent and the opaque clause, at (0, 1) and (1, 1). -/
theorem witness_ReconstructWritesEveryPixel :
    let s := { atRecon [0x80, 0, 0, 0] 8 1 with transp := 0x101 }
    s.palSel.toNat < 2 ∧ s.outLen.toNat = s.expectedLen ∧ s.imageLength = s.rasterCap.toNat ∧
    s.transp.getLsbD 8 = true ∧ (s.colourIndex 0 0).toNat = (s.transp.extractLsb' 0 8).toNat ∧
    (s.colourIndex 1 0).toNat ≠ (s.transp.extractLsb' 0 8).toNat := by decide

/-- Each clause at its boundary: PAL_SEL = 2; OUT_LEN = 4P + 1; RASTER_CAPACITY one byte short. -/
theorem witness_ReconstructChecksInOrder :
    2 ≤ ({ atRecon [] 0 0 with palSel := 2 } : State).palSel.toNat ∧
    ((atRecon [1, 2, 3, 4, 5] 8 1).palSel.toNat < 2 ∧
      (atRecon [1, 2, 3, 4, 5] 8 1).outLen.toNat ≠ (atRecon [1, 2, 3, 4, 5] 8 1).expectedLen) ∧
    (let s := { atRecon [0x80, 0, 0, 0] 8 1 with rasterCap := 63 }
     s.palSel.toNat < 2 ∧ s.outLen.toNat = s.expectedLen ∧ s.rasterCap.toNat < s.imageLength) := by decide

/-- A completed and a failed command. -/
theorem witness_ReconstructFrame :
    (∃ t, exec .reconstruct (atRecon [0x80, 0, 0, 0] 8 1) = .next t ∧ t.status = .done) ∧
    (∃ t, exec .reconstruct (atRecon [0x80] 8 1) = .next t ∧ t.status = .error) :=
  ⟨⟨_, rfl, by decide⟩, ⟨_, rfl, by decide⟩⟩

/-- 0 by 5 and 7 by 0, empty; a byte too many; no such palette (section 2.5). -/
theorem witness_ZeroSizeImageWritesNothing :
    ((atRecon [] 0 5).width = 0 ∧ (atRecon [] 0 5).palSel.toNat < 2 ∧ (atRecon [] 0 5).outLen = 0) ∧
    ((atRecon [] 7 0).height = 0 ∧ (atRecon [] 7 0).palSel.toNat < 2 ∧ (atRecon [] 7 0).outLen = 0) ∧
    ((atRecon [1] 7 0).height = 0 ∧ (atRecon [1] 7 0).palSel.toNat < 2 ∧ (atRecon [1] 7 0).outLen ≠ 0) ∧
    (let s := { atRecon [] 0 0 with palSel := 9 }; s.width = 0 ∧ 2 ≤ s.palSel.toNat) := by decide

/-- Each clause, the last at both ends. -/
theorem witness_PaletteReadPacksTheEntry :
    (idle.accept .palrd).palSel = 0 ∧ ({ idle with palSel := 1 } : State).palSel = 1 ∧
    2 ≤ ({ idle with palSel := 2 } : State).palSel.toNat ∧ 2 ≤ ({ idle with palSel := 255 } : State).palSel.toNat := by
  decide

theorem witness_PaletteReadFrame : ∃ t, exec .paletteRead (idle.accept .palrd) = .next t := ⟨_, rfl⟩

theorem witness_AcceptanceStartsTheCommand :
    inError.status ≠ .busy ∧ ((1 : Word) = 1 ∧ Phase.hdr = .hdr) ∧ ((2 : Word) = 2 ∧ Phase.recon = .recon) ∧
    ((3 : Word) = 3 ∧ Phase.palrd = .palrd) := by decide

theorem witness_IllegalCommandIsReportedAtOnce :
    idle.status ≠ .busy ∧ (4 : Word) ≠ 1 ∧ (4 : Word) ≠ 2 ∧ (4 : Word) ≠ 3 := by decide

theorem witness_HostWritesWhileBusyAreDropped : inLitCopy.status = .busy ∧ idle.status ≠ .busy := by decide

/-- The two length clauses at their capacities. -/
theorem witness_RegisterWriteStoresItsUsedBits :
    idle.status ≠ .busy ∧ (64 : Word).toNat ≤ idle.inCap.toNat ∧ (16 : Word).toNat ≤ idle.outCap.toNat := by decide

theorem witness_LengthAboveCapacityIsIgnored :
    (65 : Word).toNat > idle.inCap.toNat ∧ (17 : Word).toNat > idle.outCap.toNat := by decide

/-- A byte access of CMD; offset 0x06; offset 0x58; a read-only and a derived register. -/
theorem witness_OddRegisterAccessHasNoEffect :
    (1 : Nat) ≠ 4 ∧ (0x06 : Word).toNat % 4 ≠ 0 ∧ 0x58 ≤ (0x58 : Word).toNat ∧ Reg.access .ip = .r ∧
    Reg.access .expectedLen = .d := by decide

theorem witness_HostReadsHaveNoSideEffects :
    (∃ t, step (inLitCopy.withSched [Move.readReg .status]) = .next t) ∧
    (∃ t, step (inLitCopy.withSched [.memRead .output 0]) = .next t) := ⟨⟨_, rfl⟩, ⟨_, rfl⟩⟩

/-- Each row of R21 read at its literal offset; here the first and the last, and STATUS in ERROR (section 2.7). -/
theorem witness_RegisterReadReturnsItsValue :
    nextWith (step (inError.withSched [.regRead 0x00 4])) (fun t => decide (t.busData = 0)) ∧
    nextWith (step (inError.withSched [.regRead 0x04 4])) (fun t => decide (t.busData = 3)) ∧
    nextWith (step (inError.withSched [.regRead 0x54 4])) (fun t => decide (t.busData = 64)) := by decide

/-- A written byte at the last index that each memory lets the host read: IN[2] of a file of 3 while BUSY, OUT[15] of 16,
RASTER[63] of an 8 by 1 image; and the indices on either side of a capacity, for the writes. -/
theorem witness_HostReadsBackWhatItWrote :
    (let s := { withFile [1, 2, 3] with outLen := 16 }
     s.status ≠ .busy ∧ ((2 : Word).toNat < s.inCap.toNat ∧ (2 : Word).toNat < s.inLen.toNat) ∧
       ((15 : Word).toNat < s.outCap.toNat ∧ (15 : Word).toNat < s.outLen.toNat)) ∧
    (let s := atHeader [1, 2, 3]
     s.status = .busy ∧ (2 : Word).toNat < s.inCap.toNat ∧ (2 : Word).toNat < s.inLen.toNat ∧
       (s.mem .input).read? 2 = some 3) ∧
    (let s : State := { idle with outMem := [(15, 7)], outLen := 16 }
     s.status ≠ .busy ∧ (15 : Word).toNat < s.outCap.toNat ∧ (15 : Word).toNat < s.outLen.toNat ∧
       (s.mem .output).read? 15 = some 7) ∧
    (let s : State := { idle with rasterMem := [(63, 255)], width := 8, height := 1 }
     s.status ≠ .busy ∧ (63 : Word).toNat < s.rasterCap.toNat ∧
       (63 : Word).toNat < 4 * (8 * ((s.width.toNat + 7) / 8)) * (2 * s.height.toNat) ∧
       (s.mem .raster).read? 63 = some 255) ∧
    (idle.status ≠ .busy ∧ (63 : Word).toNat < idle.inCap.toNat ∧ (15 : Word).toNat < idle.outCap.toNat ∧
      idle.inCap.toNat ≤ (64 : Word).toNat ∧ idle.outCap.toNat ≤ (16 : Word).toNat) := by decide

/-- Each clause, at the first index past the valid length and past the capacity; and an unwritten byte inside IN_LEN. -/
theorem witness_UnspecifiedReadIsAFreshDraw :
    (Space.output ≠ .input ∧ inRefCopy.status = .busy) ∧
    (withFile [1, 2, 3]).inLen.toNat ≤ (3 : Word).toNat ∧
    ({ idle with outLen := 4 } : State).outLen.toNat ≤ (4 : Word).toNat ∧
    (atRecon [] 8 1).imageLength ≤ (64 : Word).toNat ∧ idle.inCap.toNat ≤ (64 : Word).toNat ∧
    idle.outCap.toNat ≤ (16 : Word).toNat ∧ idle.rasterCap.toNat ≤ (64 : Word).toNat ∧
    (({ idle with inLen := 1 } : State).mem .input).read? (0 : Word).toNat = none := by decide

/-- The last byte of a decoded buffer and of an image. -/
theorem witness_HostReadsWhatACommandDelivered :
    nextWith (exec .decompress (atHeader [0, 0, 8, 0, 1, 0, 0x00, 0xAA, 0xFF, 0xFF, 0x04]))
      (fun t => decide ((5 : Word).toNat < t.outLen.toNat)) ∧
    (let s := atRecon [0xF0, 0xCC, 0xAA, 0x01] 8 1
     nextWith (exec .reconstruct s) (fun t => decide (t.status = .done)) ∧
       (63 : Word).toNat < 4 * (8 * ((s.width.toNat + 7) / 8)) * (2 * s.height.toNat)) := by decide

/-- A file that fills IN; and, of a block just after reset, the file that its unwritten bytes happen to be. -/
theorem witness_LoadingAFileLoadsIt :
    idle.Inv ∧ CleanIdle idle ∧ (List.replicate 64 (0 : Byte)).length ≤ idle.inCap.toNat ∧
    ∀ k (h : k < (idle.readBytes .input 0 3).length), idle.readByte .input k = (idle.readBytes .input 0 3)[k] :=
  ⟨inv_idle, ⟨by decide, rfl, by decide⟩, by decide, fun k h => by rw [State.readBytes_getElem, Nat.zero_add]⟩

/-- A read to come leaves a block CleanIdle, and a write to come does not (70_reset_and_hazards.md R271). -/
theorem test_cleanIdle :
    CleanIdle (idle.withSched [Move.readReg .status, .memRead .output 0]) ∧
    ¬ CleanIdle (idle.withSched [Move.writeReg .inLen 1]) ∧ ¬ CleanIdle (idle.withSched [.memWrite .input 0 1]) :=
  ⟨⟨by decide, rfl, by decide⟩, fun h => absurd h.2.2 (by decide), fun h => absurd h.2.2 (by decide)⟩

/-- A step of each phase and a host move. -/
theorem witness_EveryStepKeepsTheInvariant :
    ((atHeader [0, 0, 8, 0, 1, 0, 0, 0xAA]).Inv ∧ ∃ t, step (atHeader [0, 0, 8, 0, 1, 0, 0, 0xAA]) = .next t) ∧
    ((atToken [0xFF, 0xFF, 0x01] [0xAA]).Inv ∧ ∃ t, step (atToken [0xFF, 0xFF, 0x01] [0xAA]) = .next t) ∧
    (inLitCopy.Inv ∧ ∃ t, step inLitCopy = .next t) ∧ (inRefCopy.Inv ∧ ∃ t, step inRefCopy = .next t) ∧
    ((atRecon [0x80, 0, 0, 0] 8 1).Inv ∧ ∃ t, step (atRecon [0x80, 0, 0, 0] 8 1) = .next t) ∧
    ((inError.withSched [.reset]).Inv ∧ ∃ t, step (inError.withSched [.reset]) = .next t) :=
  ⟨⟨inv_header, _, rfl⟩, ⟨inv_fetch, _, rfl⟩, ⟨inv_litCopy, _, rfl⟩, ⟨inv_refCopy, _, rfl⟩, ⟨inv_recon, _, rfl⟩,
    ⟨inv_error.withSched _, _, rfl⟩⟩

theorem witness_NoStepFaults : inLitCopy.Inv ∧ (idle.accept .palrd).Inv ∧ inError.phase = .halt :=
  ⟨inv_litCopy, inv_palrd, rfl⟩

theorem witness_ParametersNeverChange : ∃ t, step (idle.withSched [.reset]) = .next t := ⟨_, rfl⟩

theorem witness_InputIsImmutableWhileBusy :
    (inLitCopy.withSched [.memWrite .input 7 0]).status = .busy ∧
    (∀ rest, (inLitCopy.withSched [.memWrite .input 7 0]).sched ≠ .reset :: rest) ∧
    ∃ t, step (inLitCopy.withSched [.memWrite .input 7 0]) = .next t := ⟨rfl, fun _ h => (by cases h), _, rfl⟩

theorem witness_OnlyReconstructWritesRaster :
    ∃ t, step (atRecon [0x80, 0, 0, 0] 8 1) = .next t ∧ t.rasterMem ≠ (atRecon [0x80, 0, 0, 0] 8 1).rasterMem :=
  ⟨_, rfl, by decide⟩

/-- With no move to come; and a CMD write and a reset, which change STATUS. -/
theorem witness_HaltIsLeftOnlyByCommandOrReset :
    (inError.Inv ∧ inError.status ≠ .busy ∧ inError.sched = [] ∧ ∃ t, step inError = .next t) ∧
    ((inError.withSched [Move.writeReg .cmd 3]).Inv ∧
      ∃ t, step (inError.withSched [Move.writeReg .cmd 3]) = .next t ∧ t.status ≠ inError.status) ∧
    ∃ t, step (inError.withSched [.reset]) = .next t ∧ t.status ≠ inError.status :=
  ⟨⟨inv_error, by decide, rfl, _, rfl⟩, ⟨inv_error.withSched _, _, rfl, by decide⟩, _, rfl, by decide⟩

theorem witness_LargeRingIsInvisible : inRefCopy.Inv ∧ inRefCopy.phase = .refcopy := ⟨inv_refCopy, rfl⟩

theorem witness_SmallRingDiffers : 1 ≤ 4096 ∧ 4096 < 32768 := by decide

end Sys2Proof.Machine.Tests
end

/-! ## What DECOMPRESS delivers depends on its input alone (O23)

Two runs of DECOMPRESS on the same input stay in step: `State.SameRun` relates their states, the header step
establishes it, and every token and the end of the command keep it. -/

namespace Sys2Proof.Machine

/-- The checks of BREF pass exactly when its bytes are there, OUT reaches back far enough and has room (R119 to R121). -/
theorem brefError_eq_none {c : Byte} (hc : matchFlag c = true) {b1 b2 : Byte} {s : State} :
    brefError c b1 b2 s = none ↔
      2 ≤ s.availableAfterControl ∧ brefDistance c b1 ≤ s.outLen.toNat ∧
        s.outLen.toNat + copyLength b2 ≤ s.outCap.toNat := by
  rcases brefError_cases hc b1 b2 s with ⟨h1, h2, h3, h⟩ | ⟨h1, h⟩ | ⟨_, h2, h⟩ | ⟨_, _, h3, h⟩ <;> simp [h] <;> omega

/-- The input of DECOMPRESS, and ERR_*, which a command without an error leaves as it was: what two states have to
agree on for DECOMPRESS to deliver the same. -/
structure State.SameInput (s t : State) : Prop where
  inLen : s.inLen = t.inLen
  outCap : s.outCap = t.outCap
  input : ∀ a, a < s.inLen.toNat → s.readByte .input a = t.readByte .input a
  errCode : s.errCode = t.errCode
  errPos : s.errPos = t.errPos
  errExpected : s.errExpected = t.errExpected
  errAvailable : s.errAvailable = t.errAvailable

/-- Two states that a run of DECOMPRESS on one input cannot tell apart: they agree on what the token loop reads and on
what it delivers. OUT counts below OUT_LEN only (40_lzss.md R123), the header registers only where the header is whole
(R112), and STATUS only where the tokens have ended, since before that it is what it was at the command's start. -/
structure State.SameRun (s t : State) : Prop extends State.SameInput s t where
  ip : s.ip = t.ip
  outLen : s.outLen = t.outLen
  phase : s.phase = t.phase
  status : s.phase ≠ .fetch → s.status = t.status
  header : 6 ≤ s.inLen.toNat → s.hdrTag = t.hdrTag ∧ s.width = t.width ∧ s.height = t.height
  output : ∀ a, a < s.outLen.toNat → s.readByte .output a = t.readByte .output a

namespace State.SameRun

variable {s t : State}

/-! ### The shared updates keep the relation -/

theorem latch (h : s.SameRun t) (c d : Byte) : (s.latch c).SameRun (t.latch d) := { h with }

theorem advance (h : s.SameRun t) (n : Nat) : (s.advance n).SameRun (t.advance n) :=
  { h with ip := by simp [h.ip] }

theorem setSrc (h : s.SameRun t) (m n : Nat) : (s.setSrc m).SameRun (t.setSrc n) := { h with }

theorem endToken (h : s.SameRun t) : s.endToken.SameRun t.endToken :=
  { h with phase := rfl, status := fun hp => absurd rfl hp }

theorem finish (h : s.SameRun t) : s.finish.SameRun t.finish :=
  { h with phase := rfl, status := fun _ => rfl }

theorem raise (h : s.SameRun t) (e : ErrorReport) : (s.raise e).SameRun (t.raise e) :=
  { h with
    phase := rfl, status := fun _ => rfl
    errCode := rfl, errPos := rfl, errExpected := rfl, errAvailable := rfl }

theorem appendRun (h : s.SameRun t) (bytes : List Byte) : (s.appendRun bytes).SameRun (t.appendRun bytes) :=
  { h with
    outLen := by simp [h.outLen]
    output := fun a ha => by
      simp only [appendRun_outLen, BitVec.toNat_add, BitVec.toNat_ofNat] at ha
      simp only [appendRun_readByte_output, ← h.outLen]
      split
      · rfl
      · exact h.output a (by omega) }

/-- A byte is a run of length 1. -/
theorem appendOut (h : s.SameRun t) (v : Byte) : (s.appendOut v).SameRun (t.appendOut v) := h.appendRun [v]

/-- The copy loop keeps the relation because it reads below OUT_LEN only (40_lzss.md R120). -/
theorem copyLoop (h : s.SameRun t) {n src : Nat} (hsrc : src < s.outLen.toNat)
    (hfit : s.outLen.toNat + n < 2 ^ 32) : (copyLoop n src s).SameRun (copyLoop n src t) := by
  induction n generalizing src s t with
  | zero => exact h
  | succ n ih =>
    have hlen : (s.outLen + 1#32).toNat = s.outLen.toNat + 1 := toNat_add_one (by omega)
    rw [Machine.copyLoop, Machine.copyLoop, ← h.output src hsrc]
    exact ih (h.appendOut _) (by rw [appendOut_outLen]; omega) (by rw [appendOut_outLen]; omega)

/-! ### The token at IP -/

theorem readBytes_input (h : s.SameRun t) {a n : Nat} (hn : a + n ≤ s.inLen.toNat) :
    s.readBytes .input a n = t.readBytes .input a n :=
  List.ext_getElem (by simp) fun k h₁ _ => by
    simp only [State.readBytes_getElem]
    exact h.input _ (by simp at h₁; omega)

theorem tokenWindow (h : s.SameRun t) (hlt : s.ip.toNat < s.inLen.toNat) : s.tokenWindow = t.tokenWindow := by
  rw [State.tokenWindow, State.tokenWindow, ← h.ip, ← h.inLen]
  exact h.readBytes_input (by omega)

theorem litError_eq (h : s.SameRun t) (n : Nat) : litError n s = litError n t := by
  unfold litError overflowError availableAfterControl
  rw [h.inLen, h.ip, h.outLen, h.outCap]

theorem brefSource_eq (h : s.SameRun t) (c b1 : Byte) : brefSource s c b1 = brefSource t c b1 := by
  rw [brefSource, brefSource, h.outLen]

theorem brefError_eq (h : s.SameRun t) (c b1 b2 : Byte) : brefError c b1 b2 s = brefError c b1 b2 t := by
  unfold brefError overflowError availableAfterControl
  rw [h.brefSource_eq, h.inLen, h.ip, h.outLen, h.outCap]

theorem litToken (h : s.SameRun t) (bytes : List Byte) : (litToken bytes s).SameRun (litToken bytes t) := by
  have hl := h.latch (litControl bytes.length) (litControl bytes.length)
  simp only [Machine.litToken, hl.litError_eq bytes.length]
  split
  · exact hl.raise _
  · exact ((hl.appendRun bytes).advance _).endToken

theorem brefToken (h : s.SameRun t) (high : BitVec 7) (b1 b2 : Byte) :
    (brefToken high b1 b2 s).SameRun (brefToken high b1 b2 t) := by
  have hl := h.latch (brefControl high) (brefControl high)
  simp only [Machine.brefToken, ← hl.brefError_eq (brefControl high) b1 b2, ← hl.brefSource_eq (brefControl high) b1]
  split
  · exact hl.raise _
  next hnone =>
    obtain ⟨-, hd, hfit⟩ := (brefError_eq_none (matchFlag_brefControl high)).mp hnone
    have hpos := (brefDistance_bounds (matchFlag_brefControl high) b1).1
    have hcap := s.outCap.isLt
    rw [brefSource_toNat (matchFlag_brefControl high) hd]
    rw [latch_outLen] at hd ⊢
    rw [latch_outLen, latch_outCap] at hfit
    exact (((hl.copyLoop (by rw [latch_outLen]; omega) (by rw [latch_outLen]; omega)).advance 3).setSrc _ _).endToken

theorem runToken (h : s.SameRun t) (hlt : s.ip.toNat < s.inLen.toNat) : (runToken s).SameRun (runToken t) := by
  rw [Machine.runToken, Machine.runToken, ← h.tokenWindow hlt]
  match hd : decodeToken s.tokenWindow with
  | .empty => exact absurd hd (decodeToken_tokenWindow_ne_empty hlt)
  | .truncated n a =>
    simp only [truncatedToken, ← h.ip]
    exact (h.latch _ _).raise _
  | .token i rest =>
    rcases decode_token_at hd with ⟨bytes, rfl, _⟩ | ⟨high, b1, b2, rfl, _⟩
    · exact h.litToken bytes
    · exact h.brefToken high b1 b2

/-! ### The command -/

theorem tokenLoop (h : s.SameRun t) (fuel : Nat) : (tokenLoop fuel s).SameRun (tokenLoop fuel t) := by
  induction fuel generalizing s t with
  | zero => exact h
  | succ fuel ih =>
    rw [Machine.tokenLoop, Machine.tokenLoop, ← h.phase, ← h.inLen, ← h.ip]
    split
    · exact h
    · split
      · exact h.finish
      · exact ih (h.runToken (by omega))

end State.SameRun

/-- The header's fields lie in the first 6 bytes of IN. -/
theorem State.SameInput.headerField {s t : State} (h : s.SameInput t) {a : Nat} (ha : a + 1 < s.inLen.toNat) :
    s.headerField a = t.headerField a := by
  rw [State.headerField, State.headerField, h.input a (by omega), h.input (a + 1) ha]

/-- The HDR step clears the cursors and enters the tokens or raises the same error, so what else the states held no
longer counts (R125). -/
theorem State.SameInput.headerStep {s t : State} (h : s.SameInput t) : (headerStep s).SameRun (headerStep t) := by
  rcases headerStep_cases s with ⟨hs, es⟩ | ⟨hs, es⟩ <;> rcases headerStep_cases t with ⟨ht, et⟩ | ⟨ht, et⟩ <;>
    rw [← h.inLen] at ht
  · rw [es, et]
    exact { h with
      ip := rfl, outLen := rfl, phase := rfl, status := fun _ => rfl
      errCode := rfl, errPos := rfl, errExpected := rfl
      errAvailable := congrArg (fun w : Word => sat32 w.toNat) h.inLen
      header := fun h6 => absurd hs (Nat.not_lt.mpr h6)
      output := fun a ha => absurd ha (Nat.not_lt_zero a) }
  · omega
  · omega
  · rw [es, et]
    exact { h with
      ip := rfl, outLen := rfl, phase := rfl, status := fun hp => absurd rfl hp
      header := fun _ => ⟨h.headerField (by omega), h.headerField (by omega), h.headerField (by omega)⟩
      output := fun a ha => absurd ha (Nat.not_lt_zero a) }

theorem State.SameInput.decompress {s t : State} (h : s.SameInput t) : (decompress s).SameRun (decompress t) := by
  rw [Machine.decompress, Machine.decompress, ← h.inLen]
  exact h.headerStep.tokenLoop _

/-- DECOMPRESS does not stop among its tokens: its turns are enough (R130). -/
theorem decompress_phase_ne_fetch (s : State) : (decompress s).phase ≠ .fetch := by
  obtain ⟨t, -, ⟨-, -, e⟩ | ⟨hp, e⟩⟩ := decompress_rule (fun _ => True) (fun _ _ _ _ => trivial) s trivial
  · simp [e]
  · rwa [e]

@[simp] theorem headerStep_inLen (s : State) : (headerStep s).inLen = s.inLen := by
  rcases headerStep_cases s with ⟨-, e⟩ | ⟨-, e⟩
  · rw [e, State.raise_inLen]
  · rw [e]

@[simp] theorem decompress_inLen (s : State) : (decompress s).inLen = s.inLen := by
  obtain ⟨t, ht, ⟨-, -, e⟩ | ⟨-, e⟩⟩ := decompress_rule (fun t => t.inLen = s.inLen)
    (fun t ht _ hlt => (runToken_inLen hlt).trans ht) s (headerStep_inLen s)
  · rw [e, State.finish_inLen, ht]
  · rw [e, ht]

/-- Settles O23: the two runs stay in step from the header step on (`State.SameRun`), and both end, so that STATUS,
which alone depends on where a run stops, agrees too. -/
theorem decompressDependsOnItsInputOnly : Obligations.DecompressDependsOnItsInputOnly := by
  rintro s₁ s₂ _ _ hLen hCap hIn hCode hPos hExp hAvail ⟨⟩ ⟨⟩
  have h := State.SameInput.decompress ⟨hLen, hCap, hIn, hCode, hPos, hExp, hAvail⟩
  exact ⟨h.status (decompress_phase_ne_fetch s₁), h.errCode, h.errPos, h.errExpected, h.errAvailable, h.ip, h.outLen,
    fun h6 => h.header (by rwa [decompress_inLen]), h.output⟩

end Sys2Proof.Machine

/-! ## What a step of the sequencer can do

The inversion lemmas that the statements about whole steps rest on: each takes an answer of the sequencer back to the
operation that gave it. -/

namespace Sys2Proof.Machine

/-- What the FETCH step can answer: the end of the command at IN_LEN, and a token only below it (40_lzss.md R126). -/
theorem fetchStep_inv {s t : State} (h : fetchStep s = .next t) :
    (s.ip.toNat = s.inLen.toNat ∧ t = s.finish) ∨ s.ip.toNat < s.inLen.toNat := by
  rcases Nat.lt_trichotomy s.ip.toNat s.inLen.toNat with hlt | heq | hgt
  · exact .inr hlt
  · rw [fetchStep, if_pos heq] at h
    exact .inl ⟨heq, (Host.Outcome.next.inj h).symm⟩
  · rw [fetchStep, if_neg (by omega), decodeToken_tokenWindow_of_le (by omega)] at h
    cases h

/-- What the token at IP, run whole, can answer. -/
theorem fetchAndExec_inv {s t : State} (h : fetchAndExec s = .next t) :
    (s.ip.toNat = s.inLen.toNat ∧ t = s.finish) ∨ (s.ip.toNat < s.inLen.toNat ∧ t = runToken s) := by
  rcases Nat.lt_trichotomy s.ip.toNat s.inLen.toNat with hlt | heq | hgt
  · rw [fetchAndExec_of_lt hlt] at h
    exact .inr ⟨hlt, (Host.Outcome.next.inj h).symm⟩
  · rw [fetchAndExec, if_pos heq] at h
    exact .inl ⟨heq, (Host.Outcome.next.inj h).symm⟩
  · rw [fetchAndExec, if_neg (by omega), decodeToken_tokenWindow_of_le (by omega)] at h
    cases h

/-- The operations a sequencer step can be, each with the phase that enables it (43_commands.md R208). -/
inductive TickCase (s : State) : State → Prop where
  | halt : s.phase = .halt → TickCase s s
  | hdr : s.phase = .hdr → TickCase s (headerStep s)
  | fetch {t : State} : s.phase = .fetch → fetchStep s = .next t → TickCase s t
  | litcopy : s.phase = .litcopy → s.wCnt ≠ 0#9 → TickCase s (litCopyStep s)
  | refcopy : s.phase = .refcopy → s.wCnt ≠ 0#9 → TickCase s (refCopyStep s)
  | recon : s.phase = .recon → TickCase s (reconstruct s)
  | palrd : s.phase = .palrd → TickCase s (paletteRead s)

/-- Every sequencer step is one of these operations. -/
theorem tickCase_of_tick {s t : State} (h : tick s = .next t) : TickCase s t := by
  cases hp : s.phase <;> simp only [tick, hp] at h
  case halt => cases h; exact .halt hp
  case hdr => cases h; exact .hdr hp
  case fetch => exact .fetch hp h
  case litcopy =>
    split at h
    · cases h
    · cases h; exact .litcopy hp ‹_›
  case refcopy =>
    split at h
    · cases h
    · cases h; exact .refcopy hp ‹_›
  case recon => cases h; exact .recon hp
  case palrd => cases h; exact .palrd hp

/-- With no move to come the sequencer runs DECOMPRESS from its header, runs a token whole, or takes one atomic step. -/
theorem runInstr_inv {s t : State} (h : runInstr s = .next t) :
    (s.phase = .hdr ∧ t = decompress s) ∨ (s.phase = .fetch ∧ fetchAndExec s = .next t) ∨ tick s = .next t := by
  cases hp : s.phase <;> simp only [runInstr, hp] at h
  case hdr => exact .inl ⟨rfl, (Host.Outcome.next.inj h).symm⟩
  case fetch => exact .inr (.inl ⟨rfl, h⟩)
  all_goals exact .inr (.inr h)

end Sys2Proof.Machine

/-! ## Every step keeps the invariant (O52)

`Laws/Inv` has what each shared operation does to `State.Inv`; here the operations are put together to sequencer steps,
host accesses and steps. -/

namespace Sys2Proof.Machine

/-- What a host read records, the value and the count of draws, is no part of the invariant. -/
theorem State.Inv.withHostRead {s : State} (h : s.Inv) (v : Word) (n : Nat) :
    State.Inv { s with busData := v, draws := n } := { h with }

theorem State.Inv.after_hostMemRead {s : State} (h : s.Inv) (sp : Space) (a : Nat) : (hostMemRead sp a s).Inv := by
  cases hv : s.hostByte? sp a with
  | some v => rw [hostMemRead_of_some hv]; exact h.withHostRead _ _
  | none => rw [hostMemRead_of_none hv]; exact h.withHostRead _ _

theorem State.Inv.after_illegalCommand {s : State} (h : s.Inv) (w : Word) : (illegalCommand w s).Inv := by
  rw [illegalCommand]
  split
  · exact h
  · exact h.raise _

theorem State.Inv.after_commandWrite {s t : State} (h : s.Inv) {w : Word} (ht : commandWrite w s = .next t) :
    t.Inv := by
  rcases commandWrite_cases w s with ⟨p, hp, e⟩ | e <;> rw [e] at ht <;> cases ht
  · exact h.accept hp
  · exact h.after_illegalCommand w

theorem State.Inv.after_hostRegWrite {s t : State} (h : s.Inv) {offset v : Word} {bytes : Nat}
    (ht : hostRegWrite offset bytes v s = .next t) : t.Inv := by
  rcases hostRegWrite_cases offset v bytes s with e | ⟨_, _, _, e⟩ | ⟨hb, _, r, _, _, e⟩ <;> rw [e] at ht
  · cases ht; exact h
  · exact h.after_commandWrite ht
  · cases ht; exact h.after_storeReg hb r v

theorem State.Inv.after_tick {s t : State} (h : s.Inv) (ht : tick s = .next t) : t.Inv := by
  cases tickCase_of_tick ht with
  | halt => exact h
  | hdr hp => exact h.after_headerStep hp
  | fetch hp hf =>
    obtain ⟨u, hu, hinv⟩ := h.after_fetchStep hp
    obtain rfl := Host.Outcome.next.inj (hf.symm.trans hu)
    exact hinv
  | litcopy hp => exact h.after_litCopyStep hp
  | refcopy hp => exact h.after_refCopyStep hp
  | recon hp => exact h.after_reconstruct hp
  | palrd hp => exact h.after_paletteRead hp

/-- DECOMPRESS keeps the invariant: the header step establishes it among the tokens, and every token keeps it. -/
theorem State.Inv.after_decompress {s : State} (h : s.Inv) (hp : s.phase = .hdr) : (decompress s).Inv := by
  obtain ⟨t, ht, ⟨hf, _, e⟩ | ⟨_, e⟩⟩ := decompress_rule State.Inv (fun _ h hp hlt => h.after_runToken hp hlt) s
    (h.after_headerStep hp)
  · rw [e]
    exact ht.finish (by simp [ht.status_of_inTokens (.inl hf)])
  · rwa [e]

theorem State.Inv.after_fetchAndExec {s t : State} (h : s.Inv) (hp : s.phase = .fetch)
    (ht : fetchAndExec s = .next t) : t.Inv := by
  rcases fetchAndExec_inv ht with ⟨_, rfl⟩ | ⟨hlt, rfl⟩
  · exact h.finish (by simp [h.status_of_inTokens (.inl hp)])
  · exact h.after_runToken hp hlt

theorem State.Inv.after_runInstr {s t : State} (h : s.Inv) (ht : runInstr s = .next t) : t.Inv := by
  rcases runInstr_inv ht with ⟨hp, rfl⟩ | ⟨hp, ht⟩ | ht
  · exact h.after_decompress hp
  · exact h.after_fetchAndExec hp ht
  · exact h.after_tick ht

theorem State.Inv.after_doMove {s t : State} (h : s.Inv) {m : Move} (ht : doMove m s = .next t) : t.Inv := by
  cases m with
  | tick => exact h.after_tick ht
  | regWrite offset bytes v => exact h.after_hostRegWrite ht
  | regRead offset bytes => cases ht; exact h.withHostRead _ _
  | memWrite sp a v => cases ht; exact h.after_hostMemWrite _ _ _
  | memRead sp a => cases ht; exact h.after_hostMemRead _ _
  | reset => cases ht; exact h.after_assertReset

/-- Settles O52: a step is the instruction the sequencer is at or one move of the list, and each keeps the
invariant. -/
theorem everyStepKeepsTheInvariant : Obligations.EveryStepKeepsTheInvariant := by
  intro s t h ht
  rw [step] at ht
  split at ht
  · exact h.after_runInstr ht
  · exact (h.withSched _).after_doMove ht

end Sys2Proof.Machine

/-! ## The register map (O43, O44, O45) -/

namespace Sys2Proof.Machine

/-! ### Accesses that name no register -/

/-- The table of R21 has no register off a multiple of 4 or at 0x58 or above. -/
theorem Reg.atOffset_eq_none {o : Word} (h : o.toNat % 4 ≠ 0 ∨ 0x58 ≤ o.toNat) : Reg.atOffset o = none := by
  cases ho : Reg.atOffset o with
  | none => rfl
  | some r =>
    obtain ⟨h4, hlt⟩ := r.offset_bounds
    rw [Reg.offset_of_atOffset ho] at h4 hlt
    omega

/-- An access of REG that R22 gives no register: of another width, misaligned, or past the table. -/
def OddAccess (offset : Word) (bytes : Nat) : Prop := bytes ≠ 4 ∨ offset.toNat % 4 ≠ 0 ∨ 0x58 ≤ offset.toNat

theorem State.hostRegValue_of_oddAccess {offset : Word} {bytes : Nat} (h : OddAccess offset bytes) (s : State) :
    s.hostRegValue offset bytes = 0 := by
  rcases h with h4 | ho
  · rw [hostRegValue, if_neg h4]
  · rw [hostRegValue, Reg.atOffset_eq_none ho]; split <;> rfl

theorem hostRegWrite_of_oddAccess {offset : Word} {bytes : Nat} (h : OddAccess offset bytes) (v : Word) (s : State) :
    hostRegWrite offset bytes v s = .next s := by
  rcases h with h4 | ho
  · rw [hostRegWrite, if_neg h4]; split <;> rfl
  · rw [hostRegWrite, Reg.atOffset_eq_none ho]; split <;> [rfl; split <;> rfl]

/-- A host write of an R or D register writes nothing, BUSY or not (R22). -/
theorem hostRegWrite_of_readOnly {r : Reg} (h : r.access = .r ∨ r.access = .d) (v : Word) (s : State) :
    hostRegWrite r.offset 4 v s = .next s := by
  by_cases hb : s.status = .busy
  · exact hostRegWrite_of_busy hb _ _ _
  · have hcmd : r ≠ .cmd := by rintro rfl; simp [Reg.access] at h
    have hstore : s.storeReg r v = s := by cases r <;> simp [Reg.access] at h <;> rfl
    rw [hostRegWrite_reg hb hcmd, hstore]

/-- Settles O43: an odd access finds no register, and a register marked R or D stores nothing. -/
theorem oddRegisterAccessHasNoEffect : Obligations.OddRegisterAccessHasNoEffect := by
  intro s rest offset v bytes
  refine ⟨fun h => ⟨?_, ?_⟩, fun r hr => ?_⟩ <;> rw [step_withSched_cons]
  · rw [doMove, State.hostRegValue_of_oddAccess h]; rfl
  · exact hostRegWrite_of_oddAccess h v _
  · exact hostRegWrite_of_readOnly hr v _

/-! ### The derived registers as numbers -/

theorem State.readReg_rasterW_toNat (s : State) : (s.readReg .rasterW).toNat = s.rasterW :=
  (BitVec.toNat_ofNat _ _).trans (Nat.mod_eq_of_lt (Nat.lt_of_le_of_lt s.rasterW_le (by decide)))

theorem State.readReg_rasterH_toNat (s : State) : (s.readReg .rasterH).toNat = s.rasterH :=
  (BitVec.toNat_ofNat _ _).trans (Nat.mod_eq_of_lt (Nat.lt_of_le_of_lt s.rasterH_le (by decide)))

theorem State.readReg_expectedLen_toNat (s : State) : (s.readReg .expectedLen).toNat = s.expectedLen :=
  (BitVec.toNat_ofNat _ _).trans (Nat.mod_eq_of_lt (Nat.lt_of_le_of_lt s.expectedLen_le (by decide)))

/-- Settles O44: the three offsets are those of the derived registers, whose formulas fit their widths. -/
theorem derivedRegistersFollowTheSize : Obligations.DerivedRegistersFollowTheSize := by
  intro s
  have hw : (s.hostRegValue 0x44 4).toNat = s.rasterW := s.readReg_rasterW_toNat
  have hh : (s.hostRegValue 0x48 4).toNat = s.rasterH := s.readReg_rasterH_toNat
  have he : (s.hostRegValue 0x28 4).toNat = s.expectedLen := s.readReg_expectedLen_toNat
  rw [hw, hh, he]
  exact ⟨rfl, s.rasterW_le, rfl, s.rasterH_le, rfl, s.expectedLen_le⟩

/-! ### What a 32-bit read returns -/

/-- Zero extension keeps a value below the bound of its own width. -/
theorem toNat_setWidth_lt {n : Nat} (x : BitVec n) (m : Nat) : (x.setWidth m).toNat < 2 ^ n := by
  rw [BitVec.toNat_setWidth]
  exact Nat.lt_of_le_of_lt (Nat.mod_le _ _) x.isLt

/-- A register's value fits its used width (R21), so that the bits above read as 0 (R22). -/
theorem State.readReg_lt (s : State) (r : Reg) : (s.readReg r).toNat < 2 ^ r.usedWidth := by
  cases r
  case rasterW => rw [readReg_rasterW_toNat]; exact Nat.lt_of_le_of_lt s.rasterW_le (by decide)
  case rasterH => rw [readReg_rasterH_toNat]; exact Nat.lt_of_le_of_lt s.rasterH_le (by decide)
  case status | errCode | hdrTag | width | height | palSel | transp | palIdx | palRgb =>
    exact toNat_setWidth_lt _ _
  all_goals exact BitVec.isLt _

/-- A 32-bit read at a register's offset, at any time, records the register and changes nothing else. -/
theorem step_regRead_offset (s : State) (rest : List Move) (r : Reg) :
    step (s.withSched (.regRead r.offset 4 :: rest)) = .next { s with busData := s.readReg r, sched := rest } := by
  rw [step_withSched_cons, doMove, State.hostRegValue_offset, State.readReg_withSched]; rfl

/-- The row of R21's table that the model gives a register: its offset, access code, used width and value. -/
def State.regRow (s : State) (r : Reg) : Reg × Word × Access × Nat × Word :=
  (r, r.offset, r.access, r.usedWidth, s.readReg r)

/-- Settles O45: the literal table is the model's rows in the order of their offsets, so that each row is read by
`step_regRead_offset` and bounded by `State.readReg_lt`. -/
theorem registerReadReturnsItsValue : Obligations.RegisterReadReturnsItsValue := by
  intro s rest
  refine ⟨fun r => ⟨step_regRead_offset s rest r, s.readReg_lt r, rfl⟩, fun r offset access width value hrow => ?_⟩
  have hmem : (r, offset, access, width, value) ∈ Reg.all.map s.regRow := by
    convert hrow using 2
    simp only [Reg.all, List.map, List.cons_append, List.nil_append, State.regRow, State.readReg]
    cases s.status <;> rfl
  obtain ⟨r', -, ⟨⟩⟩ := List.mem_map.mp hmem
  exact ⟨rfl, rfl, rfl, s.readReg_lt r, step_regRead_offset s rest r⟩

end Sys2Proof.Machine

/-! ## Reset and the parameters (O50, O54) -/

namespace Sys2Proof.Machine

/-- After a reset no byte of a memory is written (20_memory.md R86). -/
@[simp] theorem State.assertReset_read? (s : State) (sp : Space) (a : Nat) : (s.assertReset.mem sp).read? a = none := by
  cases sp <;> rfl

/-- Settles O50: the step is `State.assertReset`, whose fields are those of `State.reset` but for the parameters. -/
theorem resetSetsEveryRegister : Obligations.ResetSetsEveryRegister := by
  intro s rest
  refine ⟨(s.withSched rest).assertReset, rfl, ?_⟩
  simp [State.reset]

/-- The parameters: the capacities (10_state.md R42) and the palette ROM (42_palette.md R181). -/
def State.parameters (s : State) : Word × Word × Word × Palette × Palette :=
  (s.inCap, s.outCap, s.rasterCap, s.rom0, s.rom1)

theorem headerStep_parameters (s : State) : (headerStep s).parameters = s.parameters := by
  rcases headerStep_cases s with ⟨_, e⟩ | ⟨_, e⟩ <;> rw [e] <;> rfl

theorem runToken_parameters {s : State} (h : s.ip.toNat < s.inLen.toNat) :
    (runToken s).parameters = s.parameters := by
  rcases runToken_cases h with ⟨_, _, e⟩ | ⟨_, _, _, _, _, _, _, e⟩ | ⟨_, _, _, _, _, _, _, _, e⟩ <;>
    simp [e, State.parameters]

theorem decompress_parameters (s : State) : (decompress s).parameters = s.parameters := by
  obtain ⟨t, ht, ⟨_, _, e⟩ | ⟨_, e⟩⟩ := decompress_rule (fun t => t.parameters = s.parameters)
    (fun _ ht _ hlt => (runToken_parameters hlt).trans ht) s (headerStep_parameters s)
  · rw [e]; exact ht
  · rw [e]; exact ht

theorem fetchStep_parameters {s t : State} (h : fetchStep s = .next t) : t.parameters = s.parameters := by
  rcases fetchStep_inv h with ⟨_, rfl⟩ | hlt
  · rfl
  · rcases fetchStep_cases hlt with ⟨_, _, e, _⟩ | ⟨_, _, _, _, _, _, _, e⟩ | ⟨_, _, _, _, _, _, _, _, e⟩ <;>
      rw [e] at h <;> cases h <;> rfl

theorem reconstruct_parameters (s : State) : (reconstruct s).parameters = s.parameters := by
  rw [reconstruct]; split <;> rfl

theorem paletteRead_parameters (s : State) : (paletteRead s).parameters = s.parameters := by
  rw [paletteRead]; split <;> rfl

theorem tick_parameters {s t : State} (h : tick s = .next t) : t.parameters = s.parameters := by
  cases tickCase_of_tick h with
  | halt => rfl
  | hdr => exact headerStep_parameters s
  | fetch _ hf => exact fetchStep_parameters hf
  | litcopy => rfl
  | refcopy => rfl
  | recon => exact reconstruct_parameters s
  | palrd => exact paletteRead_parameters s

theorem runInstr_parameters {s t : State} (h : runInstr s = .next t) : t.parameters = s.parameters := by
  rcases runInstr_inv h with ⟨_, rfl⟩ | ⟨_, hf⟩ | ht
  · exact decompress_parameters s
  · rcases fetchAndExec_inv hf with ⟨_, rfl⟩ | ⟨hlt, rfl⟩
    · rfl
    · exact runToken_parameters hlt
  · exact tick_parameters ht

theorem State.storeReg_parameters (s : State) (r : Reg) (v : Word) : (s.storeReg r v).parameters = s.parameters := by
  cases r
  case inLen | outLen => rw [State.storeReg]; split <;> rfl
  all_goals rfl

theorem illegalCommand_parameters (w : Word) (s : State) : (illegalCommand w s).parameters = s.parameters := by
  rw [illegalCommand]; split <;> rfl

theorem hostRegWrite_parameters {s t : State} {offset v : Word} {bytes : Nat}
    (h : hostRegWrite offset bytes v s = .next t) : t.parameters = s.parameters := by
  rcases hostRegWrite_cases offset v bytes s with e | ⟨_, _, _, e⟩ | ⟨_, _, r, _, _, e⟩ <;> rw [e] at h
  · cases h; rfl
  · rcases commandWrite_cases v s with ⟨_, _, e⟩ | e <;> rw [e] at h <;> cases h
    · rfl
    · exact illegalCommand_parameters v s
  · cases h; exact s.storeReg_parameters r v

theorem hostMemRead_parameters (sp : Space) (a : Nat) (s : State) :
    (hostMemRead sp a s).parameters = s.parameters := by
  rw [hostMemRead]; split <;> rfl

theorem hostMemWrite_parameters (sp : Space) (a : Nat) (v : Byte) (s : State) :
    (hostMemWrite sp a v s).parameters = s.parameters := by
  cases sp
  case raster => rw [hostMemWrite_raster]
  case input | output =>
    simp only [hostMemWrite]
    split
    · rfl
    · split <;> rfl

theorem doMove_parameters {m : Move} {s t : State} (h : doMove m s = .next t) : t.parameters = s.parameters := by
  cases m with
  | tick => exact tick_parameters h
  | regWrite offset bytes v => exact hostRegWrite_parameters h
  | regRead offset bytes => cases h; rfl
  | memWrite sp a v => cases h; exact hostMemWrite_parameters _ _ _ _
  | memRead sp a => cases h; exact hostMemRead_parameters _ _ _
  | reset => cases h; rfl

/-- No step of either agent changes a parameter. -/
theorem step_parameters {s t : State} (h : step s = .next t) : t.parameters = s.parameters := by
  rw [step] at h
  split at h
  · exact runInstr_parameters h
  · exact (doMove_parameters h).trans rfl

/-! The registers are wide enough for the parameters' ranges (00_scope.md R9), so reset stores them whole. -/

theorem State.reset_inCap_toNat : State.reset.inCap.toNat = Config.inCapacity := by
  simp only [State.reset, Config.inCapacity, BitVec.toNat_ofNat]; omega

theorem State.reset_outCap_toNat : State.reset.outCap.toNat = Config.outCapacity := by
  simp only [State.reset, Config.outCapacity, BitVec.toNat_ofNat]; omega

theorem State.reset_rasterCap_toNat : State.reset.rasterCap.toNat = Config.rasterCapacity := by
  simp only [State.reset, Config.rasterCapacity, BitVec.toNat_ofNat]; omega

/-- Settles O54: reset stores the parameters whole, the three offsets read them, and every step keeps
`State.parameters`. -/
theorem parametersNeverChange : Obligations.ParametersNeverChange := by
  refine ⟨State.reset_inCap_toNat, State.reset_outCap_toNat, State.reset_rasterCap_toNat, rfl, rfl, fun s t h => ?_⟩
  simpa only [State.parameters, Prod.mk.injEq] using step_parameters h

end Sys2Proof.Machine

/-! ## The header's fields (O17) -/

namespace Sys2Proof.Machine

@[simp] theorem State.headerField_toNat (s : State) (a : Nat) :
    (s.headerField a).toNat = (s.readByte .input a).toNat + 256 * (s.readByte .input (a + 1)).toNat :=
  le16_toNat _ _

theorem tick_of_hdr {s : State} (h : s.phase = .hdr) : tick s = .next (headerStep s) := by rw [tick, h]

/-- Settles O17: with a whole header the HDR step stores the three fields, each the number of its two bytes. -/
theorem headerFieldsAreLittleEndian : Obligations.HeaderFieldsAreLittleEndian := by
  intro s hp h6
  refine ⟨headerStep s, tick_of_hdr hp, ?_⟩
  rcases headerStep_cases s with ⟨hlt, _⟩ | ⟨_, e⟩
  · omega
  · rw [e]
    exact ⟨s.headerField_toNat 0, s.headerField_toNat 2, s.headerField_toNat 4, rfl, rfl, rfl, rfl, rfl⟩

end Sys2Proof.Machine

/-! ## The atomic steps among the tokens (O27) -/

namespace Sys2Proof.Machine

/-- The FETCH step moves IP forward, where it moves it at all, and leaves OUT alone (40_lzss.md R126). -/
theorem fetchStep_appends_nothing {s t : State} (h : fetchStep s = .next t) :
    s.ip.toNat ≤ t.ip.toNat ∧ t.outLen = s.outLen ∧ t.outMem = s.outMem := by
  have hb := s.inLen.isLt
  rcases fetchStep_inv h with ⟨_, rfl⟩ | hlt
  · exact ⟨le_rfl, rfl, rfl⟩
  · rcases fetchStep_cases hlt with ⟨_, _, e, _⟩ | ⟨bytes, _, _, _, _, hfit, _, e⟩ | ⟨_, _, _, _, _, hfit, _, _, e⟩ <;>
      rw [e] at h <;> cases h
    · exact ⟨le_rfl, rfl, rfl⟩
    · have hip : (s.ip + BitVec.ofNat 32 1).toNat = s.ip.toNat + 1 := toNat_add_ofNat (by omega)
      exact ⟨by simp [hip], rfl, rfl⟩
    · have hip : (s.ip + BitVec.ofNat 32 3).toNat = s.ip.toNat + 3 := toNat_add_ofNat (by omega)
      exact ⟨by simp [hip], rfl, rfl⟩

/-- The LITCOPY step appends the byte at IP: no other byte of OUT changes (R127). -/
theorem litCopyStep_readByte_output (s : State) (a : Nat) :
    (litCopyStep s).readByte .output a =
      if s.outLen.toNat = a then s.readByte .input s.ip.toNat else s.readByte .output a := by
  simp [litCopyStep, State.appendOut_readByte_output]

/-- The REFCOPY step appends the byte at w.SRC: no other byte of OUT changes (R128). -/
theorem refCopyStep_readByte_output (s : State) (a : Nat) :
    (refCopyStep s).readByte .output a =
      if s.outLen.toNat = a then s.readByte .output s.wSrc.toNat else s.readByte .output a := by
  simp [refCopyStep, State.appendOut_readByte_output]

/-- Settles O27: the FETCH step appends nothing, and a copy step one byte, for which the invariant has room. -/
theorem atomicStepAppendsAtMostOneByte : Obligations.AtomicStepAppendsAtMostOneByte := by
  intro s t h hin ht
  have hil := s.inLen.isLt
  have hoc := s.outCap.isLt
  cases tickCase_of_tick ht with
  | fetch _ hf =>
    obtain ⟨hip, hout⟩ := fetchStep_appends_nothing hf
    exact ⟨hip, .inl hout⟩
  | litcopy hp =>
    obtain ⟨_, hcnt, _, hfit, hroom⟩ := h.litcopy hp
    have hip : (s.ip + BitVec.ofNat 32 1).toNat = s.ip.toNat + 1 := toNat_add_ofNat (by omega)
    have hlen : (s.outLen + 1#32).toNat = s.outLen.toNat + 1 := toNat_add_one (by omega)
    exact ⟨Nat.le_of_lt_succ (by simp [litCopyStep, hip]), .inr ⟨hlen, fun a ha => by
      rw [litCopyStep_readByte_output, if_neg ha.symm]⟩⟩
  | refcopy hp =>
    obtain ⟨_, hcnt, _, _, _, hroom⟩ := h.refcopy hp
    have hlen : (s.outLen + 1#32).toNat = s.outLen.toNat + 1 := toNat_add_one (by omega)
    exact ⟨le_rfl, .inr ⟨hlen, fun a ha => by rw [refCopyStep_readByte_output, if_neg ha.symm]⟩⟩
  | halt hp | hdr hp | recon hp | palrd hp => simp [State.inTokens, hp] at hin

end Sys2Proof.Machine

/-! ## Host reads (O46, O48) -/

namespace Sys2Proof.Machine

/-- A host read of a memory byte writes only the model's own record of it (20_memory.md R73). -/
theorem hostMemRead_eq (sp : Space) (a : Nat) (s : State) :
    ∃ v n, hostMemRead sp a s = { s with busData := v, draws := n } := by
  cases hv : s.hostByte? sp a with
  | some v => exact ⟨_, _, hostMemRead_of_some hv⟩
  | none => exact ⟨_, _, hostMemRead_of_none hv⟩

/-- Settles O46: a read of REG records its value, and a read of a memory is `hostMemRead_eq`. -/
theorem hostReadsHaveNoSideEffects : Obligations.HostReadsHaveNoSideEffects := by
  rintro s t rest m (⟨offset, bytes, rfl⟩ | ⟨sp, a, rfl⟩) ht <;> rw [step_withSched_cons] at ht <;> cases ht
  · rfl
  · obtain ⟨v, n, e⟩ := hostMemRead_eq sp a.toNat (s.withSched rest)
    rw [e]; rfl

/-- Settles O48: in each of the cases one of the conditions of a sure read (`State.hostByte?_eq_some`) fails. -/
theorem unspecifiedReadIsAFreshDraw : Obligations.UnspecifiedReadIsAFreshDraw := by
  intro s rest sp a h
  have hnone : s.hostByte? sp a.toNat = none := by
    refine Option.eq_none_iff_forall_ne_some.mpr fun v hv => ?_
    obtain ⟨hread, hcap, hvalid⟩ := State.hostByte?_eq_some.mp hv
    rcases h with ⟨hsp, hb⟩ | ⟨rfl, hle⟩ | ⟨rfl, hle⟩ | ⟨rfl, hle⟩ | ⟨rfl, hle⟩ | ⟨rfl, hle⟩ | ⟨rfl, hle⟩ | hunwritten
    · cases sp with
      | input => exact hsp rfl
      | output | raster => exact hvalid.1 hb
    · exact Nat.not_lt.mpr hle hvalid
    · exact Nat.not_lt.mpr hle hvalid.2
    · exact Nat.not_lt.mpr hle hvalid.2
    · exact Nat.not_lt.mpr hle hcap
    · exact Nat.not_lt.mpr hle hcap
    · exact Nat.not_lt.mpr hle hcap
    · simp [hunwritten] at hread
  rw [step_withSched_cons, doMove, hostMemRead_of_none (by rwa [State.hostByte?_withSched])]
  rfl

end Sys2Proof.Machine

/-! ## What a command leaves alone (O55, O56)

Every sequencer step leaves IN, IN_LEN and RASTER as they were, but that RECONSTRUCT writes RASTER. The host can write
none of them while a command runs, and RASTER never. -/

namespace Sys2Proof.Machine

/-- IN, IN_LEN and what unwritten bytes hold (which the reset count selects) are the same in two states. -/
def State.SameIn (s t : State) : Prop := t.inMem = s.inMem ∧ t.inLen = s.inLen ∧ t.epoch = s.epoch

theorem State.SameIn.refl (s : State) : s.SameIn s := ⟨rfl, rfl, rfl⟩

/-- What no sequencer step changes but RECONSTRUCT, which writes RASTER. -/
def State.inputAndRaster (s : State) : Memory × Word × Nat × Memory := (s.inMem, s.inLen, s.epoch, s.rasterMem)

theorem State.inputAndRaster_eq {s t : State} :
    t.inputAndRaster = s.inputAndRaster ↔ s.SameIn t ∧ t.rasterMem = s.rasterMem := by
  simp only [inputAndRaster, SameIn, Prod.mk.injEq, and_assoc]

theorem headerStep_inputAndRaster (s : State) : (headerStep s).inputAndRaster = s.inputAndRaster := by
  rcases headerStep_cases s with ⟨_, e⟩ | ⟨_, e⟩ <;> rw [e] <;> rfl

theorem runToken_inputAndRaster {s : State} (h : s.ip.toNat < s.inLen.toNat) :
    (runToken s).inputAndRaster = s.inputAndRaster := by
  rcases runToken_cases h with ⟨_, _, e⟩ | ⟨_, _, _, _, _, _, _, e⟩ | ⟨_, _, _, _, _, _, _, _, e⟩ <;>
    simp [e, State.inputAndRaster]

theorem decompress_inputAndRaster (s : State) : (decompress s).inputAndRaster = s.inputAndRaster := by
  obtain ⟨t, ht, ⟨_, _, e⟩ | ⟨_, e⟩⟩ := decompress_rule (fun t => t.inputAndRaster = s.inputAndRaster)
    (fun _ ht _ hlt => (runToken_inputAndRaster hlt).trans ht) s (headerStep_inputAndRaster s)
  · rw [e]; exact ht
  · rw [e]; exact ht

theorem fetchStep_inputAndRaster {s t : State} (h : fetchStep s = .next t) : t.inputAndRaster = s.inputAndRaster := by
  rcases fetchStep_inv h with ⟨_, rfl⟩ | hlt
  · rfl
  · rcases fetchStep_cases hlt with ⟨_, _, e, _⟩ | ⟨_, _, _, _, _, _, _, e⟩ | ⟨_, _, _, _, _, _, _, _, e⟩ <;>
      rw [e] at h <;> cases h <;> rfl

theorem paletteRead_inputAndRaster (s : State) : (paletteRead s).inputAndRaster = s.inputAndRaster := by
  rw [paletteRead]; split <;> rfl

theorem tick_inputAndRaster {s t : State} (h : tick s = .next t) :
    t.inputAndRaster = s.inputAndRaster ∨ s.phase = .recon ∧ t = reconstruct s := by
  cases tickCase_of_tick h with
  | halt => exact .inl rfl
  | hdr => exact .inl (headerStep_inputAndRaster s)
  | fetch _ hf => exact .inl (fetchStep_inputAndRaster hf)
  | litcopy => exact .inl rfl
  | refcopy => exact .inl rfl
  | recon hp => exact .inr ⟨hp, rfl⟩
  | palrd => exact .inl (paletteRead_inputAndRaster s)

theorem runInstr_inputAndRaster {s t : State} (h : runInstr s = .next t) :
    t.inputAndRaster = s.inputAndRaster ∨ s.phase = .recon ∧ t = reconstruct s := by
  rcases runInstr_inv h with ⟨_, rfl⟩ | ⟨_, hf⟩ | ht
  · exact .inl (decompress_inputAndRaster s)
  · rcases fetchAndExec_inv hf with ⟨_, rfl⟩ | ⟨hlt, rfl⟩
    · exact .inl rfl
    · exact .inl (runToken_inputAndRaster hlt)
  · exact tick_inputAndRaster ht

/-! ### IN while a command runs -/

theorem reconstruct_sameIn (s : State) : s.SameIn (reconstruct s) := by
  rw [reconstruct]; split <;> exact .refl s

/-- The sequencer never writes IN, at RECON either (20_memory.md R83). -/
theorem State.sameIn_of_sequencer {s t : State}
    (h : t.inputAndRaster = s.inputAndRaster ∨ s.phase = .recon ∧ t = reconstruct s) : s.SameIn t := by
  rcases h with h | ⟨_, rfl⟩
  · exact (inputAndRaster_eq.mp h).1
  · exact reconstruct_sameIn s

/-- While BUSY every move but a reset keeps IN: the host's writes are dropped (R75, 43_commands.md R200). -/
theorem doMove_sameIn_of_busy {m : Move} {s t : State} (hb : s.status = .busy) (hm : m ≠ .reset)
    (h : doMove m s = .next t) : s.SameIn t := by
  cases m with
  | tick => exact State.sameIn_of_sequencer (tick_inputAndRaster h)
  | regWrite offset bytes v =>
    rw [doMove, hostRegWrite_of_busy hb] at h
    cases h; exact .refl s
  | regRead offset bytes => cases h; exact .refl s
  | memWrite sp a v =>
    rw [doMove, hostMemWrite_of_busy hb] at h
    cases h; exact .refl s
  | memRead sp a =>
    obtain ⟨v, n, e⟩ := hostMemRead_eq sp a.toNat s
    rw [doMove, e] at h
    cases h; exact .refl s
  | reset => exact absurd rfl hm

/-- Settles O55: the sequencer never writes IN, and the host's writes are dropped while BUSY. -/
theorem inputIsImmutableWhileBusy : Obligations.InputIsImmutableWhileBusy := by
  intro s t hb hreset ht
  rw [step] at ht
  split at ht
  next => exact State.sameIn_of_sequencer (runInstr_inputAndRaster ht)
  next m rest hs => exact doMove_sameIn_of_busy (s := s.withSched rest) hb (fun hm => hreset rest (hm ▸ hs)) ht

/-! ### RASTER -/

theorem State.storeReg_rasterMem (s : State) (r : Reg) (v : Word) : (s.storeReg r v).rasterMem = s.rasterMem := by
  cases r
  case inLen | outLen => rw [State.storeReg]; split <;> rfl
  all_goals rfl

theorem illegalCommand_rasterMem (w : Word) (s : State) : (illegalCommand w s).rasterMem = s.rasterMem := by
  rw [illegalCommand]; split <;> rfl

theorem hostRegWrite_rasterMem {s t : State} {offset v : Word} {bytes : Nat}
    (h : hostRegWrite offset bytes v s = .next t) : t.rasterMem = s.rasterMem := by
  rcases hostRegWrite_cases offset v bytes s with e | ⟨_, _, _, e⟩ | ⟨_, _, r, _, _, e⟩ <;> rw [e] at h
  · cases h; rfl
  · rcases commandWrite_cases v s with ⟨_, _, e⟩ | e <;> rw [e] at h <;> cases h
    · rfl
    · exact illegalCommand_rasterMem v s
  · cases h; exact s.storeReg_rasterMem r v

/-- The host writes IN and OUT only (20_memory.md R63, R75). -/
theorem hostMemWrite_rasterMem (sp : Space) (a : Nat) (v : Byte) (s : State) :
    (hostMemWrite sp a v s).rasterMem = s.rasterMem := by
  cases sp
  case raster => rw [hostMemWrite_raster]
  case input | output =>
    simp only [hostMemWrite]
    split
    · rfl
    · split <;> rfl

/-- A move that changes RASTER is a tick at RECON or a reset. -/
theorem doMove_rasterMem {m : Move} {s t : State} (h : doMove m s = .next t) :
    t.rasterMem = s.rasterMem ∨ s.phase = .recon ∧ m = .tick ∨ m = .reset := by
  cases m with
  | tick =>
    rcases tick_inputAndRaster h with e | ⟨hp, _⟩
    · exact .inl (State.inputAndRaster_eq.mp e).2
    · exact .inr (.inl ⟨hp, rfl⟩)
  | regWrite offset bytes v => exact .inl (hostRegWrite_rasterMem h)
  | regRead offset bytes => cases h; exact .inl rfl
  | memWrite sp a v => cases h; exact .inl (hostMemWrite_rasterMem _ _ _ _)
  | memRead sp a =>
    obtain ⟨v, n, e⟩ := hostMemRead_eq sp a.toNat s
    rw [doMove, e] at h
    cases h; exact .inl rfl
  | reset => exact .inr (.inr rfl)

/-- Settles O56: of the sequencer's steps only RECONSTRUCT changes RASTER, and of the host's moves only reset. -/
theorem onlyReconstructWritesRaster : Obligations.OnlyReconstructWritesRaster := by
  intro s t ht hne
  rw [step] at ht
  split at ht
  next hs =>
    rcases runInstr_inputAndRaster ht with e | ⟨hp, _⟩
    · exact absurd (State.inputAndRaster_eq.mp e).2 hne
    · exact .inl ⟨hp, .inl hs⟩
  next m rest hs =>
    rcases doMove_rasterMem ht with e | ⟨hp, rfl⟩ | rfl
    · exact absurd e hne
    · exact .inl ⟨hp, .inr ⟨rest, hs⟩⟩
    · exact .inr ⟨rest, hs⟩

end Sys2Proof.Machine

/-! ## The ring buffer (O58, O59)

A slot holds the last byte written to it, so a read from the ring is right exactly where no later byte has taken the
slot. -/

namespace Sys2Proof.Machine

/-- A slot holds the byte of the last index that went to it (20_memory.md R66). -/
theorem State.ringSlot_eq_some (s : State) {size r k n : Nat} (hk : k < n) (hr : k % size = r)
    (hlast : ∀ j, k < j → j < n → j % size ≠ r) : s.ringSlot size r n = some (s.readByte .output k) := by
  induction n with
  | zero => omega
  | succ n ih =>
    rw [ringSlot]
    rcases Nat.lt_succ_iff_lt_or_eq.mp hk with hlt | rfl
    · rw [if_neg (hlast n hlt n.lt_succ_self)]
      exact ih hlt fun j h1 h2 => hlast j h1 (Nat.lt_succ_of_lt h2)
    · rw [if_pos hr]

/-- Reading index a from the ring gives the byte of the last index below OUT_LEN that shares a's slot. -/
theorem State.ringByte_eq {s : State} {size a k : Nat} (hk : k < s.outLen.toNat) (hr : k % size = a % size)
    (hlast : ∀ j, k < j → j < s.outLen.toNat → j % size ≠ a % size) :
    s.ringByte size a = s.readByte .output k := by
  rw [ringByte, s.ringSlot_eq_some hk hr hlast, Option.getD_some]

/-- The copy step with the ring appends the byte the ring gives. -/
theorem ringCopyStep_readByte_output (size : Nat) (s : State) (a : Nat) :
    (ringCopyStep size s).readByte .output a =
      if s.outLen.toNat = a then s.ringByte size s.wSrc.toNat else s.readByte .output a := by
  simp [ringCopyStep, State.appendOut_readByte_output]

/-- Two indices less than size apart have different slots. -/
theorem mod_ne_mod {size i j : Nat} (hlt : i < j) (hnear : j < i + size) : j % size ≠ i % size := by
  intro h
  have hdvd : size ∣ j - i := (Nat.modEq_iff_dvd' hlt.le).mp h.symm
  have := Nat.le_of_dvd (by omega) hdvd
  omega

/-- Settles O58: w.SRC is less than 32768 bytes behind the last byte written, so its slot still holds its byte. -/
theorem largeRingIsInvisible : Obligations.LargeRingIsInvisible := by
  intro s size h hp hsize
  obtain ⟨_, _, _, hsrc, hnear, _⟩ := h.refcopy hp
  rw [ringCopyStep, refCopyStep, State.ringByte_eq hsrc rfl fun j h1 h2 => mod_ne_mod h1 (by omega)]

/-- size bytes 0, then one byte 1: with a ring of that size the 1 takes the slot of index 0. -/
def wrappingHistory (size : Nat) : List Byte := List.replicate size 0 ++ [1]

/-- In the middle of a BREF whose source is index 0 of that history. -/
def wrappedCopy (size : Nat) : State :=
  { State.reset with
    status := .busy, phase := .refcopy, wC := 0xFF, wCnt := 1, wSrc := 0, inLen := 9, ip := 9
    inCap := 9, outCap := 0x10000, rasterCap := 8
    outMem := Memory.writeAll [] 0 (wrappingHistory size), outLen := BitVec.ofNat 32 (size + 1) }

theorem wrappedCopy_outLen {size : Nat} (h : size < 32768) : (wrappedCopy size).outLen.toNat = size + 1 := by
  simp only [wrappedCopy, BitVec.toNat_ofNat]; omega

theorem wrappedCopy_read? {size a : Nat} (h : a ≤ size) :
    (wrappedCopy size).outMem.read? a = some (if a < size then 0 else 1) := by
  rw [wrappedCopy, Memory.read?_writeAll, dif_pos (by simp [wrappingHistory]; omega)]
  simp [wrappingHistory, List.getElem_append]

theorem wrappedCopy_readByte {size a : Nat} (h : a ≤ size) :
    (wrappedCopy size).readByte .output a = if a < size then 0 else 1 := by
  rw [State.readByte, State.mem, wrappedCopy_read? h, Option.getD_some]

theorem wrappedCopy_inv {size : Nat} (h : size < 32768) : (wrappedCopy size).Inv := by
  have hlen := wrappedCopy_outLen h
  have hcap : (wrappedCopy size).outCap.toNat = 65536 := rfl
  constructor
  case busy_iff => exact ⟨fun _ => by simp [wrappedCopy], fun _ => rfl⟩
  case outLen_le => omega
  case inMem_wf => exact List.Pairwise.nil
  case outMem_wf => exact Memory.writeAll_wf List.Pairwise.nil _ _
  case rasterMem_wf => exact List.Pairwise.nil
  case inMem_below => exact fun _ hc => absurd hc List.not_mem_nil
  case outMem_below =>
    exact Memory.writeAll_below (fun _ hc => absurd hc List.not_mem_nil) (by simp [wrappingHistory]; omega)
  case rasterMem_below => exact fun _ hc => absurd hc List.not_mem_nil
  case produced =>
    intro _ a ha
    rw [wrappedCopy_read? (by omega)]; rfl
  case refcopy =>
    have hflag : (wrappedCopy size).latchedFlag = true := show matchFlag 0xFF = true by decide
    have hcnt : (wrappedCopy size).wCnt.toNat = 1 := rfl
    have hsrc : (wrappedCopy size).wSrc.toNat = 0 := rfl
    exact fun _ => ⟨hflag, by omega⟩
  all_goals simp [wrappedCopy, State.reset]

/-- Settles O59: in `wrappedCopy` the ring gives the 1 at index size where the copy engine reads the 0 at index 0. -/
theorem smallRingDiffers : Obligations.SmallRingDiffers := by
  intro size h1 h2
  refine ⟨wrappedCopy size, wrappedCopy_inv h2, rfl, fun heq => ?_⟩
  have hlen := wrappedCopy_outLen h2
  have hring : (wrappedCopy size).ringByte size 0 = 1 := by
    rw [State.ringByte_eq (k := size) (by omega) (by simp) (by omega), wrappedCopy_readByte le_rfl, if_neg (by omega)]
  have hout : (wrappedCopy size).readByte .output 0 = 0 := by
    rw [wrappedCopy_readByte (by omega), if_pos (by omega)]
  have hsame : (wrappedCopy size).ringByte size 0 = (wrappedCopy size).readByte .output 0 := by
    have := congrArg (State.readByte · .output (wrappedCopy size).outLen.toNat) heq
    rwa [ringCopyStep_readByte_output, refCopyStep_readByte_output, if_pos rfl, if_pos rfl] at this
  rw [hring, hout] at hsame
  cases hsame

end Sys2Proof.Machine

/-! ## Decoding and encoding agree (O1 to O7)

A list of bytes decodes to a token exactly when it is a well-formed token's encoding and the bytes after it; the first
byte alone tells which token, and how long it is. -/

namespace Sys2Proof

/-- The lengths of a LIT (30_encoding.md R94). -/
theorem wellFormed_lit_iff {bytes : List Byte} : WellFormed (.lit bytes) ↔ 1 ≤ bytes.length ∧ bytes.length ≤ 128 := by
  simp [WellFormed, Instr.wellFormed]

/-- An illegal command is a word that is no command code (R103). -/
theorem wellFormed_illegalCommand_iff {w : Word} :
    WellFormed (.illegalCommand w) ↔ w ≠ 1#32 ∧ w ≠ 2#32 ∧ w ≠ 3#32 := by
  simp [WellFormed, Instr.wellFormed, and_assoc]

/-- Settles O1: one case for each constructor; the tokens leave any bytes after them, the command words are whole. -/
theorem everyEncodingDecodesToItsInstruction : Obligations.EveryEncodingDecodesToItsInstruction := by
  intro i rest hw
  cases i with
  | lit bytes =>
    obtain ⟨h1, h2⟩ := wellFormed_lit_iff.mp hw
    exact decodeToken_lit h1 h2 rest
  | bref high low len => exact decodeToken_bref high low len rest
  | decompress => rfl
  | reconstruct => rfl
  | paletteRead => rfl
  | illegalCommand word =>
    obtain ⟨h1, h2, h3⟩ := wellFormed_illegalCommand_iff.mp hw
    exact decodeCommand_illegal h1 h2 h3

/-- Where decoding gives a token, it is a LIT or a BREF, and the bytes are its encoding and the rest. -/
theorem cases_of_decodeToken_eq_token {bs rest : List Byte} {i : Instr} (h : decodeToken bs = .token i rest) :
    (∃ bytes, i = .lit bytes ∧ 1 ≤ bytes.length ∧ bytes.length ≤ 128 ∧
      bs = litControl bytes.length :: bytes ++ rest) ∨
    (∃ high low len, i = .bref high low len ∧ bs = brefControl high :: low :: len :: rest) := by
  rcases decodeToken_cases bs with ⟨_, e⟩ | ⟨_, _, _, _, _, e⟩ | ⟨_, _, _, _, _, e⟩ | ⟨bytes, _, h1, h2, hbs, e⟩ |
    ⟨high, low, len, _, hbs, e⟩ <;> cases e.symm.trans h
  · exact .inl ⟨bytes, rfl, h1, h2, hbs⟩
  · exact .inr ⟨high, low, len, rfl, hbs⟩

/-- Settles O2: the control byte and the operands of a decoded token are those its encoder writes. -/
theorem decodedTokenIsItsEncoding : Obligations.DecodedTokenIsItsEncoding := by
  intro bs rest i h
  rcases cases_of_decodeToken_eq_token h with ⟨bytes, rfl, h1, h2, hbs⟩ | ⟨high, low, len, rfl, hbs⟩
  · exact ⟨wellFormed_lit_iff.mpr ⟨h1, h2⟩, _, rfl, hbs⟩
  · exact ⟨rfl, _, rfl, hbs⟩

/-! ### The first byte -/

theorem tokenLength_lit {c : Byte} (h : matchFlag c = false) : tokenLength c = 1 + runLength c := by
  simp [tokenLength, h]

theorem tokenLength_bref {c : Byte} (h : matchFlag c = true) : tokenLength c = 3 := by
  simp [tokenLength, h]

/-- A decoded token took as many bytes as its first byte announces (R98). -/
theorem length_of_decodeToken_eq_token {c : Byte} {bs rest : List Byte} {i : Instr}
    (h : decodeToken (c :: bs) = .token i rest) : (c :: bs).length = tokenLength c + rest.length := by
  rcases cases_of_decodeToken_eq_token h with ⟨bytes, _, h1, h2, hbs⟩ | ⟨high, low, len, _, hbs⟩
  · obtain ⟨rfl, rfl⟩ := List.cons.inj hbs
    rw [tokenLength_lit (matchFlag_litControl _), runLength_litControl h1 h2]
    simp; omega
  · obtain ⟨rfl, rfl⟩ := List.cons.inj hbs
    rw [tokenLength_bref (matchFlag_brefControl _)]
    simp; omega

/-- Settles O3: the announced length, for each value of the match flag. -/
theorem tokenLengthFromFirstByte : Obligations.TokenLengthFromFirstByte := by
  intro c bs rest i h
  rw [length_of_decodeToken_eq_token h]
  refine ⟨fun hc => ?_, fun hc => ?_⟩
  · rw [tokenLength_lit hc, runLength, ← Nat.add_assoc 1]
  · rw [tokenLength_bref hc]

/-- A control byte with match flag 0 starts a LIT where its run is there (R91, R92). -/
theorem decodeToken_cons_lit {c : Byte} (hc : matchFlag c = false) {bs : List Byte} (h : runLength c ≤ bs.length) :
    decodeToken (c :: bs) = .token (.lit (bs.take (runLength c))) (bs.drop (runLength c)) := by
  simp [decodeToken, hc, h]

/-- A control byte with match flag 1 starts a BREF where its two operand bytes are there (R91, R93). -/
theorem decodeToken_cons_bref {c : Byte} (hc : matchFlag c = true) (b1 b2 : Byte) (rest : List Byte) :
    decodeToken (c :: b1 :: b2 :: rest) = .token (.bref (c.extractLsb' 0 7) b1 b2) rest := by
  simp [decodeToken, hc]

/-- Settles O4: with the announced bytes there, each value of the match flag gives its token, whatever the bytes. -/
theorem noTokenEncodingIsReserved : Obligations.NoTokenEncodingIsReserved := by
  intro c bs hlen
  refine ⟨fun hc => ?_, fun hc => ?_⟩
  · rw [tokenLength_lit hc, List.length_cons] at hlen
    exact ⟨_, _, decodeToken_cons_lit hc (by omega)⟩
  · rw [tokenLength_bref hc] at hlen
    match bs with
    | b1 :: b2 :: rest => exact ⟨_, _, _, _, decodeToken_cons_bref hc b1 b2 rest⟩

/-! ### Listed words and command words -/

/-- Settles O5: closed decodings, each evaluated. -/
theorem listedWordsDecode : Obligations.ListedWordsDecode := by
  unfold Obligations.ListedWordsDecode
  decide

/-- Settles O6: each of the four answers of `decodeCommand` fits one word only, or only the words that are no code. -/
theorem commandWordsAreComparedWhole : Obligations.CommandWordsAreComparedWhole := by
  intro w
  rcases decodeCommand_cases w with ⟨rfl, e⟩ | ⟨rfl, e⟩ | ⟨rfl, e⟩ | ⟨h1, h2, h3, e⟩
  · simp [e]
  · simp [e]
  · simp [e]
  · simp [e, h1, h2, h3]

/-! ### The offset of a BREF -/

namespace Machine

/-- The offset field has its sign bit set, so the offset is the field read as two's complement (R95, R96). -/
theorem brefOffset_eq_toInt {c : Byte} (hc : matchFlag c = true) (b1 : Byte) :
    brefOffset c b1 = (offsetField c b1).toInt := by
  have := offsetField_ge hc b1
  rw [brefOffset, BitVec.toInt_eq_toNat_cond, if_neg (by omega)]
  rfl

/-- Settles O7: the offset is minus a distance of 1 to 32768, which bounds the offset and the source index. -/
theorem brefOffsetIsNegative : Obligations.BrefOffsetIsNegative := by
  refine ⟨fun c b1 hc => ?_, by decide, by decide⟩
  obtain ⟨h1, h2⟩ := brefDistance_bounds hc b1
  have hoff := brefOffset_eq hc b1
  refine ⟨brefOffset_eq_toInt hc b1, by omega, by omega, hoff, h1, h2, fun s => ?_⟩
  rw [brefSource]
  omega

end Machine

end Sys2Proof

/-! ## The tokens and their errors (O8 to O16)

`litToken_cases` and `brefToken_cases` say what a token does after its checks; here each outcome of the checks has its
own equation, so that a statement about one outcome needs no case split. -/

namespace Sys2Proof.Machine

/-! ### The step at a token -/

theorem step_of_sched_nil {s : State} (h : s.sched = []) : step s = runInstr s := by rw [step, h]

theorem step_of_fetch {s : State} (hs : s.sched = []) (hp : s.phase = .fetch) : step s = fetchAndExec s := by
  rw [step_of_sched_nil hs, runInstr, hp]

theorem tick_of_fetch {s : State} (h : s.phase = .fetch) : tick s = fetchStep s := by rw [tick, h]

/-! ### The outcomes of the checks -/

theorem State.availableAfterControl_le (s : State) : s.availableAfterControl ≤ 0xFFFFFFFF := by
  have := s.inLen.isLt
  rw [availableAfterControl]; omega

theorem litError_of_short {n : Nat} {s : State} (h : s.availableAfterControl < n) :
    litError n s = some ⟨.truncatedStream, s.ip.toNat, n, s.availableAfterControl⟩ := if_pos h

theorem litError_of_full {n : Nat} {s : State} (hin : n ≤ s.availableAfterControl)
    (hout : s.outCap.toNat < s.outLen.toNat + n) :
    litError n s = some ⟨.outputOverflow, s.ip.toNat, n, s.outCap.toNat - s.outLen.toNat⟩ := by
  rw [litError, if_neg (by omega), overflowError, if_pos (by omega)]

theorem brefError_of_short {c b1 b2 : Byte} {s : State} (h : s.availableAfterControl < 2) :
    brefError c b1 b2 s = some ⟨.truncatedStream, s.ip.toNat, 2, s.availableAfterControl⟩ := if_pos h

/-- The source index of a BREF is negative exactly where its distance exceeds OUT_LEN (40_lzss.md R120). -/
theorem brefSource_neg_iff {c : Byte} (hc : matchFlag c = true) (b1 : Byte) (s : State) :
    brefSource s c b1 < 0 ↔ s.outLen.toNat < brefDistance c b1 := by
  rw [brefSource, brefOffset_eq hc]; omega

theorem brefError_of_noHistory {c b1 b2 : Byte} {s : State} (hin : 2 ≤ s.availableAfterControl)
    (hsrc : brefSource s c b1 < 0) :
    brefError c b1 b2 s = some ⟨.invalidBackreference, s.ip.toNat, brefDistance c b1, s.outLen.toNat⟩ := by
  rw [brefError, if_neg (by omega), if_pos (.inl hsrc)]

theorem brefError_of_full {c : Byte} (hc : matchFlag c = true) {b1 b2 : Byte} {s : State}
    (hin : 2 ≤ s.availableAfterControl) (hd : brefDistance c b1 ≤ s.outLen.toNat)
    (hout : s.outCap.toNat < s.outLen.toNat + copyLength b2) :
    brefError c b1 b2 s =
      some ⟨.outputOverflow, s.ip.toNat, copyLength b2, s.outCap.toNat - s.outLen.toNat⟩ := by
  rcases brefError_cases hc b1 b2 s with ⟨_, _, h, _⟩ | ⟨h, _⟩ | ⟨_, h, _⟩ | ⟨_, _, _, e⟩
  · omega
  · omega
  · omega
  · exact e

theorem litToken_of_error {bytes : List Byte} {s : State} {e : ErrorReport} (h : litError bytes.length s = some e) :
    litToken bytes s = (s.latch (litControl bytes.length)).raise e := by
  simp [litToken, h]

theorem litToken_of_fits {bytes : List Byte} {s : State} (hin : bytes.length ≤ s.availableAfterControl)
    (hout : s.outLen.toNat + bytes.length ≤ s.outCap.toNat) :
    litToken bytes s = (((s.latch (litControl bytes.length)).appendRun bytes).advance (1 + bytes.length)).endToken := by
  simp [litToken, litError_eq_none.mpr ⟨hin, hout⟩]

theorem brefToken_of_error {high : BitVec 7} {b1 b2 : Byte} {s : State} {e : ErrorReport}
    (h : brefError (brefControl high) b1 b2 s = some e) :
    brefToken high b1 b2 s = (s.latch (brefControl high)).raise e := by
  simp [brefToken, h]

theorem brefToken_of_fits {high : BitVec 7} {b1 b2 : Byte} {s : State} (hin : 2 ≤ s.availableAfterControl)
    (hd : brefDistance (brefControl high) b1 ≤ s.outLen.toNat)
    (hout : s.outLen.toNat + copyLength b2 ≤ s.outCap.toNat) :
    brefToken high b1 b2 s =
      (((copyLoop (copyLength b2) (s.outLen.toNat - brefDistance (brefControl high) b1)
        (s.latch (brefControl high))).advance 3).setSrc
          (s.outLen.toNat - brefDistance (brefControl high) b1 + copyLength b2)).endToken := by
  have hflag := matchFlag_brefControl high
  simp [brefToken, (brefError_eq_none hflag).mpr ⟨hin, hd, hout⟩, brefSource_toNat hflag hd]

/-! ### Tokens that complete -/

/-- Settles O8: with its checks passed, LIT is the run appended at once, and the sums stay below 2^32. -/
theorem litAppendsItsBytes : Obligations.LitAppendsItsBytes := by
  intro bytes s hw hin hout
  obtain ⟨hpos, -⟩ := wellFormed_lit_iff.mp hw
  have hil := s.inLen.isLt
  have hoc := s.outCap.isLt
  refine ⟨_, rfl, ?_⟩
  rw [litToken_of_fits hin hout]
  have hip : (s.ip + BitVec.ofNat 32 (1 + bytes.length)).toNat = s.ip.toNat + (1 + bytes.length) :=
    toNat_add_ofNat (by omega)
  have hlen : (s.outLen + BitVec.ofNat 32 bytes.length).toNat = s.outLen.toNat + bytes.length :=
    toNat_add_ofNat (by omega)
  refine ⟨hip.trans (Nat.add_assoc ..).symm, hlen, rfl, rfl, fun k hk => ?_⟩
  simp [State.appendRun_readByte_output, hk]

/-- OUT after a BREF: the appended bytes repeat the last d bytes there were, and no other byte changes (R122). -/
theorem brefToken_readByte_output {high : BitVec 7} {b1 b2 : Byte} {s : State} (hin : 2 ≤ s.availableAfterControl)
    (hd : brefDistance (brefControl high) b1 ≤ s.outLen.toNat)
    (hout : s.outLen.toNat + copyLength b2 ≤ s.outCap.toNat) (a : Nat) :
    (brefToken high b1 b2 s).readByte .output a =
      if s.outLen.toNat ≤ a ∧ a < s.outLen.toNat + copyLength b2 then
        s.readByte .output (s.outLen.toNat - brefDistance (brefControl high) b1 +
          (a - s.outLen.toNat) % brefDistance (brefControl high) b1)
      else s.readByte .output a := by
  have hpos := (brefDistance_bounds (matchFlag_brefControl high) b1).1
  have hoc := s.outCap.isLt
  rw [brefToken_of_fits hin hd hout]
  simp only [State.endToken_readByte, State.setSrc_readByte, State.advance_readByte]
  rw [copyLoop_readByte (by rw [State.latch_outLen]; omega) (by rw [State.latch_outLen]; omega)]
  simp only [State.latch_outLen, State.latch_readByte, Nat.sub_sub_self hd]

/-- Settles O11: a byte that BREF reads at src + k is an earlier byte where k < d, and where k ≥ d it is the byte that
the same BREF appended d bytes before. -/
theorem brefRepeatsEarlierOutput : Obligations.BrefRepeatsEarlierOutput := by
  intro high b1 b2 s hin hd hout
  have hil := s.inLen.isLt
  have hoc := s.outCap.isLt
  have hread := brefToken_readByte_output hin hd hout
  refine ⟨brefToken high b1 b2 s, rfl, ?_, ?_, ?_, ?_, fun k hk => ?_⟩
  · rw [brefToken_of_fits hin hd hout]
    simp only [State.endToken_ip, State.setSrc_ip, State.advance_ip, copyLoop_ip, State.latch_ip]
    exact toNat_add_ofNat (by omega)
  · rw [brefToken_of_fits hin hd hout]
    simp only [State.endToken_outLen, State.setSrc_outLen, State.advance_outLen, copyLoop_outLen, State.latch_outLen]
    exact toNat_add_ofNat (by omega)
  · rw [brefToken_of_fits hin hd hout]; rfl
  · rw [brefToken_of_fits hin hd hout]; simp
  · have hnew : (brefToken high b1 b2 s).readByte .output (s.outLen.toNat + k) =
        s.readByte .output (s.outLen.toNat - brefDistance (brefControl high) b1 +
          k % brefDistance (brefControl high) b1) := by
      rw [hread, if_pos (by omega), Nat.add_sub_cancel_left]
    refine ⟨?_, hnew⟩
    rw [hnew, hread]
    rcases Nat.lt_or_ge k (brefDistance (brefControl high) b1) with hlt | hge
    · rw [if_neg (by omega), Nat.mod_eq_of_lt hlt]
    · rw [if_pos (by omega), Nat.mod_eq_sub_mod hge]
      congr 3
      omega

/-! ### Tokens that fail -/

/-- What the host finds after an error (60_exceptions.md R234), the context as numbers. -/
def State.Reports (t : State) (kind : ErrorKind) (pos : Word) (expected available : Nat) : Prop :=
  t.status = .error ∧ t.phase = .halt ∧ t.errCode = kind.code ∧ t.errPos = pos ∧ t.errExpected.toNat = expected ∧
    t.errAvailable.toNat = available

/-- Error entry reports numbers of 32 bits as they are (R238). -/
theorem State.raise_reports (s : State) (kind : ErrorKind) (pos : Word) {expected available : Nat}
    (hexp : expected ≤ 0xFFFFFFFF) (havail : available ≤ 0xFFFFFFFF) :
    (s.raise ⟨kind, pos.toNat, expected, available⟩).Reports kind pos expected available :=
  ⟨rfl, rfl, rfl, sat32_toNat pos, toNat_sat32 hexp, toNat_sat32 havail⟩

/-- With no move to come, a token at IP that is cut short fails alike as a step and as the FETCH step. -/
theorem step_and_tick_of_truncated {s : State} {n a : Nat} (hs : s.sched = []) (hp : s.phase = .fetch)
    (hlt : s.ip.toNat < s.inLen.toNat) (hd : decodeToken s.tokenWindow = .truncated n a) :
    step s = .next (truncatedToken n a s) ∧ tick s = .next (truncatedToken n a s) := by
  have hne : s.ip.toNat ≠ s.inLen.toNat := by omega
  rw [step_of_fetch hs hp, tick_of_fetch hp, fetchAndExec, fetchStep, if_neg hne, if_neg hne, hd]
  exact ⟨rfl, rfl⟩

/-- The run length of a LIT's control byte is its value plus 1 (30_encoding.md R94). -/
theorem runLength_of_lit {c : Byte} (h : matchFlag c = false) : runLength c = c.toNat + 1 := by
  revert h; revert c; decide

/-- Settles O9: at IP the decoder finds the LIT cut short, and executed it fails its first check. -/
theorem litTruncationIsReported : Obligations.LitTruncationIsReported := by
  refine ⟨?_, fun s bytes hw hin => ?_⟩
  · rintro s hs hp hlt _ rfl hflag hin
    have hrun := runLength_of_lit hflag
    have hd := decode_truncated_lit hlt hflag (hrun ▸ hin)
    rw [hrun] at hd
    obtain ⟨hstep, htick⟩ := step_and_tick_of_truncated hs hp hlt hd
    exact ⟨_, hstep, htick, State.raise_reports _ _ _ (by omega) s.availableAfterControl_le⟩
  · obtain ⟨-, hlen⟩ := wellFormed_lit_iff.mp hw
    refine ⟨_, rfl, ?_⟩
    rw [litToken_of_error (litError_of_short hin)]
    exact State.raise_reports _ _ _ (by omega) s.availableAfterControl_le

/-- Settles O12: at IP the decoder finds the BREF cut short, and executed it fails its first check. -/
theorem brefTruncationIsReported : Obligations.BrefTruncationIsReported := by
  refine ⟨fun s hs hp hlt hflag hin => ?_, fun s high b1 b2 hin => ?_⟩
  · obtain ⟨hstep, htick⟩ := step_and_tick_of_truncated hs hp hlt (decode_truncated_bref hlt hflag hin)
    exact ⟨_, hstep, htick, rfl, rfl, rfl, sat32_toNat _, rfl, toNat_sat32 s.availableAfterControl_le⟩
  · refine ⟨_, rfl, ?_⟩
    rw [brefToken_of_error (brefError_of_short hin)]
    exact ⟨rfl, rfl, rfl, sat32_toNat _, rfl, toNat_sat32 s.availableAfterControl_le⟩

/-- Settles O13: with the operands there, the second check of BREF is that its source index is not negative. -/
theorem brefWithoutHistoryIsReported : Obligations.BrefWithoutHistoryIsReported := by
  intro high b1 b2 s
  have hflag := matchFlag_brefControl high
  obtain ⟨-, hdist⟩ := brefDistance_bounds hflag b1
  refine ⟨brefSource_neg_iff hflag b1 s, fun hin hsrc => ⟨_, rfl, ?_⟩⟩
  rw [brefToken_of_error (brefError_of_noHistory hin hsrc), brefOffset_eq hflag, neg_neg]
  obtain ⟨hstatus, hphase, hcode, hpos, hexp, havail⟩ :=
    State.raise_reports (s.latch (brefControl high)) .invalidBackreference s.ip
      (show brefDistance (brefControl high) b1 ≤ 0xFFFFFFFF by omega)
      (Nat.le_of_lt_succ s.outLen.isLt)
  exact ⟨hstatus, hphase, hcode, hpos, congrArg Nat.cast hexp, BitVec.eq_of_toNat_eq havail⟩

/-- Settles O14: with the earlier checks passed, what remains of either token's checks is the room in OUT. -/
theorem tokenOverflowIsReported : Obligations.TokenOverflowIsReported := by
  rintro i s n hout (⟨bytes, rfl, hw, rfl, hin⟩ | ⟨high, b1, b2, rfl, rfl, hin, hsrc⟩)
  · obtain ⟨-, hlen⟩ := wellFormed_lit_iff.mp hw
    refine ⟨_, rfl, ?_⟩
    rw [litToken_of_error (litError_of_full hin hout)]
    exact State.raise_reports _ _ _ (by omega) (by omega)
  · have hflag := matchFlag_brefControl high
    obtain ⟨-, hlen⟩ := copyLength_bounds b2
    have hd : brefDistance (brefControl high) b1 ≤ s.outLen.toNat :=
      Nat.not_lt.mp (mt (brefSource_neg_iff hflag b1 s).mpr (Int.not_lt.mpr hsrc))
    refine ⟨_, rfl, ?_⟩
    rw [brefToken_of_error (brefError_of_full hflag hin hd hout)]
    exact State.raise_reports _ _ _ (by omega) (by omega)

/-! ### What a token leaves unchanged -/

/-- Settles O10: the whole LIT ends in FETCH and the failed one in HALT, so the phase tells the two apart. -/
theorem litFrame : Obligations.LitFrame := by
  rintro bytes s _ ⟨⟩
  rcases litToken_cases bytes s with ⟨_, _, e⟩ | ⟨_, _, e⟩ <;> rw [e]
  · refine ⟨fun _ => ⟨rfl, fun a ha => ?_⟩, nofun⟩
    simp only [State.endToken_readByte, State.advance_readByte, State.appendRun_readByte_output, State.latch_outLen,
      State.latch_readByte]
    rw [dif_neg (by omega)]
  · exact ⟨fun h => absurd rfl h, fun _ => rfl⟩

/-- Settles O15: as for LIT, with the copy loop in place of the run. -/
theorem brefFrame : Obligations.BrefFrame := by
  rintro high b1 b2 s _ ⟨⟩
  rcases brefToken_cases high b1 b2 s with ⟨hin, hd, hout, e⟩ | ⟨_, _, e⟩
  · refine ⟨fun _ => ⟨?_, fun a ha => ?_⟩, fun h => ?_⟩
    · rw [e, copyLoop_eq]; rfl
    · rw [brefToken_readByte_output hin hd hout, if_neg (by omega)]
    · rw [e] at h; cases h
  · rw [e]
    exact ⟨fun h => absurd rfl h, fun _ => rfl⟩

/-- A token that ends in ERROR, having begun outside it, has changed no cursor and no byte of OUT (R124). -/
theorem runToken_writes_nothing_of_error {s : State} (hlt : s.ip.toNat < s.inLen.toNat) (hs : s.status ≠ .error)
    (h : (runToken s).status = .error) :
    (runToken s).outMem = s.outMem ∧ (runToken s).outLen = s.outLen ∧ (runToken s).ip = s.ip := by
  rcases runToken_cases hlt with ⟨_, _, e⟩ | ⟨_, _, _, _, _, _, _, e⟩ | ⟨_, _, _, _, _, _, _, _, e⟩ <;> rw [e] at h ⊢
  · exact ⟨rfl, rfl, rfl⟩
  · exact absurd h hs
  · exact absurd (by simpa using h) hs

/-- The FETCH step ends in ERROR only as the whole token does. -/
theorem fetchStep_eq_runToken_of_error {s t : State} (hlt : s.ip.toNat < s.inLen.toNat) (hs : s.status ≠ .error)
    (ht : fetchStep s = .next t) (h : t.status = .error) : t = runToken s := by
  rcases fetchStep_cases hlt with ⟨_, _, e, e'⟩ | ⟨_, _, _, _, _, _, _, e⟩ | ⟨_, _, _, _, _, _, _, _, e⟩ <;>
    rw [e] at ht <;> cases ht
  · exact e'.symm
  · exact absurd h hs
  · exact absurd h hs

/-- Settles O16: at IN_LEN the command finishes, and below it either step that fails is the failed token. -/
theorem failingTokenWritesNothing : Obligations.FailingTokenWritesNothing := by
  intro s t hsched hp hs ht herr
  have hlt_run : s.ip.toNat < s.inLen.toNat ∧ t = runToken s := by
    rcases ht with ht | ht
    · rw [step_of_fetch hsched hp] at ht
      rcases fetchAndExec_inv ht with ⟨_, rfl⟩ | h
      · cases herr
      · exact h
    · rw [tick_of_fetch hp] at ht
      rcases fetchStep_inv ht with ⟨_, rfl⟩ | hlt
      · cases herr
      · exact ⟨hlt, fetchStep_eq_runToken_of_error hlt hs ht herr⟩
  obtain ⟨hlt, rfl⟩ := hlt_run
  exact runToken_writes_nothing_of_error hlt hs herr

end Sys2Proof.Machine

/-! ## DECOMPRESS and its tokens (O18 to O22) -/

namespace Sys2Proof.Machine

/-! ### The ends of the token loop -/

theorem tokenLoop_of_phase_ne_fetch {s : State} (h : s.phase ≠ .fetch) (fuel : Nat) : tokenLoop fuel s = s := by
  cases fuel with
  | zero => rfl
  | succ fuel => rw [tokenLoop, if_pos h]

theorem tokenLoop_of_end {s : State} (hp : s.phase = .fetch) (h : s.inLen.toNat ≤ s.ip.toNat) (fuel : Nat) :
    tokenLoop (fuel + 1) s = s.finish := by
  rw [tokenLoop, if_neg (not_not.mpr hp), if_pos h]

theorem tokenLoop_of_token {s : State} (hp : s.phase = .fetch) (h : s.ip.toNat < s.inLen.toNat) (fuel : Nat) :
    tokenLoop (fuel + 1) s = tokenLoop fuel (runToken s) := by
  rw [tokenLoop, if_neg (not_not.mpr hp), if_neg (Nat.not_le.mpr h)]

theorem headerStep_of_short {s : State} (h : s.inLen.toNat < 6) :
    headerStep s = State.raise { s with outLen := 0, ip := 0 } ⟨.truncatedStream, 0, 6, s.inLen.toNat⟩ := by
  rcases headerStep_cases s with ⟨_, e⟩ | ⟨h', _⟩
  · exact e
  · omega

theorem headerStep_of_whole {s : State} (h : 6 ≤ s.inLen.toNat) :
    headerStep s =
      { s with
        outLen := 0, ip := 6, phase := .fetch
        hdrTag := s.headerField 0, width := s.headerField 2, height := s.headerField 4 } := by
  rcases headerStep_cases s with ⟨h', _⟩ | ⟨_, e⟩
  · omega
  · exact e

theorem decompress_of_short {s : State} (h : s.inLen.toNat < 6) : decompress s = headerStep s := by
  rw [decompress, headerStep_of_short h]
  exact tokenLoop_of_phase_ne_fetch (by simp) _

/-- Settles O18: the HDR step raises the error, so the token loop has nothing to do. -/
theorem shortHeaderIsTruncated : Obligations.ShortHeaderIsTruncated := by
  intro s h
  refine ⟨_, rfl, ?_⟩
  rw [decompress_of_short h, headerStep_of_short h]
  exact ⟨rfl, rfl, rfl, rfl, rfl, sat32_toNat _, rfl, rfl, rfl, rfl, rfl⟩

/-- Settles O19: the header step puts IP at IN_LEN, where the first turn of the token loop finishes. -/
theorem emptyPayloadDecodesToNothing : Obligations.EmptyPayloadDecodesToNothing := by
  intro s h
  have h6 : s.inLen.toNat = 6 := congrArg BitVec.toNat h
  have e : decompress s = (headerStep s).finish := by
    rw [decompress, h6, headerStep_of_whole h6.ge]
    exact tokenLoop_of_end rfl h6.le 5
  refine ⟨_, rfl, ?_⟩
  rw [e, headerStep_of_whole h6.ge]
  exact ⟨rfl, rfl, rfl, rfl, rfl, rfl, rfl⟩

/-! ### Termination -/

/-- What holds between the tokens of a DECOMPRESS and where one of them, or the header, has failed: IP is at most
IN_LEN, and the failure is one of the command's three (40_lzss.md R114). -/
def State.DecompressRun (s : State) : Prop :=
  (s.phase = .fetch ∧ s.ip.toNat ≤ s.inLen.toNat) ∨
  (s.phase = .halt ∧ s.status = .error ∧ s.ip.toNat ≤ s.inLen.toNat ∧
    (s.errCode = 1 ∨ s.errCode = 2 ∨ s.errCode = 5))

theorem headerStep_decompressRun (s : State) : (headerStep s).DecompressRun := by
  rcases headerStep_cases s with ⟨_, e⟩ | ⟨h, e⟩ <;> rw [e]
  · exact .inr ⟨rfl, rfl, Nat.zero_le _, .inl rfl⟩
  · exact .inl ⟨rfl, h⟩

theorem runToken_decompressRun {s : State} (hlt : s.ip.toNat < s.inLen.toNat) : (runToken s).DecompressRun := by
  rcases runToken_progress hlt with ⟨hp, hs, hip⟩ | ⟨hp, _, _, hle⟩
  · refine .inr ⟨hp, hs, by rw [hip, runToken_inLen hlt]; omega, ?_⟩
    rcases runToken_cases hlt with ⟨_, hk | hk | hk, e⟩ | ⟨_, _, _, _, _, _, _, e⟩ | ⟨_, _, _, _, _, _, _, _, e⟩ <;>
      rw [e] at hp ⊢
    · exact .inl (congrArg ErrorKind.code hk)
    · exact .inr (.inl (congrArg ErrorKind.code hk))
    · exact .inr (.inr (congrArg ErrorKind.code hk))
    · cases hp
    · cases hp
  · exact .inl ⟨hp, by rwa [runToken_inLen hlt]⟩

/-- Settles O20: the loop ends at IN_LEN or at a failure, since every token keeps `State.DecompressRun`. -/
theorem decompressAlwaysEnds : Obligations.DecompressAlwaysEnds := by
  intro s
  refine ⟨_, rfl, ?_⟩
  have hlen := decompress_inLen s
  obtain ⟨t, ht, ⟨hp, hend, e⟩ | ⟨hp, e⟩⟩ := decompress_rule State.DecompressRun
    (fun _ _ _ hlt => runToken_decompressRun hlt) s (headerStep_decompressRun s)
  · rw [e] at hlen ⊢
    rcases ht with ⟨_, hle⟩ | ⟨hhalt, _⟩
    · have hip : t.ip = t.inLen := BitVec.eq_of_toNat_eq (Nat.le_antisymm hle hend)
      exact ⟨rfl, hlen, .inl ⟨rfl, hip.trans hlen⟩⟩
    · rw [hp] at hhalt; cases hhalt
  · rw [e] at hlen ⊢
    rcases ht with ⟨hfetch, _⟩ | ⟨hhalt, hs, hle, hcode⟩
    · exact absurd hfetch hp
    · exact ⟨hhalt, hlen, .inr ⟨hs, hlen ▸ hle, hcode⟩⟩

/-! ### Bytes that stand in a memory -/

/-- The bytes stand in a memory from an index on. -/
def State.BytesAt (s : State) (sp : Space) (a : Nat) (bytes : List Byte) : Prop :=
  ∀ k (h : k < bytes.length), s.readByte sp (a + k) = bytes[k]

theorem State.bytesAt_append {s : State} {sp : Space} {a : Nat} {xs ys : List Byte} :
    s.BytesAt sp a (xs ++ ys) ↔ s.BytesAt sp a xs ∧ s.BytesAt sp (a + xs.length) ys := by
  refine ⟨fun h => ⟨fun k hk => ?_, fun k hk => ?_⟩, fun ⟨hx, hy⟩ k hk => ?_⟩
  · rw [h k (by simp; omega), List.getElem_append_left hk]
  · rw [Nat.add_assoc, h (xs.length + k) (by simp; omega), List.getElem_append_right (by omega)]
    simp
  · rcases Nat.lt_or_ge k xs.length with hlt | hge
    · rw [hx k hlt, List.getElem_append_left hlt]
    · rw [List.getElem_append_right hge, ← hy (k - xs.length) (by simp at hk; omega)]
      congr 1; omega

theorem State.BytesAt.congr {s t : State} {sp : Space} {a : Nat} {bytes : List Byte} (h : s.BytesAt sp a bytes)
    (hread : ∀ k, k < bytes.length → t.readByte sp (a + k) = s.readByte sp (a + k)) : t.BytesAt sp a bytes :=
  fun k hk => (hread k hk).trans (h k hk)

/-! ### Tokens in order -/

/-- A token is decoded below IN_LEN only. -/
theorem lt_of_decodeToken_eq_token {s : State} {i : Instr} {rest : List Byte}
    (hd : decodeToken s.tokenWindow = .token i rest) : s.ip.toNat < s.inLen.toNat := by
  by_contra h
  cases hd.symm.trans (decodeToken_tokenWindow_of_le (Nat.not_lt.mp h))

/-- A token that does not fail moves IP on by its length (40_lzss.md R115, R118). -/
theorem runToken_ip_of_token {s : State} {i : Instr} {rest : List Byte} (hd : decodeToken s.tokenWindow = .token i rest)
    (h : (runToken s).phase ≠ .halt) : (runToken s).ip.toNat = s.ip.toNat + (tokenBytes i).length := by
  have hil := s.inLen.isLt
  rcases runToken_cases (lt_of_decodeToken_eq_token hd) with ⟨_, _, e⟩ | ⟨bytes, _, hd', _, _, hfit, _, e⟩ |
    ⟨high, b1, b2, _, hd', hfit, _, _, e⟩
  · rw [e] at h
    exact absurd rfl h
  · cases hd.symm.trans hd'
    have hip : (s.ip + BitVec.ofNat 32 (1 + bytes.length)).toNat = s.ip.toNat + (1 + bytes.length) :=
      toNat_add_ofNat (by omega)
    rw [e, Nat.add_comm 1] at *
    exact hip
  · cases hd.symm.trans hd'
    have hip : (s.ip + BitVec.ofNat 32 3).toNat = s.ip.toNat + 3 := toNat_add_ofNat (by omega)
    simp only [e, State.endToken_ip, State.setSrc_ip, State.advance_ip, copyLoop_ip, State.latch_ip]
    exact hip

/-- No token writes IN (20_memory.md R83). -/
theorem runToken_readByte_input {s : State} (h : s.ip.toNat < s.inLen.toNat) (a : Nat) :
    (runToken s).readByte .input a = s.readByte .input a := by
  obtain ⟨⟨hmem, _, hepoch⟩, _⟩ := State.inputAndRaster_eq.mp (runToken_inputAndRaster h)
  exact State.readByte_congr (sp := .input) hmem hepoch a

/-- The token loop is the loop over tokens already decoded, where their encodings stand from IP to IN_LEN. -/
theorem execTokens_eq_tokenLoop {tokens : List Instr} {s : State} {fuel : Nat}
    (hwf : ∀ i ∈ tokens, WellFormed i ∧ ∃ bytes, encode i = .token bytes) (hp : s.phase = .fetch)
    (hlen : s.inLen.toNat = s.ip.toNat + (tokens.flatMap tokenBytes).length)
    (hin : s.BytesAt .input s.ip.toNat (tokens.flatMap tokenBytes)) (hfuel : s.inLen.toNat - s.ip.toNat < fuel) :
    execTokens tokens s = .next (tokenLoop fuel s) := by
  induction tokens generalizing s fuel with
  | nil =>
    obtain ⟨fuel, rfl⟩ := Nat.exists_eq_add_one_of_ne_zero (Nat.ne_zero_of_lt hfuel)
    rw [tokenLoop_of_end hp hlen.le, execTokens]
  | cons i tokens ih =>
    obtain ⟨fuel, rfl⟩ := Nat.exists_eq_add_one_of_ne_zero (Nat.ne_zero_of_lt hfuel)
    obtain ⟨hw, bytes, hb⟩ := hwf i List.mem_cons_self
    have hbytes : tokenBytes i = bytes := by rw [tokenBytes, hb]
    rw [List.flatMap_cons, List.length_append] at hlen
    obtain ⟨hi, hrest⟩ := State.bytesAt_append.mp (List.flatMap_cons ▸ hin)
    obtain ⟨rest, hd⟩ := decodeToken_tokenWindow hw hb (by rw [← hbytes]; omega) (hbytes ▸ hi)
    have hlt := lt_of_decodeToken_eq_token hd
    rw [tokenLoop_of_token hp hlt, execTokens, exec_of_token hb, ← runToken_of_token hd]
    by_cases hhalt : (runToken s).phase = .halt
    · rw [tokenLoop_of_phase_ne_fetch (by simp [hhalt])]
      simp [hhalt]
    · have hip := runToken_ip_of_token hd hhalt
      rcases runToken_progress hlt with ⟨h, _⟩ | ⟨hp', _, hmin, _⟩
      · exact absurd h hhalt
      · simp only [hhalt, if_false]
        refine ih (fun j hj => hwf j (List.mem_cons_of_mem i hj)) hp' ?_ ?_ ?_
        · rw [runToken_inLen hlt]; omega
        · rw [hip]
          exact hrest.congr fun k _ => runToken_readByte_input hlt _
        · rw [runToken_inLen hlt]; omega

/-- DECOMPRESS of a whole header and a list of tokens that fills the payload. -/
theorem decompress_eq_execTokens {s : State} {tokens : List Instr}
    (hwf : ∀ i ∈ tokens, WellFormed i ∧ ∃ bytes, encode i = .token bytes)
    (hlen : s.inLen.toNat = 6 + (tokens.flatMap tokenBytes).length)
    (hin : s.BytesAt .input 6 (tokens.flatMap tokenBytes)) :
    execTokens tokens (headerStep s) = .next (decompress s) := by
  have h6 : 6 ≤ s.inLen.toNat := by omega
  rw [decompress, headerStep_of_whole h6]
  exact execTokens_eq_tokenLoop hwf rfl hlen hin (Nat.sub_lt (Nat.zero_lt_of_lt h6) (Nat.succ_pos 5))

/-- Settles O21: each turn of the token loop decodes the token whose encoding stands at IP. -/
theorem decompressRunsItsTokensInOrder : Obligations.DecompressRunsItsTokensInOrder :=
  fun _ _ hwf hlen hin => (decompress_eq_execTokens hwf hlen hin).symm

/-! ### A payload of literal runs -/

/-- LIT tokens whose bytes are there and fit in OUT append their runs, one after the other, to what was produced. -/
theorem execTokens_lit {runs : List (List Byte)} {s : State} {out : List Byte}
    (hwf : ∀ run ∈ runs, 1 ≤ run.length ∧ run.length ≤ 128)
    (hlen : s.inLen.toNat = s.ip.toNat + (runs.flatMap asmLit).length)
    (hfit : (out ++ runs.flatten).length ≤ s.outCap.toNat) (hout : s.outLen.toNat = out.length)
    (hbytes : s.BytesAt .output 0 out) :
    ∃ t, execTokens (runs.map .lit) s = .next t ∧ t.status = .done ∧
      t.outLen.toNat = (out ++ runs.flatten).length ∧ t.BytesAt .output 0 (out ++ runs.flatten) := by
  induction runs generalizing s out with
  | nil => exact ⟨s.finish, rfl, rfl, by simpa using hout, by simpa [State.BytesAt] using hbytes⟩
  | cons run runs ih =>
    simp only [List.flatMap_cons, asmLit, List.length_append, List.length_cons] at hlen
    rw [List.flatten_cons, ← List.append_assoc] at hfit ⊢
    have hroom : s.outLen.toNat + run.length ≤ s.outCap.toNat := by
      simp only [List.length_append] at hfit
      omega
    obtain ⟨t, ht, hip, hlen', hphase, _, hnew⟩ := litAppendsItsBytes run s
      (wellFormed_lit_iff.mpr (hwf run List.mem_cons_self)) (by omega) hroom
    obtain ⟨hframe, hold⟩ := (litFrame run s t ht).1 (by simp [hphase])
    have hinLen : t.inLen = s.inLen := by rw [hframe]
    have houtCap : t.outCap = s.outCap := by rw [hframe]
    obtain ⟨u, hu, h⟩ := ih (s := t) (out := out ++ run) (fun r hr => hwf r (List.mem_cons_of_mem run hr))
      (by rw [hinLen]; omega) (by rwa [houtCap]) (by rw [hlen', hout, List.length_append])
      (State.bytesAt_append.mpr ⟨hbytes.congr fun k hk => hold _ (by omega), fun k hk => by
        rw [Nat.zero_add, ← hout]; exact hnew k hk⟩)
    exact ⟨u, by simpa [execTokens, ht, hphase] using hu, h⟩

theorem flatMap_tokenBytes_lit (runs : List (List Byte)) :
    (runs.map Instr.lit).flatMap tokenBytes = runs.flatMap asmLit :=
  List.flatMap_map ..

/-- Settles O22: the runs are appended to an empty buffer, and a DECOMPRESS that is DONE has IP = IN_LEN. -/
theorem literalOnlyLaw : Obligations.LiteralOnlyLaw := by
  intro s runs hwf hlen hin hfit
  have hheader := headerStep_of_whole (s := s) (by omega)
  have htokens : ∀ i ∈ runs.map Instr.lit, WellFormed i ∧ ∃ bytes, encode i = .token bytes := by
    intro i hi
    obtain ⟨run, hrun, rfl⟩ := List.mem_map.mp hi
    exact ⟨wellFormed_lit_iff.mpr (hwf run hrun), _, rfl⟩
  have hrun := decompress_eq_execTokens htokens (by rwa [flatMap_tokenBytes_lit]) (by rwa [flatMap_tokenBytes_lit])
  obtain ⟨t, ht, hdone, houtLen, hbytes⟩ := execTokens_lit (s := headerStep s) (out := []) hwf
    (by rw [hheader]; exact hlen) (by rw [hheader]; exact hfit) (by rw [hheader]; rfl) nofun
  obtain rfl := Host.Outcome.next.inj (hrun.symm.trans ht)
  obtain ⟨_, ⟨⟩, hhalt, _, ⟨_, hip⟩ | ⟨herr, _⟩⟩ := decompressAlwaysEnds s
  · exact ⟨_, rfl, hdone, hhalt, hip, houtLen, fun k hk => by simpa using hbytes k hk⟩
  · rw [hdone] at herr; cases herr

end Sys2Proof.Machine

/-! ## Tokens and DECOMPRESS as atomic steps (O25, O26, O28) -/

namespace Sys2Proof.Machine

/-! ### Runs of atomic steps -/

/-- n atomic steps lead from s to t, and no state before t is in HALT. -/
def RunsTo (n : Nat) (s t : State) : Prop :=
  ticks n s = .next t ∧ ∀ m, m < n → ∃ u, ticks m s = .next u ∧ u.phase ≠ .halt

theorem RunsTo.single {s t : State} (hp : s.phase ≠ .halt) (h : tick s = .next t) : RunsTo 1 s t := by
  refine ⟨by rw [ticks_succ h, ticks], fun m hm => ?_⟩
  obtain rfl := Nat.lt_one_iff.mp hm
  exact ⟨s, rfl, hp⟩

theorem RunsTo.trans {n m : Nat} {s t u : State} (h : RunsTo n s t) (h' : RunsTo m t u) : RunsTo (n + m) s u := by
  obtain ⟨hst, hbefore⟩ := h
  obtain ⟨htu, hafter⟩ := h'
  refine ⟨by rw [ticks_add n m hst, htu], fun k hk => ?_⟩
  rcases Nat.lt_or_ge k n with hlt | hge
  · exact hbefore k hlt
  · obtain ⟨j, rfl⟩ := Nat.exists_eq_add_of_le hge
    rw [ticks_add n j hst]
    exact hafter j (by omega)

/-! ### One token -/

/-- The copy phase of a LIT leaves what the whole token leaves (40_lzss.md R127, R115). -/
theorem runsTo_of_litcopy {bytes : List Byte} {s : State} (h1 : 1 ≤ bytes.length) (h2 : bytes.length ≤ 128)
    (hip : s.ip.toNat + 1 + bytes.length < 2 ^ 32) (hout : s.outLen.toNat + bytes.length < 2 ^ 32)
    (hin : s.BytesAt .input (s.ip.toNat + 1) bytes) :
    RunsTo bytes.length ((s.advance 1).beginCopy bytes.length .litcopy)
      ((s.appendRun bytes).advance (1 + bytes.length)).endToken := by
  have hip1 : (s.ip + BitVec.ofNat 32 1).toNat = s.ip.toNat + 1 := toNat_add_ofNat (by omega)
  have hsum : s.ip + BitVec.ofNat 32 (1 + bytes.length) =
      s.ip + BitVec.ofNat 32 1 + BitVec.ofNat 32 bytes.length := by
    rw [BitVec.ofNat_add, BitVec.add_assoc]
  have e : ((s.appendRun bytes).advance (1 + bytes.length)).endToken =
      ((((s.advance 1).beginCopy bytes.length .litcopy).appendRun bytes).advance bytes.length).endToken := by
    simp only [State.advance, State.appendRun, State.beginCopy, State.endToken, hsum]
  rw [e]
  refine ticks_litcopy bytes _ h1 h2 rfl rfl hout ?_ fun k hk => ?_
  · rw [State.beginCopy_ip, State.advance_ip, hip1]; exact hip
  · rw [State.beginCopy_ip, State.advance_ip, hip1, State.beginCopy_readByte, State.advance_readByte]
    exact hin k hk

/-- The copy phase of a BREF leaves what the whole token leaves (R128, R118). -/
theorem runsTo_of_refcopy {n src : Nat} {s : State} (h1 : 1 ≤ n) (h2 : n ≤ 256) (hsrc : src + n < 2 ^ 32) :
    RunsTo n (((s.advance 3).setSrc src).beginCopy n .refcopy)
      (((copyLoop n src s).advance 3).setSrc (src + n)).endToken := by
  have hloop : copyLoop n src (((s.advance 3).setSrc src).beginCopy n .refcopy) =
      (((copyLoop n src s).advance 3).setSrc src).beginCopy n .refcopy := by
    refine (copyLoop_with n src s .refcopy (BitVec.ofNat 9 n) (s.ip + 3#32) (BitVec.ofNat 32 src)).trans ?_
    simp only [State.beginCopy, State.setSrc, State.advance, copyLoop_ip]
  have e : (((copyLoop n src s).advance 3).setSrc (src + n)).endToken =
      ((copyLoop n src (((s.advance 3).setSrc src).beginCopy n .refcopy)).setSrc (src + n)).endToken := by
    rw [hloop]; rfl
  rw [e]
  exact ticks_refcopy n src _ h1 h2 rfl rfl hsrc rfl

/-- The bytes of a decoded LIT stand after its control byte. -/
theorem bytesAt_of_decodeToken_lit {s : State} {bytes rest : List Byte}
    (hd : decodeToken s.tokenWindow = .token (.lit bytes) rest) : s.BytesAt .input (s.ip.toNat + 1) bytes := by
  rcases decode_token_at hd with ⟨_, e, _, _, _, _, hb⟩ | ⟨_, _, _, e, _⟩ <;> cases e
  exact hb

/-- The atomic steps of the token at IP leave what the whole token leaves: the FETCH step alone where the token fails,
and else the FETCH step and one step for each byte it appends (R129). -/
theorem runsTo_runToken {s : State} (hp : s.phase = .fetch) (hlt : s.ip.toNat < s.inLen.toNat) :
    ∃ n, 1 ≤ n ∧ n ≤ 257 ∧ ((runToken s).phase = .halt → n = 1) ∧ RunsTo n s (runToken s) := by
  have hil := s.inLen.isLt
  have hoc := s.outCap.isLt
  have hfetch : ∀ {t}, fetchStep s = .next t → RunsTo 1 s t :=
    fun h => .single (by simp [hp]) ((tick_of_fetch hp).trans h)
  rcases fetchStep_cases hlt with ⟨_, _, e, e'⟩ | ⟨bytes, _, hd, h1, h2, hfit, hout, e⟩ |
    ⟨high, b1, b2, _, hd, _, hdist, hout, e⟩
  · exact ⟨1, le_rfl, by decide, fun _ => rfl, e' ▸ hfetch e⟩
  · have hrun : runToken s =
        (((s.latch (litControl bytes.length)).appendRun bytes).advance (1 + bytes.length)).endToken := by
      rw [runToken_of_token hd]
      exact litToken_of_fits (by rw [State.availableAfterControl]; omega) hout
    have hbytes := bytesAt_of_decodeToken_lit hd
    rw [hrun]
    exact ⟨1 + bytes.length, by omega, by omega, nofun, (hfetch e).trans
      (runsTo_of_litcopy h1 h2 (Nat.lt_of_le_of_lt hfit hil) (Nat.lt_of_le_of_lt hout hoc) hbytes)⟩
  · obtain ⟨hn1, hn2⟩ := copyLength_bounds b2
    have hrun := runToken_of_token hd
    rw [tokenEffect, brefToken_of_fits (by rw [State.availableAfterControl]; omega) hdist hout] at hrun
    rw [hrun]
    exact ⟨1 + copyLength b2, by omega, by omega, nofun, (hfetch e).trans (runsTo_of_refcopy hn1 hn2 (by omega))⟩

/-- Settles O25: the whole token is `runToken`, to which the atomic steps lead. -/
theorem tokenEqualsItsAtomicSteps : Obligations.TokenEqualsItsAtomicSteps := by
  intro s i rest hp hd
  obtain ⟨n, h1, h2, _, hticks, _⟩ := runsTo_runToken hp (lt_of_decodeToken_eq_token hd)
  refine ⟨n, h1, h2, hticks.trans ?_⟩
  rw [runToken_of_token hd]
  rcases cases_of_decodeToken_eq_token hd with ⟨_, rfl, _⟩ | ⟨_, _, _, rfl, _⟩ <;> rfl

/-! ### The command -/

/-- The atomic steps from a token boundary to HALT leave what the token loop leaves. A token that takes 257 steps takes
at least 2 bytes of input, and a failing token, which may have 1 byte, takes one step (R130). -/
theorem runsTo_tokenLoop {fuel : Nat} {s : State} (hp : s.phase = .fetch) (hle : s.ip.toNat ≤ s.inLen.toNat)
    (hfuel : s.inLen.toNat - s.ip.toNat < fuel) :
    ∃ n, n ≤ 1 + (s.inLen.toNat - s.ip.toNat) / 2 * 257 ∧ RunsTo n s (tokenLoop fuel s) := by
  induction fuel generalizing s with
  | zero => omega
  | succ fuel ih =>
    rcases hle.eq_or_lt with heq | hlt
    · rw [tokenLoop_of_end hp heq.ge]
      exact ⟨1, Nat.le_add_right .., .single (by simp [hp]) (by rw [tick_of_fetch hp, fetchStep, if_pos heq])⟩
    · obtain ⟨n, _, hn, hhalt, hrun⟩ := runsTo_runToken hp hlt
      rw [tokenLoop_of_token hp hlt]
      rcases runToken_progress hlt with ⟨hphase, _⟩ | ⟨hphase, _, hmin, hmax⟩
      · rw [tokenLoop_of_phase_ne_fetch (by simp [hphase])]
        exact ⟨n, (hhalt hphase).le.trans (Nat.le_add_right ..), hrun⟩
      · have hinLen := runToken_inLen hlt
        obtain ⟨m, hm, hrest⟩ := ih hphase (by rwa [hinLen]) (by rw [hinLen]; omega)
        rw [hinLen] at hm
        exact ⟨n + m, by omega, hrun.trans hrest⟩

/-- Settles O26: the HDR step, then the steps of the tokens where the header is whole. -/
theorem decompressEqualsItsAtomicSteps : Obligations.DecompressEqualsItsAtomicSteps := by
  intro s hp
  have hheader : RunsTo 1 s (headerStep s) := .single (by simp [hp]) (tick_of_hdr hp)
  obtain ⟨_, ⟨⟩, hhalt, _⟩ := decompressAlwaysEnds s
  have hrun : ∃ n, n ≤ 2 + (s.inLen.toNat - 6) / 2 * 257 ∧ RunsTo n s (decompress s) := by
    rcases Nat.lt_or_ge s.inLen.toNat 6 with hlt | hge
    · exact ⟨1, by omega, decompress_of_short hlt ▸ hheader⟩
    · have e := headerStep_of_whole hge
      obtain ⟨n, hn, htokens⟩ := runsTo_tokenLoop (fuel := s.inLen.toNat) (s := headerStep s) (by rw [e])
        (by rw [e]; exact hge) (by rw [e]; exact Nat.sub_lt (Nat.zero_lt_of_lt hge) (Nat.succ_pos 5))
      have hn' : n ≤ 1 + (s.inLen.toNat - 6) / 2 * 257 := by rw [e] at hn; exact hn
      exact ⟨1 + n, by omega, hheader.trans htokens⟩
  obtain ⟨n, hn, hticks, hbefore⟩ := hrun
  exact ⟨n, _, hn, hticks, rfl, hhalt, hbefore⟩

/-! ### The step -/

theorem fetchAndExec_of_token {s : State} {i : Instr} {rest : List Byte}
    (hd : decodeToken s.tokenWindow = .token i rest) : fetchAndExec s = exec i s := by
  rw [fetchAndExec, if_neg (lt_of_decodeToken_eq_token hd).ne, hd]

/-- Settles O28: with no move to come the step is `runInstr`, which each phase takes to its instruction. -/
theorem stepRunsTheDecodedInstruction : Obligations.StepRunsTheDecodedInstruction := by
  intro s hs
  rw [step_of_sched_nil hs]
  refine ⟨fun i bytes hp hw he hfit hb => ?_, fun hp hend => ?_, fun hp => ?_, fun hp => ?_, fun hp => ?_⟩
  · obtain ⟨rest, hd⟩ := decodeToken_tokenWindow hw he hfit hb
    rw [runInstr, hp]
    exact fetchAndExec_of_token hd
  · rw [runInstr, hp]
    exact if_pos (congrArg BitVec.toNat hend)
  · rw [runInstr, hp]
  · rw [runInstr, hp, tick, hp]
  · rw [runInstr, hp, tick, hp]

end Sys2Proof.Machine

/-! ## RECONSTRUCT (O31 to O35) -/

namespace Sys2Proof.Machine

/-! ### The colour index -/

/-- The mask of a pixel picks one bit of its byte (41_reconstruct.md R158). -/
theorem and_pixelMask_ne_zero (b : Byte) {n : Nat} (h : n < 8) :
    decide (b &&& 0x80#8 >>> n ≠ 0#8) = b.getLsbD (7 - n) := by
  have hmask : ∀ n < 8, 0x80#8 >>> n = BitVec.twoPow 8 (7 - n) ∧ BitVec.twoPow 8 (7 - n) ≠ 0#8 := by decide
  obtain ⟨hpow, hne⟩ := hmask n h
  rw [hpow, BitVec.and_twoPow]
  cases b.getLsbD (7 - n) <;> simp [hne]

theorem State.planeBit_eq_getLsbD (s : State) (k x y : Nat) :
    s.planeBit k x y =
      (s.readByte .output (k * s.planeLength + (x / 8 + y * s.widthBytes))).getLsbD (7 - x % 8) :=
  and_pixelMask_ne_zero _ (Nat.mod_lt x (by decide))

/-- Plane k supplies bit k of the colour index (R159). -/
theorem State.colourIndex_getLsbD (s : State) (x y : Nat) {k : Nat} (hk : k < 4) :
    (s.colourIndex x y).getLsbD k = s.planeBit k x y := by
  have hcases : k = 0 ∨ k = 1 ∨ k = 2 ∨ k = 3 := by omega
  simp only [State.colourIndex, BitVec.getLsbD_append, BitVec.getLsbD_ofBool]
  rcases hcases with rfl | rfl | rfl | rfl <;> simp

/-- Settles O31: a bit of the index is its plane's bit, which the pixel's mask picks from the byte. -/
theorem colourIndexSlicesThePlanes : Obligations.ColourIndexSlicesThePlanes := fun s x y _ hk =>
  (s.colourIndex_getLsbD x y hk).trans (s.planeBit_eq_getLsbD _ x y)

/-! ### The three checks, and what RECONSTRUCT answers for each -/

theorem exec_reconstruct_of_eq {s t : State} (h : reconstruct s = t) : exec .reconstruct s = .next t :=
  congrArg Host.Outcome.next h

theorem reconstruct_of_error {s : State} {e : ErrorReport} (h : reconstructError s = some e) :
    reconstruct s = s.raise e := by rw [reconstruct, h]

theorem reconstruct_of_unknownPalette {s : State} (hpal : 2 ≤ s.palSel.toNat) :
    reconstruct s = s.raise ⟨.unknownPalette, 0, 2, s.palSel.toNat⟩ :=
  reconstruct_of_error (by simp [reconstructError, paletteError, hpal])

theorem reconstruct_of_malformed {s : State} (hpal : s.palSel.toNat < 2) (hlen : s.outLen.toNat ≠ s.expectedLen) :
    reconstruct s = s.raise ⟨.malformedPlanarImage, 0, s.expectedLen, s.outLen.toNat⟩ :=
  reconstruct_of_error (by simp [reconstructError, paletteError, hpal.not_ge, hlen])

theorem reconstruct_of_overflow {s : State} (hpal : s.palSel.toNat < 2) (hlen : s.outLen.toNat = s.expectedLen)
    (hcap : s.rasterCap.toNat < s.imageLength) :
    reconstruct s = s.raise ⟨.outputOverflow, 0, s.imageLength, s.rasterCap.toNat⟩ :=
  reconstruct_of_error (by simp [reconstructError, paletteError, hpal.not_ge, hlen, hcap])

theorem reconstruct_of_pass {s : State} (h : reconstructError s = none) :
    reconstruct s = State.finish { s with rasterMem := s.writeImage } := by rw [reconstruct, h]

theorem reconstructError_eq_none {s : State} (hpal : s.palSel.toNat < 2) (hlen : s.outLen.toNat = s.expectedLen)
    (hcap : s.imageLength ≤ s.rasterCap.toNat) : reconstructError s = none := by
  simp [reconstructError, paletteError, hpal.not_ge, hlen, hcap.not_gt]

theorem toNat_sat32_eq_min (n : Nat) : (sat32 n).toNat = min n 0xFFFFFFFF := by
  simp only [sat32, BitVec.toNat_ofNat]; omega

/-- Settles O33: each check's own equation gives the error's context; only the raster's size can need saturation. -/
theorem reconstructChecksInOrder : Obligations.ReconstructChecksInOrder := by
  refine fun s => ⟨fun hpal => ⟨_, rfl, ?_⟩, fun hpal hlen => ⟨_, rfl, ?_⟩, fun hpal hlen hcap => ⟨_, rfl, ?_⟩⟩
  · have hsel : s.palSel.toNat ≤ 0xFFFFFFFF := s.palSel.isLt.le.trans (by decide)
    rw [reconstruct_of_unknownPalette hpal]
    exact ⟨rfl, rfl, rfl, rfl, toNat_sat32 hsel, rfl⟩
  · rw [reconstruct_of_malformed hpal hlen]
    exact ⟨rfl, rfl, rfl, toNat_sat32 (s.expectedLen_le.trans (by decide)), sat32_toNat _, rfl⟩
  · rw [reconstruct_of_overflow hpal hlen hcap]
    exact ⟨rfl, rfl, rfl, toNat_sat32_eq_min _, sat32_toNat _, rfl⟩

/-! ### The pixels -/

/-- A pixel is transparent exactly when TRANSP is enabled and holds its index as a number (R160). -/
theorem State.transparent_iff {s : State} {x y : Nat} :
    (s.transpEnabled = true ∧ (s.colourIndex x y).setWidth 8 = s.transpIndex) ↔
      s.transp.getLsbD 8 = true ∧ (s.colourIndex x y).toNat = (s.transp.extractLsb' 0 8).toNat := by
  rw [← BitVec.toNat_inj, BitVec.toNat_setWidth_of_le (by decide)]
  rfl

theorem State.pixel_of_transparent {s : State} {x y : Nat}
    (h : s.transp.getLsbD 8 = true ∧ (s.colourIndex x y).toNat = (s.transp.extractLsb' 0 8).toNat) :
    s.pixel x y = [0#8, 0#8, 0#8, 0#8] := by rw [State.pixel, if_pos (State.transparent_iff.mpr h)]

theorem State.pixel_of_opaque {s : State} {x y : Nat}
    (h : ¬(s.transp.getLsbD 8 = true ∧ (s.colourIndex x y).toNat = (s.transp.extractLsb' 0 8).toNat)) :
    s.pixel x y = [(s.pal s.palSel (s.colourIndex x y)).r, (s.pal s.palSel (s.colourIndex x y)).g,
      (s.pal s.palSel (s.colourIndex x y)).b, 255#8] := by
  rw [State.pixel, if_neg (mt State.transparent_iff.mp h)]

/-- A byte of the written image: raster row Y holds the pixels of source row Y / 2 (R162, R163). -/
theorem State.read?_writeImage_pixelAddress (s : State) {X Y j : Nat} (hX : X < s.rasterW) (hY : Y < s.rasterH)
    (hj : j < 4) :
    s.writeImage.read? (s.pixelAddress X Y + j) = some ((s.pixel X (Y / 2))[j]'(by simpa using hj)) := by
  rw [State.writeImage, s.read?_writeRows X Y j hX hj, if_pos (show Y < 2 * s.height.toNat from hY)]

/-- The four bytes of a raster pixel, in the order R, G, B, A. -/
theorem State.read?_writeImage_of_pixel {s : State} {X Y : Nat} {r g b a : Byte} (hX : X < s.rasterW)
    (hY : Y < s.rasterH) (h : s.pixel X (Y / 2) = [r, g, b, a]) :
    s.writeImage.read? (s.pixelAddress X Y) = some r ∧ s.writeImage.read? (s.pixelAddress X Y + 1) = some g ∧
      s.writeImage.read? (s.pixelAddress X Y + 2) = some b ∧
      s.writeImage.read? (s.pixelAddress X Y + 3) = some a := by
  have hbyte {j : Nat} (hj : j < 4) := s.read?_writeImage_pixelAddress hX hY hj
  simp only [h] at hbyte
  exact ⟨hbyte (j := 0) (by decide), hbyte (j := 1) (by decide), hbyte (j := 2) (by decide),
    hbyte (j := 3) (by decide)⟩

/-- Settles O32: each raster pixel holds the pixel of its source row, transparent or opaque. -/
theorem reconstructWritesEveryPixel : Obligations.ReconstructWritesEveryPixel := by
  intro s hpal hlen hcap
  refine ⟨_, exec_reconstruct_of_eq (reconstruct_of_pass (reconstructError_eq_none hpal hlen hcap)), rfl, rfl,
    fun X Y hX hY => ?_⟩
  intro base idx p
  split
  next h => exact State.read?_writeImage_of_pixel hX hY (State.pixel_of_transparent h)
  next h => exact State.read?_writeImage_of_pixel hX hY (State.pixel_of_opaque h)

/-! ### What RECONSTRUCT leaves unchanged -/

/-- The checks read no field that RECONSTRUCT writes. -/
theorem reconstructError_reconstruct (s : State) : reconstructError (reconstruct s) = reconstructError s := by
  cases h : reconstructError s with
  | some e => rw [reconstruct_of_error h]; exact h
  | none => rw [reconstruct_of_pass h]; exact h

/-- Writing the image over itself changes no byte, since no pixel is read from RASTER. -/
theorem State.read?_writeImage_again (s : State) (a : Nat) :
    (State.writeImage { s with rasterMem := s.writeImage }).read? a = s.writeImage.read? a := by
  rcases Nat.lt_or_ge a s.imageLength with hlt | hge
  · obtain ⟨X, Y, j, hX, hY, hj, rfl⟩ := s.exists_pixelAddress hlt
    rw [s.read?_writeImage_pixelAddress hX hY hj]
    exact State.read?_writeImage_pixelAddress { s with rasterMem := s.writeImage } hX hY hj
  · exact State.read?_writeImage_of_le _ a hge

/-- RECONSTRUCT run twice leaves the RASTER of one run (R167): the checks answer alike, and an image is written over
itself. -/
theorem read?_reconstruct_reconstruct (s : State) (a : Nat) :
    (reconstruct (reconstruct s)).rasterMem.read? a = (reconstruct s).rasterMem.read? a := by
  have hagain := reconstructError_reconstruct s
  cases h : reconstructError s with
  | some e => rw [reconstruct_of_error (hagain.trans h)]; rfl
  | none =>
    rw [reconstruct_of_pass (hagain.trans h), reconstruct_of_pass h]
    exact s.read?_writeImage_again a

/-- Settles O34: by what the checks answer, since a failed one raises its error and nothing else, and where all pass
the image is written and the command finishes. -/
theorem reconstructFrame : Obligations.ReconstructFrame := by
  rintro s _ ⟨⟩
  have htwice := read?_reconstruct_reconstruct s
  cases h : reconstructError s with
  | some e =>
    rw [reconstruct_of_error h] at htwice ⊢
    exact ⟨rfl, nofun, fun _ => rfl, fun _ _ => rfl, _, rfl, htwice⟩
  | none =>
    rw [reconstruct_of_pass h] at htwice ⊢
    exact ⟨rfl, fun _ => ⟨rfl, rfl, rfl, rfl⟩, nofun, s.read?_writeImage_of_le, _, rfl, htwice⟩

/-! ### Images without pixels -/

theorem State.writeImage_of_imageLength_eq_zero {s : State} (h : s.imageLength = 0) : s.writeImage = s.rasterMem := by
  refine s.writeImage_rule (· = s.rasterMem) rfl fun m x y hx hy _ => ?_
  have := s.pixelAddress_lt hx (Y := y) (by simp only [State.rasterH]; omega)
  omega

theorem State.rasterW_of_width_eq_zero {s : State} (h : s.width = 0) : s.rasterW = 0 := by
  simp [State.rasterW, State.widthBytes, h]

theorem State.rasterH_of_height_eq_zero {s : State} (h : s.height = 0) : s.rasterH = 0 := by
  simp [State.rasterH, h]

/-- An image without width or height has no plane byte and no raster byte (R169). -/
theorem State.lengths_of_zeroSize {s : State} (h : s.width = 0 ∨ s.height = 0) :
    s.expectedLen = 0 ∧ s.imageLength = 0 := by
  rcases h with h | h
  · simp [State.imageLength, State.expectedLen, State.planeLength, State.rasterW, State.widthBytes, h]
  · simp [State.imageLength, State.expectedLen, State.planeLength, State.rasterH, h]

/-- Settles O35: the buffer has to be as long as the image, which is empty, and writing it writes no byte. -/
theorem zeroSizeImageWritesNothing : Obligations.ZeroSizeImageWritesNothing := by
  intro s hzero
  obtain ⟨hexp, himg⟩ := State.lengths_of_zeroSize hzero
  refine ⟨State.rasterW_of_width_eq_zero, State.rasterH_of_height_eq_zero, fun hpal hlen => ?_, fun hpal hlen => ?_,
    fun hpal => ?_⟩
  · have hpass := reconstructError_eq_none hpal (by rw [hlen, hexp]; rfl) (himg.le.trans (Nat.zero_le _))
    exact ⟨_, exec_reconstruct_of_eq (reconstruct_of_pass hpass), rfl, State.writeImage_of_imageLength_eq_zero himg⟩
  · have hne : s.outLen.toNat ≠ s.expectedLen := by
      rw [hexp]; exact fun h => hlen (BitVec.eq_of_toNat_eq h)
    exact ⟨_, exec_reconstruct_of_eq (reconstruct_of_malformed hpal hne), rfl, rfl⟩
  · exact ⟨_, exec_reconstruct_of_eq (reconstruct_of_unknownPalette hpal), rfl, rfl⟩

end Sys2Proof.Machine

/-! ## PALETTE_READ (O36, O37) -/

namespace Sys2Proof.Machine

/-- PAL_RGB's three fields as one number (10_state.md R39). -/
theorem packRgb_eq_ofNat (p : Rgb) :
    packRgb p = BitVec.ofNat 24 (p.r.toNat * 65536 + p.g.toNat * 256 + p.b.toNat) := by
  have hg := p.g.isLt
  have hb := p.b.isLt
  apply BitVec.eq_of_toNat_eq
  rw [packRgb, BitVec.toNat_append, BitVec.toNat_append, ← Nat.shiftLeft_add_eq_or_of_lt hg,
    ← Nat.shiftLeft_add_eq_or_of_lt hb, BitVec.toNat_ofNat]
  omega

/-! ### The selector's check, and what PALETTE_READ answers for each outcome -/

theorem paletteRead_of_unknownPalette {s : State} (hpal : 2 ≤ s.palSel.toNat) :
    paletteRead s = s.raise ⟨.unknownPalette, 0, 2, s.palSel.toNat⟩ := by
  rw [paletteRead, paletteError, if_pos hpal]

theorem paletteRead_of_known {s : State} (hpal : s.palSel.toNat < 2) :
    paletteRead s = State.finish { s with palRgb := packRgb (s.pal s.palSel s.palIdx) } := by
  rw [paletteRead, paletteError, if_neg hpal.not_ge]

/-- PALETTE_READ completes with the entry that the selector and the index pick, packed as a number (R185). -/
theorem exec_paletteRead_of_entry {s : State} {p : Rgb} (hpal : s.palSel.toNat < 2)
    (hentry : s.pal s.palSel s.palIdx = p) :
    exec .paletteRead s = .next (State.finish { s with
      palRgb := BitVec.ofNat 24 (p.r.toNat * 65536 + p.g.toNat * 256 + p.b.toNat) }) := by
  rw [← packRgb_eq_ofNat, ← hentry, ← paletteRead_of_known hpal]
  rfl

theorem State.pal_zero (s : State) (i : BitVec 4) : s.pal 0 i = s.rom0[i.toNat] := rfl

theorem State.pal_one (s : State) (i : BitVec 4) : s.pal 1 i = s.rom1[i.toNat] := rfl

/-- Settles O36: selector 0 or 1 picks its palette's entry, and any other fails the check. -/
theorem paletteReadPacksTheEntry : Obligations.PaletteReadPacksTheEntry := by
  refine ⟨rfl, fun s hp => by rw [tick, hp], fun s => ⟨fun hsel => ?_, fun hsel => ?_, fun hpal => ⟨_, rfl, ?_⟩⟩⟩
  · exact exec_paletteRead_of_entry (by rw [hsel]; decide) (by rw [hsel, State.pal_zero])
  · exact exec_paletteRead_of_entry (by rw [hsel]; decide) (by rw [hsel, State.pal_one])
  · have hsel : s.palSel.toNat ≤ 0xFFFFFFFF := s.palSel.isLt.le.trans (by decide)
    rw [paletteRead_of_unknownPalette hpal]
    exact ⟨rfl, rfl, rfl, rfl, toNat_sat32 hsel, rfl⟩

/-! ### What PALETTE_READ leaves unchanged -/

/-- Settles O37: by the outcome of the selector's check, since neither error entry nor completion writes another
field or a byte of a memory. -/
theorem paletteReadFrame : Obligations.PaletteReadFrame := by
  rintro s _ ⟨⟩
  rcases Nat.lt_or_ge s.palSel.toNat 2 with hknown | hunknown
  · rw [paletteRead_of_known hknown]
    exact ⟨rfl, State.finish_readByte _⟩
  · rw [paletteRead_of_unknownPalette hunknown]
    exact ⟨rfl, State.raise_readByte _ _⟩

end Sys2Proof.Machine

/-! ## Commands and the host's writes of registers (O29, O30, O38 to O42) -/

namespace Sys2Proof.Machine

/-- Settles O29: `step_withSched_cons`, the model's law of a step with moves to come. -/
theorem stepMakesTheNextMove : Obligations.StepMakesTheNextMove := step_withSched_cons

/-! ### The word written to CMD -/

theorem step_writeReg_cmd {s : State} (h : s.status ≠ .busy) (rest : List Move) (w : Word) :
    step (s.withSched (Move.writeReg .cmd w :: rest)) = commandWrite w (s.withSched rest) :=
  hostRegWrite_cmd (s := s.withSched rest) h w

/-- The three words of CMD are accepted, each with the phase of the command it decodes to (43_commands.md R195). -/
theorem commandWrite_of_command {w : Word} (hw : w = 1 ∨ w = 2 ∨ w = 3) (s : State) :
    commandWrite w s = .next (s.accept (startPhase (decodeCommand w))) := by
  rcases hw with rfl | rfl | rfl <;> rfl

/-- Every other word of CMD is the illegal command (R197). -/
theorem commandWrite_of_illegal {w : Word} (h1 : w ≠ 1) (h2 : w ≠ 2) (h3 : w ≠ 3) (s : State) :
    commandWrite w s = exec (.illegalCommand w) s := by
  rw [commandWrite, decodeCommand_illegal h1 h2 h3]

/-- A word that is no command is dropped while BUSY (R196). -/
theorem exec_illegalCommand_of_busy {s : State} (h : s.status = .busy) (w : Word) :
    exec (.illegalCommand w) s = .next s :=
  congrArg Host.Outcome.next (if_pos (State.busy_eq_true.mpr h))

/-- A word that is no command is reported at once, the word itself in ERR_AVAILABLE (R197). -/
theorem exec_illegalCommand_of_not_busy {s : State} (h : s.status ≠ .busy) (w : Word) :
    exec (.illegalCommand w) s =
      .next { s with
        status := .error, phase := .halt, errCode := 6, errPos := 0, errExpected := 3, errAvailable := w } := by
  have hraise : illegalCommand w s = s.raise ⟨.illegalCommand, 0, 3, w.toNat⟩ := if_neg (mt State.busy_eq_true.mp h)
  rw [exec, execIllegalCommand, hraise, State.raise, sat32_toNat]
  rfl

/-- Settles O38: each of the three words is accepted in the phase that its row names. -/
theorem acceptanceStartsTheCommand : Obligations.AcceptanceStartsTheCommand := by
  rintro s rest w p hb (⟨rfl, rfl⟩ | ⟨rfl, rfl⟩ | ⟨rfl, rfl⟩) <;>
    exact (step_writeReg_cmd hb rest _).trans (commandWrite_of_command (by decide) _)

/-- Settles O30: the accepted phase is the one in which the step is exec of that command. -/
theorem commandWriteThenStepRunsTheCommand : Obligations.CommandWriteThenStepRunsTheCommand := by
  intro s w hb hw
  refine ⟨_, (step_writeReg_cmd hb [] w).trans (commandWrite_of_command hw _), rfl, ?_⟩
  rcases hw with rfl | rfl | rfl <;> rfl

/-- Settles O39: the CMD write of such a word is exec of the illegal command. -/
theorem illegalCommandIsReportedAtOnce : Obligations.IllegalCommandIsReportedAtOnce := by
  intro s rest w hb h1 h2 h3
  refine ⟨exec_illegalCommand_of_not_busy hb w, ?_⟩
  rw [step_writeReg_cmd hb, commandWrite_of_illegal h1 h2 h3]
  exact exec_illegalCommand_of_not_busy (s := s.withSched rest) hb w

/-! ### Writes that are dropped -/

/-- Settles O40: each kind of write is dropped while BUSY, and one to RASTER always. -/
theorem hostWritesWhileBusyAreDropped : Obligations.HostWritesWhileBusyAreDropped := by
  intro s rest
  refine ⟨fun offset v bytes hb => ⟨?_, exec_illegalCommand_of_busy hb v⟩, fun sp a v h => ?_⟩ <;>
    rw [step_withSched_cons, doMove]
  · exact hostRegWrite_of_busy (s := s.withSched rest) hb offset v bytes
  · rcases h with hb | rfl
    · rw [hostMemWrite_of_busy (s := s.withSched rest) hb]
    · rw [hostMemWrite_raster]

/-! ### Writes of the RW registers -/

/-- A 32-bit write of a register other than CMD, while not BUSY, stores the value as `State.storeReg` says (R201). -/
theorem step_writeReg {s : State} (h : s.status ≠ .busy) {r : Reg} (hr : r ≠ .cmd) (rest : List Move) (v : Word) :
    step (s.withSched (Move.writeReg r v :: rest)) = .next ((s.withSched rest).storeReg r v) :=
  hostRegWrite_reg (s := s.withSched rest) h hr v

/-- What a register would not store is not written, BUSY or not. -/
theorem step_writeReg_of_storeReg_eq {s : State} {r : Reg} (hr : r ≠ .cmd) {rest : List Move} {v : Word}
    (h : (s.withSched rest).storeReg r v = s.withSched rest) :
    step (s.withSched (Move.writeReg r v :: rest)) = .next (s.withSched rest) := by
  by_cases hb : s.status = .busy
  · exact hostRegWrite_of_busy (s := s.withSched rest) hb _ _ _
  · rw [step_writeReg hb hr, h]

/-- Settles O42: a length above its capacity is one that `State.storeReg` does not store. -/
theorem lengthAboveCapacityIsIgnored : Obligations.LengthAboveCapacityIsIgnored := fun _ _ _ =>
  ⟨fun h => step_writeReg_of_storeReg_eq (by decide) (if_pos h),
    fun h => step_writeReg_of_storeReg_eq (by decide) (if_pos h)⟩

/-- Settles O41: each register stores its used bits, and the derived registers are formulas of WIDTH and HEIGHT. -/
theorem registerWriteStoresItsUsedBits : Obligations.RegisterWriteStoresItsUsedBits := by
  intro s rest v hb
  have hlow : (v.setWidth 16).toNat = v.toNat % 65536 := BitVec.toNat_setWidth 16 v
  refine ⟨⟨_, step_writeReg hb (by decide) rest v, rfl, ?_, ?_⟩, ⟨_, step_writeReg hb (by decide) rest v, rfl, ?_, ?_⟩,
    step_writeReg hb (by decide) rest v, step_writeReg hb (by decide) rest v, step_writeReg hb (by decide) rest v,
    fun hle => ?_, fun hle => ?_⟩
  · rw [State.readReg_expectedLen_toNat, ← hlow]; rfl
  · rw [State.readReg_rasterW_toNat, ← hlow]; rfl
  · rw [State.readReg_expectedLen_toNat, ← hlow]; rfl
  · rw [State.readReg_rasterH_toNat, ← hlow]; rfl
  · rw [step_writeReg hb (by decide), State.storeReg, State.withSched, if_neg hle.not_gt]
  · rw [step_writeReg hb (by decide), State.storeReg, State.withSched, if_neg hle.not_gt]

end Sys2Proof.Machine

/-! ## Memory bytes that the host writes and reads (O47, O60) -/

namespace Sys2Proof.Machine

/-- A host read that is no draw records the byte and changes nothing else (20_memory.md R74). -/
theorem step_memRead_of_some {s : State} {sp : Space} {a : Word} {v : Byte} (h : s.hostByte? sp a.toNat = some v)
    (rest : List Move) :
    step (s.withSched (.memRead sp a :: rest)) = .next { s with busData := v.setWidth 32, sched := rest } := by
  rw [step_withSched_cons, doMove, hostMemRead_of_some (by rwa [State.hostByte?_withSched])]
  rfl

/-- A host write of a byte of IN or OUT below the capacity, while not BUSY, writes it in its memory (43_commands.md
R205). -/
theorem step_memWrite_of_lt {s : State} (hb : s.status ≠ .busy) {sp : Space} (hsp : sp ≠ .raster) {a : Word}
    (ha : a.toNat < s.capacity sp) (v : Byte) (rest : List Move) :
    step (s.withSched (.memWrite sp a v :: rest)) =
      .next ((s.setMem sp ((s.mem sp).write a.toNat v)).withSched rest) := by
  have hcap : (s.withSched rest).capacity sp = s.capacity sp := by cases sp <;> rfl
  rw [step_withSched_cons, doMove, hostMemWrite_of_lt (s := s.withSched rest) hb hsp (hcap ▸ ha)]
  cases sp <;> rfl

/-- A host write at or beyond the capacity, or of RASTER, writes nothing (R205). -/
theorem step_memWrite_of_unwritable {s : State} {sp : Space} {a : Word}
    (h : s.capacity sp ≤ a.toNat ∨ sp = .raster) (v : Byte) (rest : List Move) :
    step (s.withSched (.memWrite sp a v :: rest)) = .next (s.withSched rest) := by
  rw [step_withSched_cons, doMove]
  rcases h with hle | rfl
  · rw [hostMemWrite_of_le (by cases sp <;> exact hle)]
  · rw [hostMemWrite_raster]

@[simp] theorem State.setMem_mem (s : State) (sp : Space) (m : Memory) : (s.setMem sp m).mem sp = m := by
  cases sp <;> rfl

/-- Where a host read returns the byte that was written, if one was (20_memory.md R74, 43_commands.md R205). -/
def State.HostReadable (s : State) : Space → Nat → Prop
  | .input, a => a < s.inCap.toNat ∧ a < s.inLen.toNat
  | .output, a => s.status ≠ .busy ∧ a < s.outCap.toNat ∧ a < s.outLen.toNat
  | .raster, a => s.status ≠ .busy ∧ a < s.rasterCap.toNat ∧ a < s.imageLength

theorem State.HostReadable.hostByte?_eq {s : State} {sp : Space} {a : Nat} (h : s.HostReadable sp a) {v : Byte}
    (hread : (s.mem sp).read? a = some v) : s.hostByte? sp a = some v := by
  rw [State.hostByte?_eq_some]
  cases sp with
  | input => exact ⟨hread, h⟩
  | output | raster =>
    obtain ⟨hb, hcap, hlen⟩ := h
    exact ⟨hread, hcap, hb, hlen⟩

theorem State.HostReadable.lt_capacity {s : State} {sp : Space} {a : Nat} (h : s.HostReadable sp a) :
    a < s.capacity sp := by
  cases sp with
  | input => exact h.1
  | output | raster => exact h.2.1

/-- A write of a memory byte and then a read of it: the read records the byte written and takes no draw. -/
theorem step_memWrite_then_memRead {s : State} (hb : s.status ≠ .busy) {sp : Space} (hsp : sp ≠ .raster) {a : Word}
    (hread : s.HostReadable sp a.toNat) (v : Byte) (rest : List Move) :
    ∃ t u, step (s.withSched (.memWrite sp a v :: .memRead sp a :: rest)) = .next t ∧ step t = .next u ∧
      u.busData = v.setWidth 32 ∧ u.draws = s.draws ∧ u.sched = rest := by
  have hread' : (s.setMem sp ((s.mem sp).write a.toNat v)).HostReadable sp a.toNat := by cases sp <;> exact hread
  refine ⟨_, _, step_memWrite_of_lt hb hsp hread.lt_capacity v _,
    step_memRead_of_some (hread'.hostByte?_eq (v := v) (by simp)) rest, rfl, ?_, rfl⟩
  cases sp <;> rfl

/-- Settles O47: by what a host write does to its memory, and since both the byte just written and every byte written
before are `State.HostReadable`. -/
theorem hostReadsBackWhatItWrote : Obligations.HostReadsBackWhatItWrote := by
  intro s rest sp a v
  refine ⟨fun hb hin => ?_, fun hin hwritten => ?_, ?_, ?_, fun h => step_memWrite_of_unwritable ?_ v rest⟩
  · obtain ⟨hsp, hread⟩ : sp ≠ .raster ∧ s.HostReadable sp a.toNat := by
      rcases hin with ⟨rfl, h⟩ | ⟨rfl, h⟩
      · exact ⟨by decide, h⟩
      · exact ⟨by decide, hb, h⟩
    exact step_memWrite_then_memRead hb hsp hread v rest
  · have hread : s.HostReadable sp a.toNat := by rcases hin with ⟨rfl, h⟩ | ⟨rfl, h⟩ | ⟨rfl, h⟩ <;> exact h
    exact step_memRead_of_some (hread.hostByte?_eq hwritten) rest
  · rintro hb rfl hcap
    exact ⟨s.inMem.write a.toNat v, step_memWrite_of_lt hb (by decide) hcap v rest, fun b => by
      simp only [Memory.read?_write, eq_comm]⟩
  · rintro hb rfl hcap
    exact ⟨s.outMem.write a.toNat v, step_memWrite_of_lt hb (by decide) hcap v rest, fun b => by
      simp only [Memory.read?_write, eq_comm]⟩
  · rcases h with ⟨rfl, hle⟩ | ⟨rfl, hle⟩ | rfl
    · exact .inl hle
    · exact .inl hle
    · exact .inr rfl

/-- RECONSTRUCT ends in DONE only where its checks pass, so that the image fits in RASTER (41_reconstruct.md R155). -/
theorem reconstruct_of_done {s : State} (h : (reconstruct s).status = .done) :
    s.imageLength ≤ s.rasterCap.toNat ∧ reconstruct s = State.finish { s with rasterMem := s.writeImage } := by
  rcases reconstructError_cases s with ⟨_, he⟩ | ⟨_, _, he⟩ | ⟨_, _, _, he⟩ | ⟨_, _, hfit, he⟩
  case inr.inr.inr => exact ⟨hfit, reconstruct_of_pass he⟩
  all_goals rw [reconstruct_of_error he] at h; cases h

/-- Settles O60: each command ends outside BUSY with every byte of its result written, so that a read inside the
result is a sure one. -/
theorem hostReadsWhatACommandDelivered : Obligations.HostReadsWhatACommandDelivered := by
  rintro s t rest a
  refine ⟨?_, ?_⟩
  · rintro ⟨⟩ hlt
    obtain ⟨⟨hcap, hwritten⟩, hb⟩ := decompress_produced s
    obtain ⟨v, hv⟩ := Option.isSome_iff_exists.mp (hwritten a.toNat hlt)
    have hbyte : (decompress s).readByte .output a.toNat = v := by rw [State.readByte, State.mem, hv]; rfl
    have hread : (decompress s).HostReadable .output a.toNat := ⟨hb, hlt.trans_le hcap, hlt⟩
    rw [hbyte]
    exact step_memRead_of_some (hread.hostByte?_eq hv) rest
  · rintro ⟨⟩ hdone hlt
    obtain ⟨hfit, e⟩ := reconstruct_of_done hdone
    obtain ⟨v, hv⟩ := Option.isSome_iff_exists.mp (s.read?_writeImage_isSome hlt)
    have hread : (State.finish { s with rasterMem := s.writeImage }).HostReadable .raster a.toNat :=
      ⟨nofun, hlt.trans_le hfit, hlt⟩
    rw [e]
    exact ⟨v, hv, step_memRead_of_some (hread.hostByte?_eq hv) rest⟩

end Sys2Proof.Machine

/-! ## What DECOMPRESS leaves unchanged (O24) -/

namespace Sys2Proof.Machine

/-- The settings and the record of the host, which are for no sequencer step of DECOMPRESS to write: PAL_SEL, TRANSP,
PAL_IDX, PAL_RGB, and the model's own moves to come, last read and count of draws. -/
def State.hostSide (s : State) : Byte × BitVec 9 × BitVec 4 × BitVec 24 × List Move × Word × Nat :=
  (s.palSel, s.transp, s.palIdx, s.palRgb, s.sched, s.busData, s.draws)

theorem headerStep_hostSide (s : State) : (headerStep s).hostSide = s.hostSide := by
  rcases headerStep_cases s with ⟨_, e⟩ | ⟨_, e⟩ <;> rw [e] <;> rfl

theorem runToken_hostSide {s : State} (h : s.ip.toNat < s.inLen.toNat) : (runToken s).hostSide = s.hostSide := by
  rcases runToken_cases h with ⟨_, _, e⟩ | ⟨_, _, _, _, _, _, _, e⟩ | ⟨_, _, _, _, _, _, _, _, e⟩ <;>
    simp [e, State.hostSide]

theorem decompress_hostSide (s : State) : (decompress s).hostSide = s.hostSide := by
  obtain ⟨t, ht, ⟨_, _, e⟩ | ⟨_, e⟩⟩ := decompress_rule (fun t => t.hostSide = s.hostSide)
    (fun _ ht _ hlt => (runToken_hostSide hlt).trans ht) s (headerStep_hostSide s)
  · rw [e]; exact ht
  · rw [e]; exact ht

theorem headerStep_readByte_output (s : State) (a : Nat) :
    (headerStep s).readByte .output a = s.readByte .output a := by
  rcases headerStep_cases s with ⟨_, e⟩ | ⟨_, e⟩ <;> rw [e] <;> rfl

/-- A token appends to OUT: no byte at or past its final OUT_LEN changes (20_memory.md R62). -/
theorem runToken_readByte_output {s : State} (hlt : s.ip.toNat < s.inLen.toNat) {a : Nat}
    (ha : (runToken s).outLen.toNat ≤ a) :
    s.outLen.toNat ≤ a ∧ (runToken s).readByte .output a = s.readByte .output a := by
  have hcap := s.outCap.isLt
  rcases runToken_cases hlt with ⟨_, _, e⟩ | ⟨bytes, _, _, _, _, _, hfit, e⟩ | ⟨high, b1, b2, _, _, _, hd, hfit, e⟩ <;>
    rw [e] at ha ⊢
  · exact ⟨ha, rfl⟩
  · have hlen : (s.outLen + BitVec.ofNat 32 bytes.length).toNat = s.outLen.toNat + bytes.length :=
      toNat_add_ofNat (by omega)
    simp only [State.endToken_outLen, State.advance_outLen, State.appendRun_outLen, State.latch_outLen, hlen] at ha
    simp only [State.endToken_readByte, State.advance_readByte, State.appendRun_readByte_output, State.latch_outLen,
      State.latch_readByte]
    exact ⟨by omega, dif_neg (by omega)⟩
  · have hlen : (s.outLen + BitVec.ofNat 32 (copyLength b2)).toNat = s.outLen.toNat + copyLength b2 :=
      toNat_add_ofNat (by omega)
    have hpos := (brefDistance_bounds (matchFlag_brefControl high) b1).1
    simp only [State.endToken_outLen, State.setSrc_outLen, State.advance_outLen, copyLoop_outLen, State.latch_outLen,
      hlen] at ha
    simp only [State.endToken_readByte, State.setSrc_readByte, State.advance_readByte]
    rw [copyLoop_readByte (by rw [State.latch_outLen]; omega) (by rw [State.latch_outLen]; omega), State.latch_outLen]
    exact ⟨by omega, if_neg (by omega)⟩

/-- DECOMPRESS changes no byte of OUT at or past the OUT_LEN it ends with (43_commands.md R199). -/
theorem decompress_readByte_output {s : State} {a : Nat} (ha : (decompress s).outLen.toNat ≤ a) :
    (decompress s).readByte .output a = s.readByte .output a := by
  obtain ⟨t, ht, ⟨_, _, e⟩ | ⟨_, e⟩⟩ := decompress_rule
    (fun t => t.outLen.toNat ≤ a → t.readByte .output a = s.readByte .output a)
    (fun _ ht _ hlt hle =>
      let ⟨hle', hsame⟩ := runToken_readByte_output hlt hle
      hsame.trans (ht hle')) s
    (fun _ => headerStep_readByte_output s a)
  · rw [e] at ha ⊢; exact ht ha
  · rw [e] at ha ⊢; exact ht ha

/-- Settles O24: the fields that may not differ are the parameters, those of `State.inputAndRaster` and those of
`State.hostSide`, and each token only appends. -/
theorem decompressFrame : Obligations.DecompressFrame := by
  rintro s _ ⟨⟩
  refine ⟨?_, fun a ha => decompress_readByte_output ha⟩
  obtain ⟨⟨hinMem, hinLen, hepoch⟩, hraster⟩ := State.inputAndRaster_eq.mp (decompress_inputAndRaster s)
  have hparameters := decompress_parameters s
  have hhost := decompress_hostSide s
  simp only [State.parameters, State.hostSide, Prod.mk.injEq] at hparameters hhost
  obtain ⟨hinCap, houtCap, hrasterCap, hrom0, hrom1⟩ := hparameters
  obtain ⟨hpalSel, htransp, hpalIdx, hpalRgb, hsched, hbus, hdraws⟩ := hhost
  rw [← hinMem, ← hinLen, ← hepoch, ← hraster, ← hinCap, ← houtCap, ← hrasterCap, ← hrom0, ← hrom1, ← hpalSel,
    ← htransp, ← hpalIdx, ← hpalRgb, ← hsched, ← hbus, ← hdraws]

end Sys2Proof.Machine

/-! ## No step faults, and STATUS outside BUSY (O53, O57) -/

namespace Sys2Proof.Machine

theorem tick_of_halt {s : State} (h : s.phase = .halt) : tick s = .next s := by rw [tick, h]

/-- Under the invariant a sequencer step is enabled in every phase but HALT, where the tick stays (43_commands.md R207,
R208). -/
theorem State.Inv.exists_tick {s : State} (h : s.Inv) : ∃ t, tick s = .next t := by
  have hcnt (hpos : 1 ≤ s.wCnt.toNat) : s.wCnt ≠ 0#9 := fun h0 => by simp [h0] at hpos
  cases hp : s.phase <;> simp only [tick, hp]
  case halt | hdr | recon | palrd => exact ⟨_, rfl⟩
  case fetch => exact (h.after_fetchStep hp).imp fun _ => And.left
  case litcopy =>
    obtain ⟨_, hpos, _⟩ := h.litcopy hp
    exact ⟨_, if_neg (hcnt hpos)⟩
  case refcopy =>
    obtain ⟨_, hpos, _⟩ := h.refcopy hp
    exact ⟨_, if_neg (hcnt hpos)⟩

/-- At FETCH the invariant has IP at most IN_LEN: the command finishes, or a token runs. -/
theorem State.Inv.exists_fetchAndExec {s : State} (h : s.Inv) (hp : s.phase = .fetch) :
    ∃ t, fetchAndExec s = .next t := by
  obtain ⟨_, hle⟩ := h.cursor (.inl hp)
  rcases hle.eq_or_lt with heq | hlt
  · exact ⟨_, if_pos heq⟩
  · exact ⟨_, fetchAndExec_of_lt hlt⟩

theorem State.Inv.exists_runInstr {s : State} (h : s.Inv) : ∃ t, runInstr s = .next t := by
  cases hp : s.phase <;> simp only [runInstr, hp]
  case hdr => exact ⟨_, rfl⟩
  case fetch => exact h.exists_fetchAndExec hp
  all_goals exact h.exists_tick

/-- Every host write to REG has a defined effect, in any state (R210). -/
theorem exists_hostRegWrite (offset v : Word) (bytes : Nat) (s : State) :
    ∃ t, hostRegWrite offset bytes v s = .next t := by
  rcases hostRegWrite_cases offset v bytes s with e | ⟨_, _, _, e⟩ | ⟨_, _, _, _, _, e⟩
  · exact ⟨_, e⟩
  · rcases commandWrite_cases v s with ⟨_, _, e'⟩ | e' <;> exact ⟨_, e.trans e'⟩
  · exact ⟨_, e⟩

theorem State.Inv.exists_doMove {s : State} (h : s.Inv) (m : Move) : ∃ t, doMove m s = .next t := by
  cases m with
  | tick => exact h.exists_tick
  | regWrite offset bytes v => exact exists_hostRegWrite offset v bytes s
  | regRead | memWrite | memRead | reset => exact ⟨_, rfl⟩

/-- Settles O53: the invariant rules out the states without an enabled step, and no host access faults. -/
theorem noStepFaults : Obligations.NoStepFaults := by
  refine fun s => ⟨fun h => ⟨?_, h.exists_tick⟩, tick_of_halt⟩
  rw [StepSafe, step]
  split
  · exact h.exists_runInstr
  · exact (h.withSched _).exists_doMove _

/-! ### STATUS outside BUSY -/

theorem State.storeReg_status (s : State) (r : Reg) (v : Word) : (s.storeReg r v).status = s.status := by
  cases r
  case inLen | outLen => rw [State.storeReg]; split <;> rfl
  all_goals rfl

/-- A host write to REG that changes STATUS is a 32-bit write of CMD (43_commands.md R195, R197). -/
theorem hostRegWrite_status {s t : State} {offset v : Word} {bytes : Nat}
    (h : hostRegWrite offset bytes v s = .next t) :
    t.status = s.status ∨ bytes = 4 ∧ offset = Reg.cmd.offset := by
  rcases hostRegWrite_cases offset v bytes s with e | ⟨_, hbytes, hoffset, _⟩ | ⟨_, _, r, _, _, e⟩
  · rw [e] at h; cases h; exact .inl rfl
  · exact .inr ⟨hbytes, hoffset⟩
  · rw [e] at h; cases h; exact .inl (s.storeReg_status r v)

theorem hostMemWrite_status (sp : Space) (a : Nat) (v : Byte) (s : State) :
    (hostMemWrite sp a v s).status = s.status := by
  by_cases hb : s.status = .busy
  · rw [hostMemWrite_of_busy hb]
  · rcases Nat.lt_or_ge a (s.capacity sp) with hlt | hle
    · cases sp
      case raster => rw [hostMemWrite_raster]
      all_goals rw [hostMemWrite_of_lt hb (by decide) hlt]; rfl
    · rw [hostMemWrite_of_le hle]

/-- In HALT a move that changes STATUS is a reset or a 32-bit write of CMD (R207). -/
theorem doMove_status_of_halt {m : Move} {s t : State} (hp : s.phase = .halt) (h : doMove m s = .next t) :
    t.status = s.status ∨ m = .reset ∨ ∃ w, m = .regWrite Reg.cmd.offset 4 w := by
  cases m with
  | tick =>
    rw [doMove, tick_of_halt hp] at h
    cases h; exact .inl rfl
  | regWrite offset bytes v =>
    rcases hostRegWrite_status h with hs | ⟨rfl, rfl⟩
    · exact .inl hs
    · exact .inr (.inr ⟨v, rfl⟩)
  | regRead offset bytes => cases h; exact .inl rfl
  | memWrite sp a v => cases h; exact .inl (hostMemWrite_status _ _ _ _)
  | memRead sp a =>
    obtain ⟨v, n, e⟩ := hostMemRead_eq sp a.toNat s
    rw [doMove, e] at h
    cases h; exact .inl rfl
  | reset => exact .inr (.inl rfl)

/-- Settles O57: outside BUSY the invariant has w.PHASE in HALT, where the sequencer stays and of the host's moves only
a reset or a CMD write reaches STATUS. -/
theorem haltIsLeftOnlyByCommandOrReset : Obligations.HaltIsLeftOnlyByCommandOrReset := by
  intro s t h hb ht
  have hp : s.phase = .halt := not_not.mp (mt h.busy_iff.mpr hb)
  rw [step] at ht
  split at ht
  next hs =>
    rw [runInstr, hp] at ht
    obtain rfl := Host.Outcome.next.inj ((tick_of_halt hp).symm.trans ht)
    exact ⟨fun _ => rfl, fun hne => absurd rfl hne⟩
  next m rest hs =>
    refine ⟨fun hnil => (by rw [hnil] at hs; cases hs), fun hne => ⟨rest, ?_⟩⟩
    rcases doMove_status_of_halt (s := s.withSched rest) hp ht with he | rfl | ⟨w, rfl⟩
    · exact absurd he hne
    · exact .inl hs
    · exact .inr ⟨w, hs⟩

end Sys2Proof.Machine

/-! ## The reset state, and loading a file (O51, O49) -/

namespace Sys2Proof.Machine

/-- On power-up w.PHASE is HALT, so the clauses about tokens hold at once; the parameters keep their ranges (00_scope.md
R9) and no byte is written. -/
theorem State.reset_inv : State.reset.Inv where
  busy_iff := by decide
  inCap_ge := by rw [State.reset_inCap_toNat]; exact Nat.le_add_right _ _
  outCap_ge := by rw [State.reset_outCap_toNat]; exact Nat.le_add_right _ _
  rasterCap_ge := by rw [State.reset_rasterCap_toNat]; exact Nat.le_add_right _ _
  inLen_le := Nat.zero_le _
  outLen_le := Nat.zero_le _
  inMem_wf := State.reset_inMem_wf
  outMem_wf := State.reset_outMem_wf
  rasterMem_wf := State.reset_rasterMem_wf
  inMem_below := List.forall_mem_nil _
  outMem_below := List.forall_mem_nil _
  rasterMem_below := List.forall_mem_nil _
  noError := fun _ => ⟨rfl, rfl, rfl, rfl⟩
  errorCode := nofun
  cursor := by simp [State.inTokens, State.reset]
  produced := fun _ _ h => absurd h (Nat.not_lt_zero _)
  litcopy := nofun
  refcopy := nofun

/-- Settles O51: of the registers only the three capacities read the parameters, and every other one reads a reset value
of 0. -/
theorem resetMeetsTheInvariant : Obligations.ResetMeetsTheInvariant := by
  refine ⟨State.reset_inv, ⟨by decide, rfl, List.forall_mem_nil _⟩, fun r hr => ?_⟩
  cases r
  case inCap => exact .inl rfl
  case outCap => exact .inr (.inl rfl)
  case rasterCap => exact .inr (.inr rfl)
  all_goals exact absurd rfl hr

/-! ### Loading a file -/

theorem run_succ_of_step {M : Host.Core} {s t : M.State} (h : M.step s = .next t) (n : Nat) :
    M.run (n + 1) s = M.run n t := by rw [Host.Core.run, h]

/-- The same for the model's own names, with which the laws of a step are stated. -/
theorem run_core_succ_of_step {s t : State} (h : step s = .next t) (n : Nat) :
    Host.Core.run Sys2Proof.core (n + 1) s = Host.Core.run Sys2Proof.core n t :=
  run_succ_of_step (M := Sys2Proof.core) (s := s) (t := t) h n

/-- The moves that write bytes to IN take one step for each byte and write them all, below the capacity and while not
BUSY (43_commands.md R205). -/
theorem run_writeBytes_input {bytes : List Byte} {s : State} (hb : s.status ≠ .busy) {a : Nat}
    (hfit : a + bytes.length ≤ s.inCap.toNat) (rest : List Move) (n : Nat) :
    Host.Core.run Sys2Proof.core (bytes.length + n) (s.withSched (Move.writeBytes .input a bytes ++ rest)) =
      Host.Core.run Sys2Proof.core n ({ s with inMem := s.inMem.writeAll a bytes }.withSched rest) := by
  induction bytes generalizing s a with
  | nil => rw [List.length_nil, Nat.zero_add]; rfl
  | cons v bytes ih =>
    rw [List.length_cons] at hfit
    have ha : (BitVec.ofNat 32 a).toNat = a := Nat.mod_eq_of_lt (by have := s.inCap.isLt; omega)
    have hstep := step_memWrite_of_lt hb (sp := .input) (by decide) (a := BitVec.ofNat 32 a)
      (by rw [ha, State.capacity]; omega) v (Move.writeBytes .input (a + 1) bytes ++ rest)
    rw [ha] at hstep
    rw [List.length_cons, Nat.add_right_comm, Move.writeBytes, List.cons_append, run_core_succ_of_step hstep]
    exact ih (s := s.setMem .input (s.inMem.write a v)) hb (a := a + 1) (by simp only [State.setMem]; omega)

/-- The write of IN_LEN alone makes a clean idle block Loaded(F) where IN reads as F (70_reset_and_hazards.md R271). -/
theorem step_writeInLen_loaded {s : State} {file : List Byte} (hidle : CleanIdle s) (hfit : file.length ≤ s.inCap.toNat)
    (hin : ∀ k (h : k < file.length), s.readByte .input k = file[k]) :
    ∃ t, step (s.withSched [Move.writeReg .inLen (BitVec.ofNat 32 file.length)]) = .next t ∧
      Loaded file t ∧ t.sched = [] ∧ t.inMem = s.inMem := by
  obtain ⟨hb, hp, _⟩ := hidle
  have hlen : (BitVec.ofNat 32 file.length).toNat = file.length :=
    Nat.mod_eq_of_lt (by have := s.inCap.isLt; omega)
  obtain ⟨_, _, _, _, _, hstep, _⟩ := registerWriteStoresItsUsedBits s [] (BitVec.ofNat 32 file.length) hb
  exact ⟨_, hstep (hlen.trans_le hfit), ⟨⟨hb, hp, List.forall_mem_nil _⟩, hlen, hin⟩, rfl, rfl⟩

/-- Settles O49: the writes of the bytes lead to a state where IN reads as the file, and the write of IN_LEN does the
rest. -/
theorem loadingAFileLoadsIt : Obligations.LoadingAFileLoadsIt := by
  intro s file _ hidle hfit
  refine ⟨?_, fun hin => ?_⟩
  · obtain ⟨hb, hp, hsched⟩ := hidle
    have hread (k) (h : k < file.length) : (s.inMem.writeAll 0 file).read? k = some file[k] := by
      rw [Memory.read?_writeAll, dif_pos ⟨k.zero_le, by omega⟩]; rfl
    obtain ⟨t, ht, hloaded, hnil, hmem⟩ := step_writeInLen_loaded (s := { s with inMem := s.inMem.writeAll 0 file })
      ⟨hb, hp, hsched⟩ hfit fun k h => by rw [State.readByte, State.mem, hread k h, Option.getD_some]
    refine ⟨t, ?_, hloaded, hnil, fun k h => by rw [hmem, hread k h]⟩
    rw [Move.loadFile, run_writeBytes_input hb (by omega)]
    exact run_core_succ_of_step ht 0
  · obtain ⟨t, ht, hloaded, _⟩ := step_writeInLen_loaded hidle hfit hin
    exact ⟨t, ht, hloaded⟩

end Sys2Proof.Machine
